-- ==== Sys2Proof/Word.lean ====
section
/-! DEFINITION. The words HUFFCORE moves: bytes, 32-bit registers, 9-bit node indices, byte strings
and bit strings (R6, R8, R9, R10 of 00_scope.md). -/

namespace Sys2Proof

/-- SYM_W = 8: a symbol, and one unit of a byte buffer (R6). -/
abbrev Byte := BitVec 8

/-- REG_W = CNT_W = 32: a host-visible register, a count, a length (R6). -/
abbrev Word := BitVec 32

/-- A node index; the value 0x1FF is NONE (R6, R36). -/
abbrev NodeIndex := BitVec 9

/-- A byte string, first byte first (R9). -/
abbrev Bytes := List Byte

/-- A bit string, first bit first (R10). A code is one of these. -/
abbrev Bits := List Bool

end Sys2Proof
end

