-- ==== Sys2Proof/Syntax.lean ====
section
/-! DEFINITION. The command set of HUFFCORE: one constructor per row of spec/opcode_table.json
(R92 of 30_encoding.md), and the reasons a word is no command (R91, R94). -/

namespace Sys2Proof

/-- The eleven commands (R92). Only LOOKUP carries an operand, its 8-bit symbol (R93). -/
inductive Instr where
  /-- 0x00, R131. -/
  | nop
  /-- 0x01, R132. -/
  | clr
  /-- 0x02, R141. -/
  | freq
  /-- 0x03, R151. -/
  | tree
  /-- 0x04, R166. -/
  | codes
  /-- 0x05, R173. -/
  | lookup (sym : Byte)
  /-- 0x06, R181. -/
  | pack
  /-- 0x07, R188. -/
  | enc
  /-- 0x08, R196. -/
  | parse
  /-- 0x09, R204. -/
  | unpack
  /-- 0x0A, R210. -/
  | dec
deriving DecidableEq, Repr

/-- Why a 32-bit word is ILLEGAL, in the order R91 tests it. -/
inductive DecodeError where
  /-- Some bit of 31:16 is set. -/
  | reservedBits
  /-- The opcode is one of 0x0B..0xFF. -/
  | reservedOpcode
  /-- SYM is not 0 and the command is not LOOKUP. -/
  | symNotZero
deriving DecidableEq, Repr

/-- What decoding a word answers: a command, or the reason it is ILLEGAL. -/
inductive Decoded where
  | command (i : Instr)
  | illegal (why : DecodeError)
deriving DecidableEq, Repr

end Sys2Proof
end

