-- ==== Sys2Proof/WellFormed.lean ====
section
/-! DEFINITION. Well-formedness. Every term of `Instr` is well formed, because its one operand is a
byte by type (R93); what can be ill formed is a command WORD, by the three checks of R90 and R94,
written here as number arithmetic, apart from the decoder. -/

namespace Sys2Proof

/-- Every command is well formed: LOOKUP admits every symbol 0..255 and the others have no operand (R90, R93). -/
def Instr.wf : Instr → Bool
  | .nop => true
  | .clr => true
  | .freq => true
  | .tree => true
  | .codes => true
  | .lookup _ => true
  | .pack => true
  | .enc => true
  | .parse => true
  | .unpack => true
  | .dec => true

/-- Bits 31:16 are zero (R90). -/
def reservedBitsClear (w : Word) : Bool := w.toNat / 2 ^ 16 == 0

/-- The opcode, bits 7:0, is one of 0x00..0x0A (R92, R94). -/
def opcodeAssigned (w : Word) : Bool := w.toNat % 256 ≤ 10

/-- SYM, bits 15:8, is zero unless the opcode is LOOKUP's (R90). -/
def symOperandAllowed (w : Word) : Bool := w.toNat % 256 == 5 || w.toNat / 256 % 256 == 0

/-- A command word all of whose fields are as R90 to R94 allow. -/
def wordWf (w : Word) : Bool := reservedBitsClear w && opcodeAssigned w && symOperandAllowed w

end Sys2Proof
end

