-- ==== Sys2Proof/Decode.lean ====
section
/-! DEFINITION. Decoding a command word (R91 of 30_encoding.md) and, after it, encoding a command
(R90, R92, R93). A command is one 32-bit word written whole to CMD, so no byte order enters (R67, R95). -/

namespace Sys2Proof

/-- OPC, bits 7:0 of a command word (R90). -/
def opcOf (w : Word) : Byte := w.extractLsb' 0 8

/-- SYM, bits 15:8 of a command word (R90, R93). -/
def symOf (w : Word) : Byte := w.extractLsb' 8 8

/-- Bits 31:16 of a command word, reserved (R90). -/
def reservedOf (w : Word) : BitVec 16 := w.extractLsb' 16 16

/-- The opcode map (R92); `none` for 0x0B..0xFF (R94). -/
def commandOf (opc sym : Byte) : Option Instr :=
  match opc.toNat with
  | 0 => some .nop
  | 1 => some .clr
  | 2 => some .freq
  | 3 => some .tree
  | 4 => some .codes
  | 5 => some (.lookup sym)
  | 6 => some .pack
  | 7 => some .enc
  | 8 => some .parse
  | 9 => some .unpack
  | 10 => some .dec
  | _ => none

/-- `decode(w)` of R91, its tests in R91's order; total on every 32-bit word. -/
def decode (w : Word) : Decoded :=
  if reservedOf w ≠ 0 then .illegal .reservedBits
  else
    match commandOf (opcOf w) (symOf w) with
    | none => .illegal .reservedOpcode
    | some i =>
      if opcOf w ≠ 0x05 ∧ symOf w ≠ 0 then .illegal .symNotZero else .command i

/-- The command a word stands for, if it is one. -/
def decode? (w : Word) : Option Instr :=
  match decode w with
  | .command i => some i
  | .illegal _ => none

/-- What the decoder reads from a word numbered as spec/opcode_table.json numbers it (bit 0 is the
least significant bit of the word): the low `nbits` bits of `w`, the others 0. A word of more than 32
bits is no command (R95). -/
def decodeTableWord (nbits w : Nat) : Option Instr :=
  if w % 2 ^ nbits < 2 ^ 32 then decode? (BitVec.ofNat 32 (w % 2 ^ nbits)) else none

/-- The opcode of a command (R92). -/
def opcodeOf : Instr → Byte
  | .nop => 0x00
  | .clr => 0x01
  | .freq => 0x02
  | .tree => 0x03
  | .codes => 0x04
  | .lookup _ => 0x05
  | .pack => 0x06
  | .enc => 0x07
  | .parse => 0x08
  | .unpack => 0x09
  | .dec => 0x0A

/-- The SYM field of a command: LOOKUP's symbol, else 0 (R90, R93). -/
def operandOf : Instr → Byte
  | .nop => 0
  | .clr => 0
  | .freq => 0
  | .tree => 0
  | .codes => 0
  | .lookup s => s
  | .pack => 0
  | .enc => 0
  | .parse => 0
  | .unpack => 0
  | .dec => 0

/-- The command word: reserved bits 0, SYM, OPC (R90). -/
def encode (i : Instr) : Word := (0 : BitVec 16) ++ operandOf i ++ opcodeOf i

end Sys2Proof
end

