-- ==== Sys2Proof/Config.lean ====
section
/-! DEFINITION. What an instance of HUFFCORE fixes: its parameters (R6 of 00_scope.md), the layout of a
table entry (R34 to R36 of 10_state.md), and the values the spec leaves unspecified, each an opaque
constant of which nothing can be proved (93_implementation_defined.md U7 to U10, U13, U15, U16). -/

namespace Sys2Proof

/-- An entry of the frequency table FTAB (R34). -/
structure FtabEntry where
  sym  : Byte
  freq : Word
deriving DecidableEq, Repr, Inhabited

/-- An entry of the code table CTAB (R35); `CTAB[i].len` is the length of `code`. -/
structure CtabEntry where
  sym  : Byte
  code : Bits
deriving DecidableEq, Repr, Inhabited

/-- An entry of the node arena NODE (R36). -/
structure NodeEntry where
  key   : Bytes
  freq  : Word
  left  : NodeIndex
  right : NodeIndex
deriving DecidableEq, Repr, Inhabited

/-- The two capacities R6 leaves OPEN. Their types are exactly the bounds R6 gives:
`0 <= IN_MAX <= 2^24` and `0 <= OUT_MAX <= 2^32 - 1`. -/
structure Params where
  /-- IN_MAX, the bytes of IBUF. -/
  inMax  : Fin (2 ^ 24 + 1)
  /-- OUT_MAX, the bytes of OBUF. -/
  outMax : Word
deriving DecidableEq, Repr

namespace Config

/-- TBL_MAX, the entries of FTAB and of CTAB (R6). -/
def tblMax : Nat := 256
/-- CODE_MAX, the longest code a CTAB entry holds (R6). -/
def codeMax : Nat := 255
/-- NODE_MAX, the entries of NODE (R6). -/
def nodeMax : Nat := 511
/-- KEY_MAX, the longest key a NODE entry holds (R6, R36). -/
def keyMax : Nat := 256
/-- NONE, the node index that names no node (R6). -/
def none9 : NodeIndex := 0x1FF

/-- The capacities of the instance `State.reset` is. DESIGN CHOICE, log entry 1: the spec leaves both
OPEN; 4096 is what the largest vector of 95_test_vectors.md needs of each. -/
def params : Params := { inMax := 4096, outMax := 4096 }

/-- Free value, log entry 4: the byte IBUF holds at an index after reset number `epoch`, until the host
writes it (R41, R44, R269). -/
opaque ibufAtReset (epoch a : Nat) : Byte
/-- Free value, log entry 4: the byte OBUF holds at an index after reset number `epoch` (R42, R44). -/
opaque obufAtReset (epoch a : Nat) : Byte
/-- Free value, log entry 4: the content of an FTAB slot after reset number `epoch` (R44). -/
opaque ftabAtReset (epoch i : Nat) : FtabEntry
/-- Free value, log entry 4: the content of a CTAB slot after reset number `epoch` (R44). -/
opaque ctabAtReset (epoch i : Nat) : CtabEntry
/-- Free value, log entry 4: the content of a NODE slot after reset number `epoch` (R44). -/
opaque nodeAtReset (epoch i : Nat) : NodeEntry

/-- Free value, log entry 5: the value number `n` that a host read of an unspecified byte returns
(U9, U10, U15). -/
opaque freeByte (n : Nat) : Byte
/-- Free value, log entry 5: the value number `n` that a register read while BUSY = 1 returns (R262; U10). -/
opaque freeWord (n : Nat) : Word
/-- Free value, log entry 5: what a read of an FTAB slot that is not valid returns (R46; U7). -/
opaque freeFtab (n : Nat) : FtabEntry
/-- Free value, log entry 5: what a read of a CTAB slot that is not valid returns (R46; U7). -/
opaque freeCtab (n : Nat) : CtabEntry
/-- Free value, log entry 5: what a read of a NODE slot that is not valid returns (R46; U7). -/
opaque freeNode (n : Nat) : NodeEntry

/-- Free value, log entry 7: what `derive` returns for a key that is no leaf of the tree (U13). -/
opaque offTreeCode (k : Bytes) : Bits

end Config

end Sys2Proof
end

