-- ==== Sys2Proof/Machine/State.lean ====
section
/-! DEFINITION. The state of HUFFCORE as plain data (10_state.md), the reasons a step can stop, and the
state after reset (R44, R250). -/

namespace Sys2Proof.Machine

/-- The session phase (R26). The values 5, 6 and 7 of its field never occur. -/
inductive Phase where
  | empty
  | counted
  | treed
  | coded
  | parsed
deriving DecidableEq, Repr

/-- The error codes the core produces (R221). IO_FAILURE (6) is never raised (R228). -/
inductive ErrCode where
  | none
  | missingTable
  | badTable
  | capacity
  | illegalCmd
  | sequence
deriving DecidableEq, Repr

/-- Indexed data: (index, content) pairs in strictly rising index order. An index that is not listed has
not been written since reset. -/
abbrev Store (α : Type) := List (Nat × α)

/-- A byte buffer (R60): the bytes written since reset. -/
abbrev Memory := List Host.Cell

/-- One access of the host (R62, R63, R64), or a reset (R250). Register numbers and indices are numbers
of any size: those beyond the defined ones have their own rules (R45, R63; U9). -/
inductive HostAccess where
  | regRead (n : Nat)
  | regWrite (n : Nat) (v : Word)
  | ibufWrite (a : Nat) (b : Byte)
  | ibufRead (a : Nat)
  | obufRead (a : Nat)
  | ftabRead (i : Nat)
  | ctabRead (i : Nat)
  | nodeRead (i : Nat)
  | reset
deriving DecidableEq, Repr

/-- What a host read returned (R62, R63, R64). -/
inductive HostData where
  /-- No read has been made. -/
  | nothing
  | reg (v : Word)
  | byte (b : Byte)
  | ftab (sym : Byte) (freq : Word)
  | ctab (sym : Byte) (len : Nat) (code : Bits)
  | node (key : Bytes) (freq : Word) (left right : NodeIndex)
deriving DecidableEq, Repr

/-- The state. Registers first (R21), then the spaces (R60), then the instance's capacities (R6), then
the model's own fields (log entries 2, 4, 5, 6). -/
structure State where
  /-- STATUS.BUSY (R23). -/
  busy : Bool
  /-- STATUS.DONE (R23). -/
  done : Bool
  /-- STATUS.ERR (R23, R25). -/
  err : Bool
  /-- STATUS.NF (R23, R25). -/
  nf : Bool
  /-- STATUS.PAD (R23, R25). -/
  pad : Bool
  /-- STATUS.TRUNC (R23, R25). -/
  trunc : Bool
  /-- STATUS.PHASE (R26). -/
  phase : Phase
  /-- ERRCODE, register 2 (R24). -/
  errcode : ErrCode
  /-- IN_LEN, register 3 (R27). -/
  inLen : Word
  /-- OUT_LEN, register 4 (R28). -/
  outLen : Word
  /-- NSYM, register 5 (R29). -/
  nsym : Word
  /-- NENT, register 6 (R29). -/
  nent : Word
  /-- NNODE, register 7 (R29). -/
  nnode : Word
  /-- ROOT, register 8 bits 8:0 (R29). -/
  root : NodeIndex
  /-- BITLEN, register 9 (R30). -/
  bitLen : Word
  /-- PADBITS, register 10 (R30). -/
  padBits : Word
  /-- TRAILBITS, register 11 (R30). -/
  trailBits : Word
  /-- HDR_LEN, register 12 (R30). -/
  hdrLen : Word
  /-- RES.FOUND, register 13 bit 31 (R31). -/
  resFound : Bool
  /-- RES.SYM, register 13 bits 15:8 (R31). -/
  resSym : Byte
  /-- RES.LEN, register 13 bits 7:0 (R31). -/
  resLen : Byte
  /-- RES_CODE[0..7], registers 16 to 23 (R31). -/
  resCode : Vector Word 8
  /-- IBUF (R41). -/
  ibuf : Memory
  /-- OBUF (R42). -/
  obuf : Memory
  /-- The FTAB slots written since reset (R34). -/
  ftab : Store FtabEntry
  /-- The CTAB slots written since reset (R35). -/
  ctab : Store CtabEntry
  /-- The NODE slots written since reset (R36). -/
  node : Store NodeEntry
  /-- IN_MAX and OUT_MAX, constants of the instance (R6, R43). -/
  params : Params
  /-- The model's own: how many resets have happened (log entry 4). -/
  epoch : Nat
  /-- The model's own: how many unspecified read values have been given out (log entry 5). -/
  freeCount : Nat
  /-- The model's own: the host's accesses still to come, oldest first (log entry 2). -/
  hostQueue : List HostAccess
  /-- The model's own: what the host's latest read returned (log entry 6). -/
  lastRead : HostData
deriving DecidableEq, Repr

/-- The reasons the machine stops with a fault: none. "There is no fourth outcome: no hang, no stuck
state, no undefined result" (R220), and an error of R221 is a next state (R233). Log entry 9. -/
inductive Fault where
deriving DecidableEq, Repr

/-- The reasons an instruction has no meaning. -/
inductive Refusal where
  /-- Raised by an arm of `exec` whose instruction has no meaning yet; safe. No arm raises it. -/
  | notModelled (mnemonic : String)
deriving DecidableEq, Repr

/-- The state after a reset of an instance with capacities `p` (R44, R250): every register 0 but
ROOT = 0x1FF; nothing written in any buffer or table since. `epoch` numbers the reset; the three other
arguments are the model's own fields, which a reset of the block does not touch. -/
def State.afterReset (p : Params) (epoch freeCount : Nat) (queue : List HostAccess) (last : HostData) :
    State where
  busy := false
  done := false
  err := false
  nf := false
  pad := false
  trunc := false
  phase := .empty
  errcode := .none
  inLen := 0
  outLen := 0
  nsym := 0
  nent := 0
  nnode := 0
  root := Config.none9
  bitLen := 0
  padBits := 0
  trailBits := 0
  hdrLen := 0
  resFound := false
  resSym := 0
  resLen := 0
  resCode := #v[0, 0, 0, 0, 0, 0, 0, 0]
  ibuf := []
  obuf := []
  ftab := []
  ctab := []
  node := []
  params := p
  epoch := epoch
  freeCount := freeCount
  hostQueue := queue
  lastRead := last

/-- The machine right after reset (R44), for the capacities of log entry 1, with no host access made. -/
def State.reset : State := State.afterReset Config.params 0 0 [] .nothing

end Sys2Proof.Machine
end

