-- ==== Sys2Proof/Machine/Ops.lean ====
section
/-! DEFINITION. The named operations over State that the commands share: indexed stores, the byte and
table accesses (R13), raising an error and leaving a command (R15, R233), appending output (R16), and the
issue sequence around a command (R230, R231). -/

namespace Sys2Proof.Machine

/-! ### Indexed stores -/

/-- What index `a` holds, if it has been written. -/
def Store.read {α : Type} : Store α → Nat → Option α
  | [], _ => none
  | (k, v) :: m, a => if k = a then some v else Store.read m a

/-- Write `v` at index `a`, keeping the indices strictly rising. -/
def Store.write {α : Type} : Store α → Nat → α → Store α
  | [], a, v => [(a, v)]
  | (k, w) :: m, a, v =>
    if a < k then (a, v) :: (k, w) :: m
    else if a = k then (a, v) :: m
    else (k, w) :: Store.write m a v

/-- Write the entries of a list at the indices from `i` on. -/
def Store.writeFrom {α : Type} : Store α → Nat → List α → Store α
  | m, _, [] => m
  | m, i, v :: vs => Store.writeFrom (Store.write m i v) (i + 1) vs

/-- The canonical form: indices strictly rising. An index not listed reads as not written, which no
listed content equals, so equal stores are equal lists. -/
def Store.wf {α : Type} : Store α → Bool
  | [] => true
  | [_] => true
  | (k, _) :: (k', v) :: m => k < k' && Store.wf ((k', v) :: m)

/-- The canonical form of a byte buffer (log entry 8). -/
def Memory.wf (m : Memory) : Bool := Store.wf m

/-- Every written index lies below a capacity. -/
def Store.within {α : Type} (m : Store α) (cap : Nat) : Bool := m.all fun c => c.1 < cap

/-! ### One byte, one slot (R13) -/

/-- `IBUF[a]`; a byte not written since reset is a free value, the same at every read (R269; U8). -/
def State.ibufByte (s : State) (a : Nat) : Byte :=
  (Store.read s.ibuf a).getD (Config.ibufAtReset s.epoch a)

/-- `OBUF[a]` as the buffer holds it. -/
def State.obufByte (s : State) (a : Nat) : Byte :=
  (Store.read s.obuf a).getD (Config.obufAtReset s.epoch a)

/-- `FTAB[i]` as the slot holds it, valid or not (R34, R46). -/
def State.ftabSlot (s : State) (i : Nat) : FtabEntry :=
  (Store.read s.ftab i).getD (Config.ftabAtReset s.epoch i)

/-- `CTAB[i]` as the slot holds it, valid or not (R35, R46). -/
def State.ctabSlot (s : State) (i : Nat) : CtabEntry :=
  (Store.read s.ctab i).getD (Config.ctabAtReset s.epoch i)

/-- `NODE[i]` as the slot holds it, valid or not (R36, R46). -/
def State.nodeSlot (s : State) (i : Nat) : NodeEntry :=
  (Store.read s.node i).getD (Config.nodeAtReset s.epoch i)

/-! ### How a command's pseudocode ends (R14, R15, R220) -/

/-- The end of a stretch of pseudocode: its last line, with a value for what follows, or a `raise`, with
every state write made before it (R15, R234). -/
inductive Run (α : Type) where
  | ok (a : α) (s : State)
  | raised (e : ErrCode) (s : State)
deriving DecidableEq, Repr

/-- One stretch of pseudocode, then the next; a `raise` ends both (R14). -/
def Run.bind {α β : Type} : Run α → (α → State → Run β) → Run β
  | .ok a s, f => f a s
  | .raised e s, _ => .raised e s

/-- The state at the end, however it came. -/
def Run.state {α : Type} : Run α → State
  | .ok _ s => s
  | .raised _ s => s

/-! ### Issue, completion, error entry, return -/

/-- The first action of the issue sequence: `BUSY <- 1; DONE <- 0` (R230). -/
def beginCommand (s : State) : State := { s with busy := true, done := false }

/-- A command finishes: `BUSY <- 0; DONE <- 1` (R220, R230). -/
def finishCommand (s : State) : State := { s with busy := false, done := true }

/-- Error entry, exactly R233: ERRCODE keeps the first error (R24), ERR is set, the command ends.
Nothing is saved and control goes nowhere. -/
def raiseError (e : ErrCode) (s : State) : State :=
  finishCommand { s with errcode := if s.err then s.errcode else e, err := true }

/-- The end of a command: finish, or take the error. -/
def endCommand {α : Type} : Run α → State
  | .ok _ s => finishCommand s
  | .raised e s => raiseError e s

/-- Return from the error state, and the end of a session: the pseudocode of CLR (R132, R235). -/
def clearSession (s : State) : State :=
  { s with
    nsym := 0, nent := 0, nnode := 0, root := Config.none9,
    outLen := 0, bitLen := 0, padBits := 0, trailBits := 0, hdrLen := 0,
    resFound := false, resSym := 0, resLen := 0, resCode := #v[0, 0, 0, 0, 0, 0, 0, 0],
    err := false, errcode := .none,
    nf := false, pad := false, trunc := false,
    phase := .empty }

/-- `legal(c)`: the phases in which each command may run, the table of R231. -/
def legalIn : Instr → Phase → Bool
  | .nop, _ => true
  | .clr, _ => true
  | .freq, p => p == .empty
  | .tree, p => p == .counted
  | .codes, p => p == .treed
  | .lookup _, p => p == .coded || p == .parsed
  | .pack, p => p == .coded
  | .enc, p => p == .empty
  | .parse, p => p == .empty
  | .unpack, p => p == .parsed
  | .dec, p => p == .empty

/-- The issue sequence of NOP and CLR, which run in every phase and while ERR = 1 (R230, R232). -/
def issueAlways (body : State → State) (s : State) : State :=
  finishCommand (body (beginCommand s))

/-- The issue sequence of every other command (R230): refused while ERR = 1 (R236), SEQUENCE in a phase
where it is not legal (R227), else its pseudocode. -/
def issueChecked (legal : Phase → Bool) (body : State → Run Unit) (s : State) : State :=
  let b := beginCommand s
  if b.err then finishCommand b
  else if legal b.phase then endCommand (body b)
  else raiseError .sequence b

/-- The issue sequence of a word that is no command (R226, R230, R236). -/
def issueIllegal (s : State) : State :=
  let b := beginCommand s
  if b.err then finishCommand b else raiseError .illegalCmd b

/-! ### Output (R16) -/

/-- `Emit(b)`: CAPACITY when OBUF is full, else the byte goes to `OBUF[OUT_LEN]` (R16). -/
def emit (b : Byte) (s : State) : Run Unit :=
  if s.outLen = s.params.outMax then .raised .capacity s
  else .ok () { s with obuf := Store.write s.obuf s.outLen.toNat b, outLen := s.outLen + 1 }

/-- `EmitAll`: `Emit` of each byte in index order (R16). -/
def emitAll : Bytes → State → Run Unit
  | [], s => .ok () s
  | b :: bs, s => (emit b s).bind fun _ t => emitAll bs t

end Sys2Proof.Machine
end

