-- ==== Sys2Proof/Machine/Flags.lean ====
section
/-! DEFINITION. The flags and the words assembled from fields: STATUS (R23, R25), PHASE and error codes
(R26, R221), the padding count and its flag (R30, R113), the trailing-bits flag (R208), RES and RES_CODE
(R31) with NF (R25). -/

namespace Sys2Proof.Machine

/-- The value of PHASE (R26). -/
def Phase.code : Phase → Nat
  | .empty => 0
  | .counted => 1
  | .treed => 2
  | .coded => 3
  | .parsed => 4

/-- `code(E)` (R221). -/
def ErrCode.code : ErrCode → Nat
  | .none => 0
  | .missingTable => 1
  | .badTable => 2
  | .capacity => 3
  | .illegalCmd => 4
  | .sequence => 5

/-- The word with one flag at bit `n`. -/
def flagAt (n : Nat) (b : Bool) : Word := if b then 1 <<< n else 0

/-- STATUS as the host reads it while BUSY = 0 (R23): bits 7:6 and 31:11 are 0. -/
def State.statusWord (s : State) : Word :=
  flagAt 0 s.busy ||| flagAt 1 s.done ||| flagAt 2 s.err ||| flagAt 3 s.nf ||| flagAt 4 s.pad |||
    flagAt 5 s.trunc ||| BitVec.ofNat 32 s.phase.code <<< 8

/-- STATUS as the host reads it while BUSY = 1: BUSY = 1, DONE = 0, the other bits unspecified (R262). -/
def busyStatusWord (free : Word) : Word := free >>> 2 <<< 2 ||| 1

/-- ERRCODE as the host reads it (R24). -/
def State.errcodeWord (s : State) : Word := BitVec.ofNat 32 s.errcode.code

/-- `PADBITS = (8 - n mod 8) mod 8` (R30, R113). -/
def padCount (n : Nat) : Nat := (8 - n % 8) % 8

/-- PACK's last three writes: BITLEN, PADBITS, and `PAD <- (PADBITS != 0)` (R25, R181). -/
def setPackCounts (nbits : Nat) (s : State) : State :=
  { s with bitLen := BitVec.ofNat 32 nbits, padBits := BitVec.ofNat 32 (padCount nbits),
           pad := padCount nbits != 0 }

/-- UNPACK's last three writes: BITLEN, TRAILBITS, and `TRUNC <- (TRAILBITS != 0)` (R25, R204). -/
def setUnpackCounts (nbits trail : Nat) (s : State) : State :=
  { s with bitLen := BitVec.ofNat 32 nbits, trailBits := BitVec.ofNat 32 trail, trunc := trail != 0 }

/-- A bit string read as a number, first bit highest. -/
def bitsToNat (w : Bits) : Nat := w.foldl (fun n b => 2 * n + b.toNat) 0

/-- RES as the host reads it: FOUND in bit 31, SYM in 15:8, LEN in 7:0, all other bits 0 (R31). -/
def State.resWord (s : State) : Word :=
  flagAt 31 s.resFound ||| s.resSym.zeroExtend 32 <<< 8 ||| s.resLen.zeroExtend 32

/-- `RES_CODE[k]` for a code: code bit j is bit `31 - (j mod 32)` of word `j div 32`, bits past the
code's end are 0 (R31). -/
def codeWord (c : Bits) (k : Nat) : Word :=
  BitVec.ofNat 32 (bitsToNat ((c.drop (32 * k) ++ List.replicate 32 false).take 32))

/-- RES_CODE[0..7] for a code (R31). -/
def codeWords (c : Bits) : Vector Word 8 :=
  #v[codeWord c 0, codeWord c 1, codeWord c 2, codeWord c 3,
     codeWord c 4, codeWord c 5, codeWord c 6, codeWord c 7]

/-- LOOKUP's writes when no entry has the symbol: FOUND = 0, LEN = 0, no code, NF set (R173). -/
def setNotFound (sym : Byte) (s : State) : State :=
  { s with resFound := false, resSym := sym, resLen := 0, resCode := codeWords [], nf := true }

/-- LOOKUP's writes when the first entry with the symbol has code `c`; NF is not cleared (R173). -/
def setFound (sym : Byte) (c : Bits) (s : State) : State :=
  { s with resFound := true, resSym := sym, resLen := BitVec.ofNat 8 c.length, resCode := codeWords c }

end Sys2Proof.Machine
end

