-- ==== Sys2Proof/Machine/Operands.lean ====
section
/-! DEFINITION. What a command reads. A command word names no register and no address: apart from LOOKUP's
symbol (R93, read by the decoder) every input comes from state, IN_LEN, IBUF and the valid part of the
tables (R74, R93). -/

namespace Sys2Proof.Machine

/-- `IBUF[lo : hi]` (R9, R65). -/
def State.ibufRange (s : State) (lo hi : Nat) : Bytes :=
  (List.range' lo (hi - lo)).map s.ibufByte

/-- The input stream `IBUF[0 : IN_LEN]`, as it is when the command runs (R65, R74). -/
def State.input (s : State) : Bytes := s.ibufRange 0 s.inLen.toNat

/-- The payload of a parsed stream, `IBUF[HDR_LEN : IN_LEN]` (R204); empty when `IN_LEN <= HDR_LEN`. -/
def State.payload (s : State) : Bytes := s.ibufRange s.hdrLen.toNat s.inLen.toNat

/-- The output stream `OBUF[0 : OUT_LEN]` (R42, R65). -/
def State.output (s : State) : Bytes := (List.range s.outLen.toNat).map s.obufByte

/-- The valid entries `FTAB[0 : NSYM]` (R34). -/
def State.ftabValid (s : State) : List FtabEntry := (List.range s.nsym.toNat).map s.ftabSlot

/-- The valid entries `CTAB[0 : NENT]` (R35). -/
def State.ctabValid (s : State) : List CtabEntry := (List.range s.nent.toNat).map s.ctabSlot

/-- The valid entries `NODE[0 : NNODE]` (R36). -/
def State.nodeValid (s : State) : List NodeEntry := (List.range s.nnode.toNat).map s.nodeSlot

/-- The check every command that reads IBUF makes first: `IN_LEN > IN_MAX` (R27, R225). -/
def State.inputTooLong (s : State) : Bool := s.params.inMax.val < s.inLen.toNat

end Sys2Proof.Machine
end

