-- ==== Sys2Proof/Machine/Codes.lean ====
section
/-! DEFINITION. The code table generator and lookup: CODES, LOOKUP (43_codes.md). -/

namespace Sys2Proof.Machine

/-- `contains(h, n)`: n occurs in h as a contiguous substring (R9). -/
def contains : Bytes → Bytes → Bool
  | [], n => n.isEmpty
  | b :: h, n => n.isPrefixOf (b :: h) || contains h n

/-- `derive(k)` from a node on (R167): stop at the node whose whole key is `k`; else go left when the left
child's key contains `k`, and right otherwise, with no second test. The number bounds the descent; in a
tree of TREE it is never used up (R169), and past it the value is free (U13, log entry 7). -/
def deriveFrom (node : NodeIndex → NodeEntry) (k : Bytes) : Nat → NodeIndex → Bits
  | 0, _ => Config.offTreeCode k
  | n + 1, i =>
    if (node i).key = k then []
    else if contains (node (node i).left).key k then false :: deriveFrom node k n (node i).left
    else true :: deriveFrom node k n (node i).right

/-- `derive(k)` (R167). -/
def deriveCode (s : State) (k : Bytes) : Bits :=
  deriveFrom (fun i => s.nodeSlot i.toNat) k s.nnode.toNat s.root

/-- The code CODES gives a symbol: its path, or `"0"` when it is the only one (R166, R168). -/
def codeOfSymbol (s : State) (sym : Byte) : Bits :=
  if s.nsym = 1 then [false] else deriveCode s [sym]

/-- The code table CODES makes, in FTAB order (R166). -/
def codeTable (s : State) : List CtabEntry :=
  s.ftabValid.map fun e => { sym := e.sym, code := codeOfSymbol s e.sym }

/-- The pseudocode of CODES (R166). It cannot fail. -/
def codesBody (s : State) : Run Unit :=
  .ok () { s with ctab := Store.writeFrom s.ctab 0 (codeTable s), nent := s.nsym, phase := .coded }

/-- CODES (R166). -/
def execCodes (s : State) : Host.Outcome State Fault Refusal :=
  .next (issueChecked (legalIn .codes) codesBody s)

/-- `find_code(s)`: the code of the first entry with that symbol; `none` is NOTFOUND (R172). -/
def findCode (t : List CtabEntry) (sym : Byte) : Option Bits :=
  match t with
  | [] => none
  | e :: es => if e.sym = sym then some e.code else findCode es sym

/-- The pseudocode of LOOKUP (R173). Not finding the symbol is no error: it sets NF. -/
def lookupBody (sym : Byte) (s : State) : Run Unit :=
  match findCode s.ctabValid sym with
  | none => .ok () (setNotFound sym s)
  | some c => .ok () (setFound sym c s)

/-- LOOKUP (R173). -/
def execLookup (sym : Byte) (s : State) : Host.Outcome State Fault Refusal :=
  .next (issueChecked (legalIn (.lookup sym)) (lookupBody sym) s)

end Sys2Proof.Machine
end

