-- ==== Sys2Proof/Machine/Control.lean ====
section
/-! DEFINITION. NOP and CLR (40_control.md). -/

namespace Sys2Proof.Machine

/-- NOP (R131): nothing but the completion of the command. -/
def execNop (s : State) : Host.Outcome State Fault Refusal := .next (issueAlways id s)

/-- CLR (R132, R133): the session ends; IN_LEN and the bytes of IBUF and OBUF are kept, the table slots
are not wiped (R46). -/
def execClr (s : State) : Host.Outcome State Fault Refusal := .next (issueAlways clearSession s)

end Sys2Proof.Machine
end

