-- ==== Sys2Proof/Machine/Stream.lean ====
section
/-! DEFINITION. The persisted stream format (30_encoding.md): symbol tokens, code text, entry lines, the
header, lines, and the bit packing of the payload. Pure functions of byte strings and bit strings. -/

namespace Sys2Proof.Machine

/-- The line terminator (R103, R104). -/
def byteNL : Byte := 0x0A
/-- The carriage return (R104). -/
def byteCR : Byte := 0x0D
/-- The space (R104). -/
def byteSP : Byte := 0x20

/-- `"*TBL*"` (R101, R104). -/
def marker : Bytes := [0x2A, 0x54, 0x42, 0x4C, 0x2A]

/-- The token `"CR"`, which stands for the newline 0x0A (R105: the labels are swapped on purpose). -/
def tokenCR : Bytes := [0x43, 0x52]
/-- The token `"LF"`, which stands for the carriage return 0x0D (R105). -/
def tokenLF : Bytes := [0x4C, 0x46]
/-- The token `"SP"`, which stands for the space 0x20 (R105). -/
def tokenSP : Bytes := [0x53, 0x50]

/-- `tok(s)` (R106). -/
def tok (s : Byte) : Bytes :=
  if s = byteNL then tokenCR
  else if s = byteCR then tokenLF
  else if s = byteSP then tokenSP
  else [s]

/-- `text(c)`: a code as the characters `0` and `1` (R108). -/
def codeText (c : Bits) : Bytes := c.map fun b => if b then 0x31 else 0x30

/-- An entry line without its terminator: token, one space, code text (R102). -/
def entryLine (e : CtabEntry) : Bytes := tok e.sym ++ byteSP :: codeText e.code

/-- `header(T)` (R109). -/
def header (t : List CtabEntry) : Bytes :=
  marker ++ byteNL :: (t.flatMap fun e => entryLine e ++ [byteNL]) ++ marker ++ [byteNL]

/-- The bits a code text spells, if every byte of it is `0` or `1`. -/
def readCodeText : Bytes → Option Bits
  | [] => some []
  | b :: bs =>
    if b = 0x30 then (readCodeText bs).map (false :: ·)
    else if b = 0x31 then (readCodeText bs).map (true :: ·)
    else none

/-- The token part of `parse_entry`: the symbol and the code text of a line (R107, its first five lines). -/
def splitEntry : Bytes → Option (Byte × Bytes)
  | a :: b :: c :: t =>
    if [a, b] = tokenCR ∧ c = byteSP then some (byteNL, t)
    else if [a, b] = tokenLF ∧ c = byteSP then some (byteCR, t)
    else if [a, b] = tokenSP ∧ c = byteSP then some (byteSP, t)
    else if b = byteSP then some (a, c :: t)
    else none
  | [a, b] => if b = byteSP then some (a, []) else none
  | _ => none

/-- `parse_entry(l)` (R107); `none` is BAD. -/
def parseEntry (l : Bytes) : Option CtabEntry :=
  match splitEntry l with
  | none => none
  | some (sym, t) =>
    if t.length = 0 ∨ Config.codeMax < t.length then none
    else (readCodeText t).map fun c => { sym := sym, code := c }

/-- `read_line()` on the bytes from the read position on (R198): the line without its terminator and the
bytes after it; `none` is NOLINE. -/
def readLine : Bytes → Option (Bytes × Bytes)
  | [] => none
  | b :: bs =>
    if b = byteNL then some ([], bs)
    else (readLine bs).map fun (l, r) => (b :: l, r)

/-- The lines that successive calls of `read_line()` return until NOLINE: the stream's terminated lines. -/
def terminatedLines : Bytes → List Bytes
  | [] => []
  | b :: bs =>
    if b = byteNL then [] :: terminatedLines bs
    else
      match terminatedLines bs with
      | [] => []
      | l :: ls => (b :: l) :: ls

/-- `bits_of_byte(b)`: bit 7 first, bit 0 last (R66, R112). -/
def bitsOfByte (b : Byte) : Bits :=
  [b.getLsbD 7, b.getLsbD 6, b.getLsbD 5, b.getLsbD 4, b.getLsbD 3, b.getLsbD 2, b.getLsbD 1, b.getLsbD 0]

/-- `byte_of_bits(w)` for an 8-bit string (R112). -/
def byteOfBits (w : Bits) : Byte := BitVec.ofNat 8 (bitsToNat w)

/-- `unpack(p)` (R112). -/
def unpackBytes (p : Bytes) : Bits := p.flatMap bitsOfByte

/-- `pack(w)` for a bit string whose length is a multiple of 8 (R112). -/
def packBits : Bits → Bytes
  | a :: b :: c :: d :: e :: f :: g :: h :: w => byteOfBits [a, b, c, d, e, f, g, h] :: packBits w
  | _ => []

/-- The zero bits PACK appends (R113). -/
def zeroBits (n : Nat) : Bits := List.replicate n false

end Sys2Proof.Machine
end

