-- ==== Sys2Proof/Machine/Decoding.lean ====
section
/-! DEFINITION. The code table parser, the bit-stream decoder and the composite decode: PARSE, UNPACK, DEC
(45_decode.md). -/

namespace Sys2Proof.Machine

/-- The parser's loop after the start marker (R196): `pos` is the read position, the list the lines still
to come, its end NOLINE (R198). It answers the position after the end marker. -/
def parseTable : List Bytes → Nat → State → Run Nat
  | [], _, s => .raised .badTable s
  | l :: ls, pos, s =>
    if l = marker then .ok (pos + l.length + 1) s
    else
      match parseEntry l with
      | none => .raised .badTable s
      | some e =>
        if s.nent.toNat = Config.tblMax then .raised .badTable s
        else
          parseTable ls (pos + l.length + 1)
            { s with ctab := Store.write s.ctab s.nent.toNat e, nent := s.nent + 1 }

/-- The pseudocode of PARSE (R196, R197). -/
def parseBody (s : State) : Run Unit :=
  if s.inputTooLong then .raised .capacity s
  else
    let s0 := { s with nent := 0, hdrLen := 0 }
    match terminatedLines s.input with
    | [] => .raised .missingTable s0
    | l :: ls =>
      if l = marker then
        (parseTable ls (l.length + 1) s0).bind fun pos t =>
          .ok () { t with hdrLen := BitVec.ofNat 32 pos, phase := .parsed }
      else .raised .missingTable s0

/-- PARSE (R196). -/
def execParse (s : State) : Host.Outcome State Fault Refusal :=
  .next (issueChecked (legalIn .parse) parseBody s)

/-- The symbol of the least entry whose whole code is the candidate (R201, R205). -/
def matchCode (t : List CtabEntry) (cand : Bits) : Option Byte :=
  match t with
  | [] => none
  | e :: es => if e.code = cand then some e.sym else matchCode es cand

/-- The decoder's scan (R204, R205): after each bit the candidate is compared with every code; on a match
its symbol is emitted and the candidate is empty again. It answers the candidate left at the end. -/
def scanBits (t : List CtabEntry) : Bits → Bits → State → Run Bits
  | [], cand, s => .ok cand s
  | b :: bs, cand, s =>
    match matchCode t (cand ++ [b]) with
    | some sym => (emit sym s).bind fun _ u => scanBits t bs [] u
    | none => scanBits t bs (cand ++ [b]) s

/-- The first writes of UNPACK's output step (R204). -/
def beginUnpack (s : State) : State :=
  { s with outLen := 0, bitLen := 0, trailBits := 0, trunc := false }

/-- The pseudocode of UNPACK (R204). -/
def unpackBody (s : State) : Run Unit :=
  if s.inputTooLong then .raised .capacity s
  else
    let bits := unpackBytes s.payload
    (scanBits s.ctabValid bits [] (beginUnpack s)).bind fun cand t =>
      .ok () (setUnpackCounts bits.length cand.length t)

/-- UNPACK (R204). -/
def execUnpack (s : State) : Host.Outcome State Fault Refusal :=
  .next (issueChecked (legalIn .unpack) unpackBody s)

/-- The pseudocode of DEC: PARSE, then UNPACK without the phase check between them (R210). -/
def decBody (s : State) : Run Unit := (parseBody s).bind fun _ t => unpackBody t

/-- DEC (R210). -/
def execDec (s : State) : Host.Outcome State Fault Refusal :=
  .next (issueChecked (legalIn .dec) decBody s)

end Sys2Proof.Machine
end

