-- ==== Sys2Proof/Machine/Frequency.lean ====
section
/-! DEFINITION. The frequency counter: FREQ (41_frequency.md), with the key order and the priority order
of R11 and R12, which the tree builder shares. -/

namespace Sys2Proof.Machine

/-- `keylt(a, b)`: a sorts before b in ascending string order, bytes unsigned (R11). -/
def keylt : Bytes → Bytes → Bool
  | _, [] => false
  | [], _ :: _ => true
  | a :: as, b :: bs => if a = b then keylt as bs else a < b

/-- `before(x, y)` on (key, freq) pairs: the larger frequency first, and among equal frequencies the larger
key (R12). -/
def before (x y : Bytes × Word) : Bool :=
  x.2 > y.2 || (x.2 == y.2 && keylt y.1 x.1)

/-- Put one element into a sequence that is in order. -/
def insertInOrder {α : Type} (lt : α → α → Bool) (x : α) : List α → List α
  | [] => [x]
  | y :: ys => if lt x y then x :: y :: ys else y :: insertInOrder lt x ys

/-- The entries of a list in the order `lt` (R144, R154: with pairwise different keys the arrangement is
unique, whatever algorithm finds it). -/
def arrange {α : Type} (lt : α → α → Bool) (l : List α) : List α := l.foldr (insertInOrder lt) []

/-- The key and frequency of an FTAB entry: its key is its one byte (R34). -/
def FtabEntry.rank (e : FtabEntry) : Bytes × Word := ([e.sym], e.freq)

/-- `sort_priority(L)` (R144). -/
def sortPriority (l : List FtabEntry) : List FtabEntry :=
  arrange (fun x y => before (FtabEntry.rank x) (FtabEntry.rank y)) l

/-- Count one byte: add 1 to its entry, or append a new entry (R141, R142). -/
def countByte (b : Byte) : List FtabEntry → List FtabEntry
  | [] => [{ sym := b, freq := 1 }]
  | e :: es => if e.sym = b then { e with freq := e.freq + 1 } :: es else e :: countByte b es

/-- Count the bytes of a stream in first-seen order (R141, R142). -/
def countBytes (x : Bytes) : List FtabEntry := x.foldl (fun l b => countByte b l) []

/-- The frequency table of a stream (R141). -/
def freqTable (x : Bytes) : List FtabEntry := sortPriority (countBytes x)

/-- The pseudocode of FREQ (R141). -/
def freqBody (s : State) : Run Unit :=
  if s.inputTooLong then .raised .capacity s
  else
    let t := freqTable s.input
    .ok () { s with ftab := Store.writeFrom s.ftab 0 t, nsym := BitVec.ofNat 32 t.length, phase := .counted }

/-- FREQ (R141). -/
def execFreq (s : State) : Host.Outcome State Fault Refusal :=
  .next (issueChecked (legalIn .freq) freqBody s)

end Sys2Proof.Machine
end

