-- ==== Sys2Proof/Machine/Tree.lean ====
section
/-! DEFINITION. The Huffman tree builder: TREE (42_tree.md). -/

namespace Sys2Proof.Machine

/-- A leaf: the one-byte key and the count of an FTAB entry, no children (R152). -/
def leafOf (e : FtabEntry) : NodeEntry :=
  { key := [e.sym], freq := e.freq, left := Config.none9, right := Config.none9 }

/-- An element of the working list WL (R38): a node index with the node it names. -/
abbrev WorkItem := NodeEntry × Nat

/-- The priority order on the nodes that WL names (R154). -/
def itemBefore (x y : WorkItem) : Bool := before (x.1.key, x.1.freq) (y.1.key, y.1.freq)

/-- The parent of `bottom` (left) and `top` (right) (R153). -/
def parentOf (bottom top : WorkItem) : NodeEntry :=
  { key := bottom.1.key ++ top.1.key
    freq := bottom.1.freq + top.1.freq
    left := BitVec.ofNat 9 bottom.2
    right := BitVec.ofNat 9 top.2 }

/-- The merge loop (R151, R153): while WL has more than one element, arrange it, take the last two, `top`
last and `bottom` before it, and append their parent, at the next free index. The first argument bounds
the number of merges; WL shortens by one at each (R157), so its length suffices. -/
def mergeLoop : Nat → List NodeEntry → List WorkItem → List NodeEntry × List WorkItem
  | 0, nodes, wl => (nodes, wl)
  | n + 1, nodes, wl =>
    match (arrange itemBefore wl).reverse with
    | top :: bottom :: rest =>
      mergeLoop n (nodes ++ [parentOf bottom top])
        (rest.reverse ++ [(parentOf bottom top, nodes.length)])
    | _ => (nodes, wl)

/-- The nodes TREE makes of a frequency table, in index order, and ROOT (R151, R152, R157). -/
def buildTree (f : List FtabEntry) : List NodeEntry × NodeIndex :=
  let leaves := f.map leafOf
  let r := mergeLoop leaves.length leaves leaves.zipIdx
  (r.1, match r.2 with
    | [x] => BitVec.ofNat 9 x.2
    | _ => Config.none9)

/-- The pseudocode of TREE (R151). It cannot fail. -/
def treeBody (s : State) : Run Unit :=
  let t := buildTree s.ftabValid
  .ok () { s with node := Store.writeFrom s.node 0 t.1, nnode := BitVec.ofNat 32 t.1.length, root := t.2,
                  phase := .treed }

/-- TREE (R151). -/
def execTree (s : State) : Host.Outcome State Fault Refusal :=
  .next (issueChecked (legalIn .tree) treeBody s)

end Sys2Proof.Machine
end

