-- ==== Sys2Proof/Machine/Encode.lean ====
section
/-! DEFINITION. The stream packer and the composite encode: PACK, ENC (44_encode.md). -/

namespace Sys2Proof.Machine

/-- The packer's hidden state (R40): the bits that do not yet fill a byte, and the count of code bits. -/
structure Packer where
  acc   : Bits
  nbits : Nat
deriving DecidableEq, Repr

/-- Append the bits of one code; each time eight have gathered, emit their byte (R181, inner loop). -/
def pushBits : Bits → Packer → State → Run Packer
  | [], p, s => .ok p s
  | b :: bs, p, s =>
    if (p.acc ++ [b]).length = 8 then
      (emit (byteOfBits (p.acc ++ [b])) s).bind fun _ t =>
        pushBits bs { acc := [], nbits := p.nbits + 1 } t
    else pushBits bs { acc := p.acc ++ [b], nbits := p.nbits + 1 } s

/-- Encode the input bytes in order; a byte with no entry sets NF and gives no bits (R181, R183). -/
def pushSymbols (t : List CtabEntry) : Bytes → Packer → State → Run Packer
  | [], p, s => .ok p s
  | x :: xs, p, s =>
    match findCode t x with
    | none => pushSymbols t xs p { s with nf := true }
    | some c => (pushBits c p s).bind fun q u => pushSymbols t xs q u

/-- Emit the last, partly filled byte, padded with zero bits (R113, R184). -/
def flushBits (p : Packer) (s : State) : Run Unit :=
  if p.acc.length = 0 then .ok () s
  else emit (byteOfBits (p.acc ++ zeroBits (padCount p.nbits))) s

/-- The first writes of PACK's output step (R181). -/
def beginPack (s : State) : State :=
  { s with outLen := 0, hdrLen := 0, bitLen := 0, padBits := 0, pad := false }

/-- The pseudocode of PACK (R181): header, then payload; BITLEN, PADBITS and PAD only after the last
`Emit` (90_conflicts.md C13). -/
def packBody (s : State) : Run Unit :=
  if s.inputTooLong then .raised .capacity s
  else
    (emitAll (header s.ctabValid) (beginPack s)).bind fun _ s1 =>
    (pushSymbols s.ctabValid s.input { acc := [], nbits := 0 } { s1 with hdrLen := s1.outLen }).bind fun p s2 =>
    (flushBits p s2).bind fun _ s3 => .ok () (setPackCounts p.nbits s3)

/-- PACK (R181). -/
def execPack (s : State) : Host.Outcome State Fault Refusal :=
  .next (issueChecked (legalIn .pack) packBody s)

/-- The pseudocode of ENC: FREQ, TREE, CODES, PACK without the phase checks between them (R188). -/
def encBody (s : State) : Run Unit :=
  (freqBody s).bind fun _ s1 => (treeBody s1).bind fun _ s2 => (codesBody s2).bind fun _ s3 => packBody s3

/-- ENC (R188). -/
def execEnc (s : State) : Host.Outcome State Fault Refusal :=
  .next (issueChecked (legalIn .enc) encBody s)

end Sys2Proof.Machine
end

