-- ==== Sys2Proof/Machine/Dispatch.lean ====
section
/-! DEFINITION. One arm per command (R92): issuing it, that is the whole of `issue(w)` of R230 for the word
that decodes to it. -/

namespace Sys2Proof.Machine

def exec (i : Instr) (s : State) : Host.Outcome State Fault Refusal :=
  match i with
  | .nop => Sys2Proof.Machine.execNop s
  | .clr => Sys2Proof.Machine.execClr s
  | .freq => Sys2Proof.Machine.execFreq s
  | .tree => Sys2Proof.Machine.execTree s
  | .codes => Sys2Proof.Machine.execCodes s
  | .lookup sym => Sys2Proof.Machine.execLookup sym s
  | .pack => Sys2Proof.Machine.execPack s
  | .enc => Sys2Proof.Machine.execEnc s
  | .parse => Sys2Proof.Machine.execParse s
  | .unpack => Sys2Proof.Machine.execUnpack s
  | .dec => Sys2Proof.Machine.execDec s

end Sys2Proof.Machine
end

