-- ==== Sys2Proof/Machine/HostAccess.lean ====
section
/-! DEFINITION. The host's access primitives (R62, R63, R64 of 20_memory.md), all but the write of CMD:
what each returns and changes, also while BUSY = 1 (R262), and the reset input (R250). -/

namespace Sys2Proof.Machine

/-- The value of register `n` while BUSY = 0 (R21, R22, R45): CMD and every reserved number read 0. -/
def State.regValue (s : State) (n : Nat) : Word :=
  match n with
  | 1 => s.statusWord
  | 2 => s.errcodeWord
  | 3 => s.inLen
  | 4 => s.outLen
  | 5 => s.nsym
  | 6 => s.nent
  | 7 => s.nnode
  | 8 => s.root.zeroExtend 32
  | 9 => s.bitLen
  | 10 => s.padBits
  | 11 => s.trailBits
  | 12 => s.hdrLen
  | 13 => s.resWord
  | 16 => s.resCode[0]
  | 17 => s.resCode[1]
  | 18 => s.resCode[2]
  | 19 => s.resCode[3]
  | 20 => s.resCode[4]
  | 21 => s.resCode[5]
  | 22 => s.resCode[6]
  | 23 => s.resCode[7]
  | _ => 0

/-- A read returns a value the spec gives. -/
def readsAs (d : HostData) (s : State) : State := { s with lastRead := d }

/-- A read returns a free value, a new one at each such read (log entry 5). -/
def readsFree (d : HostData) (s : State) : State := { s with lastRead := d, freeCount := s.freeCount + 1 }

/-- `RegRead(n)` (R62); while BUSY = 1, STATUS shows BUSY = 1 and DONE = 0 and the rest is unspecified (R262). -/
def hostRegRead (n : Nat) (s : State) : State :=
  if s.busy then
    if n = 1 then readsFree (.reg (busyStatusWord (Config.freeWord s.freeCount))) s
    else readsFree (.reg (Config.freeWord s.freeCount)) s
  else readsAs (.reg (s.regValue n)) s

/-- `RegWrite(n, v)` for n other than CMD (R62): only IN_LEN is writable (R27, R45); ignored while
BUSY = 1 (R262). -/
def hostRegWrite (n : Nat) (v : Word) (s : State) : State :=
  if s.busy then s else if n = 3 then { s with inLen := v } else s

/-- `IbufWrite(a, b)` (R63): ignored at or beyond IN_MAX (U9) and while BUSY = 1 (R262). -/
def hostIbufWrite (a : Nat) (b : Byte) (s : State) : State :=
  if s.busy then s
  else if a < s.params.inMax.val then { s with ibuf := Store.write s.ibuf a b }
  else s

/-- `IbufRead(a)` (R63): unspecified at or beyond IN_MAX (U9) and while BUSY = 1 (R262). -/
def hostIbufRead (a : Nat) (s : State) : State :=
  if s.busy = false ∧ a < s.params.inMax.val then readsAs (.byte (s.ibufByte a)) s
  else readsFree (.byte (Config.freeByte s.freeCount)) s

/-- `ObufRead(a)` (R63): unspecified at or beyond OUT_LEN (R42; U15), hence at or beyond OUT_MAX (U9), and
while BUSY = 1 (R262). -/
def hostObufRead (a : Nat) (s : State) : State :=
  if s.busy = false ∧ a < s.params.outMax.toNat ∧ a < s.outLen.toNat then readsAs (.byte (s.obufByte a)) s
  else readsFree (.byte (Config.freeByte s.freeCount)) s

/-- The data an FTAB read returns (R64). -/
def ftabData (e : FtabEntry) : HostData := .ftab e.sym e.freq

/-- The data a CTAB read returns (R64). -/
def ctabData (e : CtabEntry) : HostData := .ctab e.sym e.code.length e.code

/-- The data a NODE read returns (R64). -/
def nodeData (e : NodeEntry) : HostData := .node e.key e.freq e.left e.right

/-- `FtabRead(i)` (R64): unspecified for i at or beyond NSYM (R46; U7). -/
def hostFtabRead (i : Nat) (s : State) : State :=
  if s.busy = false ∧ i < s.nsym.toNat then readsAs (ftabData (s.ftabSlot i)) s
  else readsFree (ftabData (Config.freeFtab s.freeCount)) s

/-- `CtabRead(i)` (R64): unspecified for i at or beyond NENT (R46; U7). -/
def hostCtabRead (i : Nat) (s : State) : State :=
  if s.busy = false ∧ i < s.nent.toNat then readsAs (ctabData (s.ctabSlot i)) s
  else readsFree (ctabData (Config.freeCtab s.freeCount)) s

/-- `NodeRead(i)` (R64): unspecified for i at or beyond NNODE (R46; U7). -/
def hostNodeRead (i : Nat) (s : State) : State :=
  if s.busy = false ∧ i < s.nnode.toNat then readsAs (nodeData (s.nodeSlot i)) s
  else readsFree (nodeData (Config.freeNode s.freeCount)) s

/-- The reset input (R250, R251): the state after reset, with unspecified memory content of its own. -/
def hostReset (s : State) : State :=
  State.afterReset s.params (s.epoch + 1) s.freeCount s.hostQueue s.lastRead

end Sys2Proof.Machine
end

