-- ==== Sys2Proof/Machine/Issue.lean ====
section
/-! DEFINITION. The write of CMD (R22), which issues a command, and the choice of the access primitive. -/

namespace Sys2Proof.Machine

/-- `issue(w)` (R230): the command the word decodes to, or the ILLEGAL_CMD error (R226). -/
def issueWord (w : Word) (s : State) : Host.Outcome State Fault Refusal :=
  match decode w with
  | .command i => exec i s
  | .illegal _ => .next (issueIllegal s)

/-- A host write of CMD: issues the word while BUSY = 0 (R22), is ignored while BUSY = 1 (R262). -/
def hostCmdWrite (w : Word) (s : State) : Host.Outcome State Fault Refusal :=
  if s.busy then .next s else issueWord w s

/-- One access of the host (R62, R63, R64) or a reset (R250). -/
def hostStep (a : HostAccess) (s : State) : Host.Outcome State Fault Refusal :=
  match a with
  | .regRead n => .next (hostRegRead n s)
  | .regWrite n v => if n = 0 then hostCmdWrite v s else .next (hostRegWrite n v s)
  | .ibufWrite a b => .next (hostIbufWrite a b s)
  | .ibufRead a => .next (hostIbufRead a s)
  | .obufRead a => .next (hostObufRead a s)
  | .ftabRead i => .next (hostFtabRead i s)
  | .ctabRead i => .next (hostCtabRead i s)
  | .nodeRead i => .next (hostNodeRead i s)
  | .reset => .next (hostReset s)

/-- Put the write of a command word before the host's other accesses, and let the block be idle, so that
the next step issues it (log entry 2). -/
def placeCommand (w : Word) (s : State) : State :=
  { s with hostQueue := .regWrite 0 w :: s.hostQueue, busy := false }

end Sys2Proof.Machine
end

