-- ==== Sys2Proof/Machine/Step.lean ====
section
/-! DEFINITION. One step: the host's oldest access (log entry 2). With none left the core is idle and holds
its state (R244, R250). -/

namespace Sys2Proof.Machine

/-- One step. A command is one atomic step of the core (R71, R230). -/
def step (s : State) : Host.Outcome State Fault Refusal :=
  match s.hostQueue with
  | [] => .next s
  | a :: rest => hostStep a { s with hostQueue := rest }

/-- The state whose next step issues the given command word: the low `nbits` bits of `w`, the others 0. -/
def State.withFetchWord (s : State) (nbits w : Nat) : State :=
  placeCommand (BitVec.ofNat 32 (w % 2 ^ nbits)) s

end Sys2Proof.Machine
end

