-- ==== Sys2Proof/Safety.lean ====
section
/-! DEFINITION. What counts as a safe run: the invariants of a state that a host can reach, and the
vocabulary of the statements (prefix-free tables, the tree of a frequency table, the stream of a text). -/

namespace Sys2Proof.Machine

/-! ### When a command runs -/

/-- No error is pending and the session is in phase `p`: what the issue sequence checks (R230, R231, R236). -/
def State.ready (s : State) (p : Phase) : Prop := s.err = false ∧ s.phase = p

/-- `IN_LEN <= IN_MAX` (R27). -/
def State.inputFits (s : State) : Prop := s.inLen.toNat ≤ s.params.inMax.val

/-! ### Streams and tables -/

/-- A table a header can carry: at most 256 entries, each with a code of 1 to 255 bits (R110, R202). -/
def TableFits (t : List CtabEntry) : Prop :=
  t.length ≤ 256 ∧ ∀ e ∈ t, 1 ≤ e.code.length ∧ e.code.length ≤ 255

/-- A bit string cut as the decoder cuts it (R205): the codes of `picks` one after the other, each the
first match from an empty candidate on, then `tail`, no prefix of which is a code. -/
structure Cut (t : List CtabEntry) (bits : Bits) (picks : List CtabEntry) (tail : Bits) : Prop where
  joins : bits = picks.flatMap (·.code) ++ tail
  /-- A pick is the entry of least index with its code, and its code is not empty. -/
  first : ∀ e ∈ picks, e.code ≠ [] ∧
    ∃ l r, t = l ++ e :: r ∧ ∀ x ∈ l, x.code ≠ e.code
  /-- No shorter candidate matched before it did. -/
  shortest : ∀ e ∈ picks, ∀ p, p ≠ [] → p <+: e.code → p ≠ e.code → ∀ x ∈ t, x.code ≠ p
  /-- No candidate grown from the tail matched. -/
  unmatched : ∀ p, p ≠ [] → p <+: tail → ∀ x ∈ t, x.code ≠ p

/-- The code bits of a text: the codes of its bytes in order; a byte with no entry gives none (R183, R184). -/
def encodedBits (t : List CtabEntry) (x : Bytes) : Bits := x.flatMap fun b => (findCode t b).getD []

/-- Some byte of the text has no entry (R183). -/
def hasUnknown (t : List CtabEntry) (x : Bytes) : Bool := x.any fun b => (findCode t b).isNone

/-- The payload of a text: its code bits, zero-padded to whole bytes (R113, R184). -/
def encodedPayload (t : List CtabEntry) (x : Bytes) : Bytes :=
  packBits (encodedBits t x ++ zeroBits (padCount (encodedBits t x).length))

/-- The encoded stream of a text (R114, R185). -/
def encodedStream (t : List CtabEntry) (x : Bytes) : Bytes := header t ++ encodedPayload t x

/-- No code is a prefix of another entry's (R18, R170). -/
def PrefixFree (t : List CtabEntry) : Prop :=
  t.Pairwise fun x y => ¬ x.code <+: y.code ∧ ¬ y.code <+: x.code

/-- Every code has 1 to 255 bits (R35). -/
def CodesBounded (t : List CtabEntry) : Prop := ∀ e ∈ t, 1 ≤ e.code.length ∧ e.code.length ≤ 255

/-- Priority-sorted (R12, R34). -/
def PrioritySorted (f : List FtabEntry) : Prop :=
  f.Pairwise fun x y => before (FtabEntry.rank x) (FtabEntry.rank y) = true

/-- The invariants of a valid frequency table (R34, R143): different symbols, priority-sorted, counts at
least 1 that sum to an input length. -/
def FtabOk (f : List FtabEntry) : Prop :=
  (f.map (·.sym)).Nodup ∧ PrioritySorted f ∧ (∀ e ∈ f, e.freq ≠ 0) ∧
    (f.map (·.freq.toNat)).sum ≤ 2 ^ 24

/-- What an internal node is (R36, R37 (a) (c)): two children at smaller indices, whose keys it
concatenates and whose frequencies it adds. -/
def IsParent (nodes : List NodeEntry) (p : Nat) (e : NodeEntry) : Prop :=
  ∃ l r, nodes[e.left.toNat]? = some l ∧ nodes[e.right.toNat]? = some r ∧
    e.left.toNat < p ∧ e.right.toNat < p ∧
    e.key = l.key ++ r.key ∧ e.freq.toNat = l.freq.toNat + r.freq.toNat

/-- The tree invariants R37 for the tree of a frequency table, with the counts of R29 and R157. -/
structure TreeOk (f : List FtabEntry) (nodes : List NodeEntry) (root : NodeIndex) : Prop where
  /-- R160: no symbol, no node. -/
  noSymbol : f = [] → nodes = [] ∧ root = Config.none9
  /-- R157: `NNODE = 2n - 1`. -/
  count : f ≠ [] → nodes.length = 2 * f.length - 1
  /-- R157: `ROOT = NNODE - 1`. -/
  rootIndex : f ≠ [] → root.toNat = nodes.length - 1
  /-- R37 (d): the leaves are exactly the first NSYM nodes. -/
  leaves : nodes.take f.length = f.map leafOf
  /-- R37 (a) and (c): every other node has two children, at smaller indices. -/
  parents : ∀ p e, f.length ≤ p → nodes[p]? = some e → IsParent nodes p e
  /-- R37 (b): every node but ROOT is the child of exactly one node, ROOT of none. -/
  ownership : ((nodes.drop f.length).flatMap fun e => [e.left.toNat, e.right.toNat]).Perm
    (List.range (nodes.length - 1))
  /-- R37 (e): no byte occurs twice in a key. -/
  keys : ∀ e ∈ nodes, e.key.Nodup
  /-- R36: a key has 1 to KEY_MAX bytes. -/
  keyLengths : ∀ e ∈ nodes, 1 ≤ e.key.length ∧ e.key.length ≤ Config.keyMax
  /-- R37 (f): the root's frequency is the sum of the leaves'. -/
  total : ∀ e, nodes[root.toNat]? = some e → e.freq.toNat = (f.map (·.freq.toNat)).sum

/-- The priority order on nodes (R12, R154). -/
def nodeBefore (x y : NodeEntry) : Prop := before (x.key, x.freq) (y.key, y.freq) = true

/-- Node `q` has not been merged before node `p` is made: it is in WL at that moment (R151, R155). -/
def InWorkingList (n : Nat) (nodes : List NodeEntry) (p q : Nat) : Prop :=
  q < p ∧ ∀ p' e', n ≤ p' → p' < p → nodes[p']? = some e' → e'.left.toNat ≠ q ∧ e'.right.toNat ≠ q

/-- Every merge takes the two nodes of lowest priority of the working list: `top`, the right child, is the
lowest of all, `bottom`, the left child, the lowest without it (R153, R155). -/
def MergesLowest (n : Nat) (nodes : List NodeEntry) : Prop :=
  ∀ p e bottom top, n ≤ p → nodes[p]? = some e →
    nodes[e.left.toNat]? = some bottom → nodes[e.right.toNat]? = some top →
    InWorkingList n nodes p e.left.toNat ∧ InWorkingList n nodes p e.right.toNat ∧
    ∀ q x, InWorkingList n nodes p q → nodes[q]? = some x →
      (q ≠ e.right.toNat → nodeBefore x top) ∧
      (q ≠ e.right.toNat → q ≠ e.left.toNat → nodeBefore x bottom)

/-- The node a code leads to from a node: 0 is left, 1 is right (R165). -/
def walk (node : NodeIndex → NodeEntry) (i : NodeIndex) : Bits → NodeIndex
  | [] => i
  | b :: w => walk node (if b then (node i).right else (node i).left) w

/-! ### Invariants of a state -/

/-- Every buffer and table is in its canonical form. -/
def State.canonical (s : State) : Bool :=
  Memory.wf s.ibuf && Memory.wf s.obuf && Store.wf s.ftab && Store.wf s.ctab && Store.wf s.node

/-- Nothing is written beyond a capacity (R6, R41, R42, R34 to R36). -/
def State.inBounds (s : State) : Bool :=
  Store.within s.ibuf s.params.inMax.val && Store.within s.obuf s.params.outMax.toNat &&
    Store.within s.ftab Config.tblMax && Store.within s.ctab Config.tblMax &&
    Store.within s.node Config.nodeMax

/-- Every node TREE has stored has a key of 1 to KEY_MAX bytes (R6, R36). -/
def State.keysBounded (s : State) : Bool :=
  s.node.all fun c => 1 ≤ c.2.key.length && c.2.key.length ≤ Config.keyMax

/-- `NNODE = 0 and ROOT = NONE` when NSYM = 0; otherwise `NNODE = 2*NSYM - 1` and `ROOT = NNODE - 1` (R29). -/
def State.treeCounts (s : State) : Prop :=
  (s.nsym = 0 → s.nnode = 0 ∧ s.root = Config.none9) ∧
  (s.nsym ≠ 0 → s.nnode.toNat = 2 * s.nsym.toNat - 1 ∧ s.root.toNat = s.nnode.toNat - 1)

/-- The registers agree with the phase (R26, R29). In EMPTY, NENT can be nonzero only in the error state
that a BAD_TABLE leaves (R223). -/
def State.sessionShape (s : State) : Prop :=
  match s.phase with
  | .empty => s.nsym = 0 ∧ s.nnode = 0 ∧ s.root = Config.none9 ∧ (s.err = false → s.nent = 0) ∧
      s.nent.toNat ≤ 256
  | .counted => s.nsym.toNat ≤ 256 ∧ s.nnode = 0 ∧ s.root = Config.none9 ∧ s.nent = 0
  | .treed => s.nsym.toNat ≤ 256 ∧ s.nent = 0 ∧ s.treeCounts
  | .coded => s.nsym.toNat ≤ 256 ∧ s.nent = s.nsym ∧ s.treeCounts
  | .parsed => s.nsym = 0 ∧ s.nnode = 0 ∧ s.root = Config.none9 ∧ s.nent.toNat ≤ 256

/-- The flags and the error code agree with what they report: PAD with PADBITS, which is 0..7 (R25, R30),
TRUNC with TRAILBITS (R25, R204), ERR with ERRCODE (R24). -/
def State.flagsMatch (s : State) : Prop :=
  s.pad = (s.padBits != 0) ∧ s.padBits.toNat ≤ 7 ∧ s.trunc = (s.trailBits != 0) ∧
    (s.err = true ↔ s.errcode ≠ .none)

/-- What the registers and stores of a state between two steps satisfy: canonical, in bounds, keys no longer than KEY_MAX, not busy
(R23), `OUT_LEN <= OUT_MAX` (R28), flags and counts in agreement. -/
structure State.Inv (s : State) : Prop where
  canonical : s.canonical = true
  inBounds : s.inBounds = true
  keys : s.keysBounded = true
  idle : s.busy = false
  outputFits : s.outLen.toNat ≤ s.params.outMax.toNat
  flags : s.flagsMatch
  session : s.sessionShape

/-- What the valid tables satisfy in each phase: the frequency table (R34), the tree (R37), the code table
(R35, R170). -/
structure State.tablesOk (s : State) : Prop where
  ftab : s.phase = .counted ∨ s.phase = .treed ∨ s.phase = .coded → FtabOk s.ftabValid
  tree : s.phase = .treed ∨ s.phase = .coded → TreeOk s.ftabValid s.nodeValid s.root
  codes : s.phase = .coded → s.ctabValid.map (·.sym) = s.ftabValid.map (·.sym) ∧
    CodesBounded s.ctabValid ∧ PrefixFree s.ctabValid
  parsed : s.phase = .parsed → CodesBounded s.ctabValid

end Sys2Proof.Machine
end

