-- ==== Sys2Proof/Certificates/Slice0/Obligations.lean ====
section
/-! DEFINITION. The statements for the provers. -/

open Sys2Proof Sys2Proof.Machine

/-! ### The command word -/

/-- R90 to R93: a word decodes to a command exactly when it is that command's word, every operand at every
value; and the numbering of the opcode table gives the same. -/
def Obligations.DecodeAndEncodeAgree : Prop :=
  ∀ (w : Word) (i : Instr),
    (decode w = .command i ↔ i.wf = true ∧ encode i = w) ∧
    (decodeTableWord 32 w.toNat = some i ↔ encode i = w)

/-- R91: the tests of `decode(w)` in their order; the rest are the commands; an ILLEGAL word raises
ILLEGAL_CMD when issued. -/
def Obligations.DecodeTestsTheFieldsInOrder : Prop :=
  ∀ w : Word,
    (w.extractLsb' 16 16 ≠ 0 → decode w = .illegal .reservedBits) ∧
    (w.extractLsb' 16 16 = 0 → 0x0A < (w.extractLsb' 0 8).toNat → decode w = .illegal .reservedOpcode) ∧
    (w.extractLsb' 16 16 = 0 → (w.extractLsb' 0 8).toNat ≤ 0x0A → w.extractLsb' 0 8 ≠ 0x05 →
      w.extractLsb' 8 8 ≠ 0 → decode w = .illegal .symNotZero) ∧
    (w.extractLsb' 16 16 = 0 → (w.extractLsb' 0 8).toNat ≤ 0x0A →
      (w.extractLsb' 0 8 = 0x05 ∨ w.extractLsb' 8 8 = 0) →
      ∃ i, decode w = .command i ∧ opcodeOf i = w.extractLsb' 0 8 ∧ operandOf i = w.extractLsb' 8 8) ∧
    (∀ why s, decode w = .illegal why → s.err = false → issueWord w s = .next (raiseError .illegalCmd s))

/-- R92, R93: the words of the opcode table, written out. -/
def Obligations.OpcodeTableWordsDecode : Prop :=
  decode 0x00000000 = .command .nop ∧ decode 0x00000001 = .command .clr ∧
  decode 0x00000002 = .command .freq ∧ decode 0x00000003 = .command .tree ∧
  decode 0x00000004 = .command .codes ∧ decode 0x00006105 = .command (.lookup 0x61) ∧
  decode 0x00000006 = .command .pack ∧ decode 0x00000007 = .command .enc ∧
  decode 0x00000008 = .command .parse ∧ decode 0x00000009 = .command .unpack ∧
  decode 0x0000000A = .command .dec

/-! ### Steps -/

/-- R22, R71: the step that takes a write of CMD in an idle block is `exec` of the command the word decodes
to, with the access taken from the queue and nothing else around it; an illegal word is issued as one; any
other access does what its rule says; with no access left the state is held. The queue is the model's own
(log entry 2). -/
def Obligations.StepRunsTheIssuedCommand : Prop :=
  (∀ (s : State) (w : Word) (i : Instr) (rest : List HostAccess),
    s.busy = false → s.hostQueue = .regWrite 0 w :: rest → decode w = .command i →
      step s = exec i { s with hostQueue := rest }) ∧
  (∀ (s : State) (w : Word) (why : DecodeError) (rest : List HostAccess),
    s.busy = false → s.hostQueue = .regWrite 0 w :: rest → decode w = .illegal why →
      step s = .next (issueIllegal { s with hostQueue := rest })) ∧
  (∀ (s : State) (a : HostAccess) (rest : List HostAccess),
    s.hostQueue = a :: rest → step s = hostStep a { s with hostQueue := rest }) ∧
  (∀ s : State, s.hostQueue = [] → step s = .next s)

/-- The state that holds a command word for the next step runs it at the next step, whatever other
accesses wait (the model's choice, log entry 2). -/
def Obligations.NextStepRunsThePlacedWord : Prop :=
  ∀ (s : State) (w : Nat) (i : Instr), decodeTableWord 32 w = some i →
    step (s.withFetchWord 32 w) = exec i { s with busy := false }

/-- R220: every command word finishes, BUSY 0 and DONE 1, and an error it raises has a code; and no step
of any state stops. -/
def Obligations.EveryCommandFinishes : Prop :=
  (∀ (w : Word) (s : State), ∃ t, issueWord w s = .next t ∧ t.busy = false ∧ t.done = true ∧
    (s.err = false → t.err = true → t.errcode ≠ .none)) ∧
  (∀ s : State, ∃ t, step s = .next t)

/-! ### Errors and the phase machine -/

/-- R226: an illegal word raises ILLEGAL_CMD; nothing but ERR and ERRCODE (and BUSY and DONE) changes. -/
def Obligations.IllegalWordRaisesIllegalCmd : Prop :=
  ∀ (w : Word) (s : State), s.err = false →
    (0x0B ≤ (w.extractLsb' 0 8).toNat ∨ w.extractLsb' 16 16 ≠ 0 ∨
      (w.extractLsb' 8 8 ≠ 0 ∧ w.extractLsb' 0 8 ≠ 0x05)) →
    issueWord w s = .next { s with busy := false, done := true, err := true, errcode := .illegalCmd }

/-- R227: a command issued in a phase where the table of R231 has a dash raises SEQUENCE; nothing but ERR and
ERRCODE changes (and BUSY and DONE, R220). -/
def Obligations.WrongPhaseRaisesSequence : Prop :=
  ∀ (s : State) (sym : Byte), s.err = false →
    ∀ i : Instr,
      ((i = .freq ∨ i = .enc ∨ i = .parse ∨ i = .dec) ∧ s.phase ≠ .empty) ∨
      (i = .tree ∧ s.phase ≠ .counted) ∨ (i = .codes ∧ s.phase ≠ .treed) ∨
      (i = .lookup sym ∧ s.phase ≠ .coded ∧ s.phase ≠ .parsed) ∨
      (i = .pack ∧ s.phase ≠ .coded) ∨ (i = .unpack ∧ s.phase ≠ .parsed) →
    exec i s = .next { s with busy := false, done := true, err := true, errcode := .sequence }

/-- R236: while ERR = 1 every word but NOP and CLR completes at once and changes nothing; and nothing but CLR
and reset ever clears the error or changes its code. -/
def Obligations.RefusedWhileError : Prop :=
  ∀ s : State, s.err = true →
    (∀ w : Word, decode w ≠ .command .nop → decode w ≠ .command .clr →
      issueWord w s = .next { s with busy := false, done := true }) ∧
    (∀ (a : HostAccess) (t : State), a ≠ .reset →
      (∀ w, a = .regWrite 0 w → decode w ≠ .command .clr) → hostStep a s = .next t →
      t.err = true ∧ t.errcode = s.errcode)

/-- R24: ERRCODE is written only by a `raise` that finds ERR = 0, so it keeps the first error, and by CLR
and reset, which clear it; it is read in bits 2:0, with 0 above. -/
def Obligations.FirstErrorIsKept : Prop :=
  (∀ (a : HostAccess) (s t : State), hostStep a s = .next t → t.errcode ≠ s.errcode →
    a = .reset ∨ (∃ w, a = .regWrite 0 w ∧ decode w = .command .clr) ∨
      (∃ w, a = .regWrite 0 w ∧ s.err = false ∧ t.err = true)) ∧
  (∀ (e : ErrCode) (s : State),
    raiseError e s = { s with busy := false, done := true, err := true,
                              errcode := if s.err = true then s.errcode else e }) ∧
  (∀ s t : State, exec .clr s = .next t → t.errcode = .none) ∧
  (∀ s : State, (hostReset s).errcode = .none) ∧
  (∀ s : State, s.regValue 2 = BitVec.ofNat 32 s.errcode.code ∧ s.errcode.code < 8 ∧
    ∀ k, 3 ≤ k → (s.regValue 2).getLsbD k = false)

/-- R225 (a), R27: FREQ, PACK, PARSE, UNPACK, ENC and DEC raise CAPACITY first of all when
`IN_LEN > IN_MAX`; nothing else has been written. -/
def Obligations.InputTooLongRaisesCapacity : Prop :=
  ∀ (s : State) (i : Instr), s.params.inMax.val < s.inLen.toNat →
    ((i = .freq ∨ i = .enc ∨ i = .parse ∨ i = .dec) ∧ s.ready .empty) ∨
    (i = .pack ∧ s.ready .coded) ∨ (i = .unpack ∧ s.ready .parsed) →
    exec i s = .next { s with busy := false, done := true, err := true, errcode := .capacity }

/-- R231: the phase changes only as listed, and every command that is accepted and raises no error leaves
the phase listed for it. -/
def Obligations.PhaseTransitions : Prop :=
  ∀ (i : Instr) (s t : State), exec i s = .next t →
    (t.phase ≠ s.phase →
      (i = .clr ∧ t.phase = .empty) ∨ (i = .freq ∧ s.phase = .empty ∧ t.phase = .counted) ∨
      (i = .tree ∧ s.phase = .counted ∧ t.phase = .treed) ∨
      (i = .codes ∧ s.phase = .treed ∧ t.phase = .coded) ∨
      (i = .enc ∧ s.phase = .empty ∧ t.phase = .coded) ∨
      ((i = .parse ∨ i = .dec) ∧ s.phase = .empty ∧ t.phase = .parsed)) ∧
    (s.err = false → t.err = false →
      (i = .clr → t.phase = .empty) ∧ (i = .freq → t.phase = .counted) ∧ (i = .tree → t.phase = .treed) ∧
      (i = .codes → t.phase = .coded) ∧ (i = .enc → t.phase = .coded) ∧
      (i = .parse ∨ i = .dec → t.phase = .parsed))

/-! ### The host's accesses -/

/-- R21, R23, R24, R26, R30, R31, R221: what a register read returns in an idle block, by number, STATUS, RES
and RES_CODE by their fields; the numbers of the phases and of the error codes. -/
def Obligations.RegisterReadsByNumber : Prop :=
  ∀ s : State,
    (∀ n, s.busy = false → hostStep (.regRead n) s = .next { s with lastRead := .reg (s.regValue n) }) ∧
    s.regValue 0 = 0 ∧ s.regValue 3 = s.inLen ∧ s.regValue 4 = s.outLen ∧ s.regValue 5 = s.nsym ∧
    s.regValue 6 = s.nent ∧ s.regValue 7 = s.nnode ∧ (s.regValue 8).toNat = s.root.toNat ∧
    s.regValue 9 = s.bitLen ∧ s.regValue 10 = s.padBits ∧ s.regValue 11 = s.trailBits ∧
    s.regValue 12 = s.hdrLen ∧ (∀ k : Fin 8, s.regValue (16 + k.val) = s.resCode[k.val]) ∧
    (s.regValue 1).getLsbD 0 = s.busy ∧ (s.regValue 1).getLsbD 1 = s.done ∧
    (s.regValue 1).getLsbD 2 = s.err ∧ (s.regValue 1).getLsbD 3 = s.nf ∧
    (s.regValue 1).getLsbD 4 = s.pad ∧ (s.regValue 1).getLsbD 5 = s.trunc ∧
    ((s.regValue 1).extractLsb' 8 3).toNat = s.phase.code ∧
    (s.regValue 13).getLsbD 31 = s.resFound ∧ (s.regValue 13).extractLsb' 8 8 = s.resSym ∧
    (s.regValue 13).extractLsb' 0 8 = s.resLen ∧
    Phase.empty.code = 0 ∧ Phase.counted.code = 1 ∧ Phase.treed.code = 2 ∧ Phase.coded.code = 3 ∧
    Phase.parsed.code = 4 ∧
    s.regValue 2 = BitVec.ofNat 32 s.errcode.code ∧
    ErrCode.none.code = 0 ∧ ErrCode.missingTable.code = 1 ∧ ErrCode.badTable.code = 2 ∧
    ErrCode.capacity.code = 3 ∧ ErrCode.illegalCmd.code = 4 ∧ ErrCode.sequence.code = 5

/-- R45: reserved register numbers and the reserved bits of STATUS, ERRCODE, ROOT and RES read 0; writes of
reserved or read-only numbers change nothing, and raise nothing. -/
def Obligations.ReservedReadZeroIgnoreWrites : Prop :=
  ∀ (s : State) (v : Word), s.busy = false →
    (∀ n, (n = 14 ∨ n = 15 ∨ 24 ≤ n) → hostStep (.regRead n) s = .next { s with lastRead := .reg 0 }) ∧
    (∀ n, n ≠ 0 → n ≠ 3 → hostStep (.regWrite n v) s = .next s) ∧
    (∀ k, (k = 6 ∨ k = 7 ∨ 11 ≤ k) → (s.regValue 1).getLsbD k = false) ∧
    (∀ k, 3 ≤ k → (s.regValue 2).getLsbD k = false) ∧
    (∀ k, 9 ≤ k → (s.regValue 8).getLsbD k = false) ∧
    (∀ k, 16 ≤ k → k ≤ 30 → (s.regValue 13).getLsbD k = false)

/-- R62, R63, R64, R274: every read succeeds and changes nothing in the block; only the model's own record
of what was read, and its count of free values, move (log entries 5 and 6). -/
def Obligations.HostReadsChangeNothing : Prop :=
  ∀ (s : State) (a : HostAccess),
    (∃ n, a = .regRead n ∨ a = .ibufRead n ∨ a = .obufRead n ∨ a = .ftabRead n ∨ a = .ctabRead n ∨
      a = .nodeRead n) →
    ∃ d n, hostStep a s = .next { s with lastRead := d, freeCount := n }

/-- R63, R64, R42: what a read of a valid place returns in an idle block. -/
def Obligations.HostReadsReturnValidPlaces : Prop :=
  ∀ s : State, s.busy = false →
    (∀ a, a < s.params.inMax.val → hostStep (.ibufRead a) s = .next { s with lastRead := .byte (s.ibufByte a) }) ∧
    (∀ a, a < s.params.outMax.toNat → a < s.outLen.toNat →
      hostStep (.obufRead a) s = .next { s with lastRead := .byte (s.obufByte a) }) ∧
    (∀ i, i < s.nsym.toNat → hostStep (.ftabRead i) s =
      .next { s with lastRead := .ftab (s.ftabSlot i).sym (s.ftabSlot i).freq }) ∧
    (∀ i, i < s.nent.toNat → hostStep (.ctabRead i) s =
      .next { s with lastRead := .ctab (s.ctabSlot i).sym (s.ctabSlot i).code.length (s.ctabSlot i).code }) ∧
    (∀ i, i < s.nnode.toNat → hostStep (.nodeRead i) s =
      .next { s with lastRead := .node (s.nodeSlot i).key (s.nodeSlot i).freq (s.nodeSlot i).left
                                       (s.nodeSlot i).right })

/-- R27, R63: in an idle block a write of IN_LEN stores the value and a write of IBUF stores one byte, and
nothing else changes; at or beyond IN_MAX it is ignored. -/
def Obligations.HostWritesReachOnlyTheirPlace : Prop :=
  ∀ s : State, s.busy = false →
    (∀ v, hostStep (.regWrite 3 v) s = .next { s with inLen := v }) ∧
    (∀ a b, a < s.params.inMax.val → ∃ t, hostStep (.ibufWrite a b) s = .next t ∧
      t = { s with ibuf := t.ibuf } ∧ t.ibufByte a = b ∧ ∀ a', a' ≠ a → t.ibufByte a' = s.ibufByte a') ∧
    (∀ a b, s.params.inMax.val ≤ a → hostStep (.ibufWrite a b) s = .next s)

/-- R262: while BUSY = 1 writes of CMD, IN_LEN and IBUF are ignored, STATUS reads BUSY = 1 and DONE = 0, and
every other read returns some value; the block does not change. That every such read advances the count of free
values is the model's choice (log entry 5); that BUSY = 1 is modelled though no run reaches it, and that the
reads of CMD and of reserved numbers are among "anything else", is read from R262 (log entry 11, DEDUCED). -/
def Obligations.BusyHostAccessIsIgnored : Prop :=
  ∀ s : State, s.busy = true →
    (∀ w, hostStep (.regWrite 0 w) s = .next s) ∧ (∀ v, hostStep (.regWrite 3 v) s = .next s) ∧
    (∀ a b, hostStep (.ibufWrite a b) s = .next s) ∧
    (∃ v : Word, v.getLsbD 0 = true ∧ v.getLsbD 1 = false ∧
      hostStep (.regRead 1) s = .next { s with lastRead := .reg v, freeCount := s.freeCount + 1 }) ∧
    (∀ (a : HostAccess) (n : Nat),
      (a = .regRead n ∧ n ≠ 1) ∨ a = .ibufRead n ∨ a = .obufRead n ∨ a = .ftabRead n ∨ a = .ctabRead n ∨
        a = .nodeRead n →
      ∃ d, hostStep a s = .next { s with lastRead := d, freeCount := s.freeCount + 1 })

/-! ### Reset, NOP, CLR -/

/-- R44, R250: the registers after reset, as the host reads them: all 0 but ROOT; no table entry is valid;
what a byte or slot holds is a free value of that reset, whose number is a new one (the model's form of
"unspecified", log entry 4). The capacities stay (R43), and so do the model's own fields (log entry 14). -/
def Obligations.ResetClearsTheRegisters : Prop :=
  ∀ s : State, ∃ t, hostStep .reset s = .next t ∧ t.params = s.params ∧ t.phase = .empty ∧
    t.epoch = s.epoch + 1 ∧ t.hostQueue = s.hostQueue ∧ t.lastRead = s.lastRead ∧ t.freeCount = s.freeCount ∧
    (∀ n, t.regValue n = if n = 8 then 0x1FF else 0) ∧
    t.input = [] ∧ t.output = [] ∧ t.ftabValid = [] ∧ t.ctabValid = [] ∧ t.nodeValid = [] ∧
    (∀ a, t.ibufByte a = Config.ibufAtReset t.epoch a ∧ t.obufByte a = Config.obufAtReset t.epoch a ∧
      t.ftabSlot a = Config.ftabAtReset t.epoch a ∧ t.ctabSlot a = Config.ctabAtReset t.epoch a ∧
      t.nodeSlot a = Config.nodeAtReset t.epoch a)

/-- R131: NOP runs in every phase and while ERR = 1, and changes nothing but BUSY and DONE; after reset it
gives STATUS = 2. -/
def Obligations.NopOnlyCompletes : Prop :=
  encode .nop = 0x00000000 ∧
  (∀ s : State, exec .nop s = .next { s with busy := false, done := true }) ∧
  (∀ s t : State, exec .nop (hostReset s) = .next t → t.regValue 1 = 0x00000002)

/-- R132, R133: CLR runs in every phase and while ERR = 1, writes what its pseudocode lists, and nothing else;
in particular IN_LEN and every byte of IBUF and OBUF are kept, OUT_LEN becomes 0, and DONE is 1. -/
def Obligations.ClrEndsTheSession : Prop :=
  encode .clr = 0x00000001 ∧
  (∀ s : State, exec .clr s = .next { s with
    busy := false, done := true,
    nsym := 0, nent := 0, nnode := 0, root := Config.none9,
    outLen := 0, bitLen := 0, padBits := 0, trailBits := 0, hdrLen := 0,
    resFound := false, resSym := 0, resLen := 0, resCode := #v[0, 0, 0, 0, 0, 0, 0, 0],
    err := false, errcode := .none, nf := false, pad := false, trunc := false, phase := .empty }) ∧
  (∀ s t : State, exec .clr s = .next t → t.regValue 1 = 0x00000002 ∧ t.regValue 8 = 0x1FF ∧
    t.inLen = s.inLen ∧ t.input = s.input ∧
    (∀ a, t.ibufByte a = s.ibufByte a ∧ t.obufByte a = s.obufByte a))

/-! ### Frequency counting -/

/-- R11, R12: the key order and the priority order as their words say them; `before` is a strict total order
on entries with different keys, so the priority-sorted arrangement is unique. -/
def Obligations.OrdersAreStrictAndTotal : Prop :=
  (∀ a b : Bytes, keylt a b = true ↔
    (a <+: b ∧ a ≠ b) ∨
    (∃ (p a' b' : Bytes) (x y : Byte), a = p ++ x :: a' ∧ b = p ++ y :: b' ∧ x.toNat < y.toNat)) ∧
  (∀ x y : Bytes × Word, before x y = true ↔
    (y.2.toNat < x.2.toNat ∨ (x.2 = y.2 ∧ keylt y.1 x.1 = true))) ∧
  (∀ x : Bytes × Word, before x x = false) ∧
  (∀ x y z : Bytes × Word, before x y = true → before y z = true → before x z = true) ∧
  (∀ x y : Bytes × Word, x.1 ≠ y.1 → before x y = true ∨ before y x = true) ∧
  (∀ l m : List (Bytes × Word), l.Perm m → (l.Pairwise fun x y => before x y = true) →
    (m.Pairwise fun x y => before x y = true) → l = m)

/-- R144: `sort_priority` returns the entries of its argument in priority order, and with different symbols
no other arrangement is in that order. -/
def Obligations.SortGivesPriorityOrder : Prop :=
  ∀ l : List FtabEntry, (l.map (·.sym)).Nodup →
    (sortPriority l).Perm l ∧ PrioritySorted (sortPriority l) ∧
    (∀ m : List FtabEntry, m.Perm l → PrioritySorted m → m = sortPriority l) ∧
    (∀ x y : FtabEntry, before (FtabEntry.rank x) (FtabEntry.rank y) = true ↔
      (y.freq.toNat < x.freq.toNat ∨ (x.freq = y.freq ∧ y.sym.toNat < x.sym.toNat)))

/-- R141, R143: FREQ completes and FTAB holds, in priority order, each byte of the input once with the number
of times it occurs; the counts are at least 1 and sum to the input length. All else is unchanged. Its word is
2; IN_LEN > IN_MAX raises CAPACITY before anything is written, a phase other than EMPTY raises SEQUENCE. -/
def Obligations.FreqCountsTheInput : Prop :=
  encode .freq = 0x00000002 ∧
  (∀ s : State, s.ready .empty → s.inputFits →
    ∃ t, exec .freq s = .next t ∧
      t = { s with busy := false, done := true, ftab := t.ftab, nsym := t.nsym, phase := .counted } ∧
      FtabOk t.ftabValid ∧ t.nsym.toNat ≤ 256 ∧
      (∀ b, b ∈ t.ftabValid.map (·.sym) ↔ b ∈ s.input) ∧
      (∀ e ∈ t.ftabValid, 1 ≤ e.freq.toNat ∧ e.freq.toNat = s.input.count e.sym) ∧
      (t.ftabValid.map (·.freq.toNat)).sum = s.inLen.toNat ∧
      (∀ i, t.nsym.toNat ≤ i → t.ftabSlot i = s.ftabSlot i)) ∧
  (∀ s : State, s.ready .empty → s.params.inMax.val < s.inLen.toNat →
    exec .freq s = .next { s with busy := false, done := true, err := true, errcode := .capacity }) ∧
  (∀ s : State, s.err = false → s.phase ≠ .empty →
    exec .freq s = .next { s with busy := false, done := true, err := true, errcode := .sequence })

/-- R142: the first-seen order is not observable: FTAB depends on how often each byte occurs, not where. -/
def Obligations.FreqIgnoresTheOrder : Prop :=
  ∀ s s' t t' : State, s.ready .empty → s'.ready .empty → s.inputFits → s'.inputFits →
    s.input.Perm s'.input → exec .freq s = .next t → exec .freq s' = .next t' →
    t.ftabValid = t'.ftabValid ∧ t.nsym = t'.nsym

/-! ### The tree and the codes -/

/-- R151, R152, R157, R37: TREE completes and NODE and ROOT are a tree of FTAB; all else is unchanged. -/
def Obligations.TreeIsBuilt : Prop :=
  ∀ s : State, s.ready .counted → s.nsym.toNat ≤ 256 → FtabOk s.ftabValid →
    ∃ t, exec .tree s = .next t ∧
      t = { s with busy := false, done := true, node := t.node, nnode := t.nnode, root := t.root,
                   phase := .treed } ∧
      TreeOk t.ftabValid t.nodeValid t.root ∧
      (∀ i, t.nnode.toNat ≤ i → t.nodeSlot i = s.nodeSlot i)

/-- R153, R154, R155: at every merge the right child is the node of lowest priority in the working list and
the left child the lowest without it. -/
def Obligations.TreeMergesTheTwoLowest : Prop :=
  ∀ s t : State, s.ready .counted → s.nsym.toNat ≤ 256 → FtabOk s.ftabValid → exec .tree s = .next t →
    MergesLowest s.nsym.toNat t.nodeValid

/-- R159, R160: one symbol makes a tree of one leaf, no symbol makes none; both succeed and touch no other
slot. -/
def Obligations.TreeOfOneSymbolAndOfNone : Prop :=
  (∀ s : State, s.ready .counted → s.nsym = 1 →
    ∃ t, exec .tree s = .next t ∧
      t = { s with busy := false, done := true, node := t.node, nnode := 1, root := 0, phase := .treed } ∧
      t.nodeSlot 0 = { key := [(s.ftabSlot 0).sym], freq := (s.ftabSlot 0).freq,
                       left := Config.none9, right := Config.none9 } ∧
      (∀ i, 1 ≤ i → t.nodeSlot i = s.nodeSlot i)) ∧
  (∀ s : State, s.ready .counted → s.nsym = 0 →
    exec .tree s = .next { s with busy := false, done := true, nnode := 0, root := Config.none9,
                                  phase := .treed })

/-- R151, R166: TREE and CODES cannot fail: in the phase where they are legal they complete, whatever the
tables hold, and write their table, its count and the phase alone. -/
def Obligations.TreeAndCodesCannotFail : Prop :=
  (∀ s : State, s.ready .counted → ∃ t, exec .tree s = .next t ∧
    t = { s with busy := false, done := true, node := t.node, nnode := t.nnode, root := t.root,
                 phase := .treed } ∧
    (s.nsym.toNat ≤ 256 → ∀ i, t.nnode.toNat ≤ i → t.nodeSlot i = s.nodeSlot i)) ∧
  (∀ s : State, s.ready .treed → ∃ t, exec .codes s = .next t ∧
    t = { s with busy := false, done := true, ctab := t.ctab, nent := s.nsym, phase := .coded } ∧
    (∀ i, s.nsym.toNat ≤ i → t.ctabSlot i = s.ctabSlot i))

/-- R165, R166, R167, R169, R170: with two symbols or more the code of a symbol is the path from ROOT to its
leaf, 0 left and 1 right; the codes are prefix-free and have 1 to NSYM - 1 bits. -/
def Obligations.CodesFollowTheTree : Prop :=
  ∀ s : State, s.ready .treed → 2 ≤ s.nsym.toNat → s.nsym.toNat ≤ 256 → FtabOk s.ftabValid →
    TreeOk s.ftabValid s.nodeValid s.root →
    ∃ t, exec .codes s = .next t ∧
      t = { s with busy := false, done := true, ctab := t.ctab, nent := s.nsym, phase := .coded } ∧
      t.ctabValid.map (·.sym) = s.ftabValid.map (·.sym) ∧
      (∀ i, i < s.nsym.toNat →
        (walk (fun n => s.nodeSlot n.toNat) s.root (t.ctabSlot i).code).toNat = i) ∧
      PrefixFree t.ctabValid ∧
      (∀ e ∈ t.ctabValid, 1 ≤ e.code.length ∧ e.code.length ≤ s.nsym.toNat - 1) ∧
      (∀ i, s.nsym.toNat ≤ i → t.ctabSlot i = s.ctabSlot i)

/-- R166, R168: with one symbol its code is `0`; with none the table is empty. -/
def Obligations.CodesOfOneSymbolAndOfNone : Prop :=
  (∀ s : State, s.ready .treed → s.nsym = 1 →
    ∃ t, exec .codes s = .next t ∧
      t = { s with busy := false, done := true, ctab := t.ctab, nent := 1, phase := .coded } ∧
      t.ctabValid = [{ sym := (s.ftabSlot 0).sym, code := [false] }] ∧
      (∀ i, 1 ≤ i → t.ctabSlot i = s.ctabSlot i)) ∧
  (∀ s : State, s.ready .treed → s.nsym = 0 →
    exec .codes s = .next { s with busy := false, done := true, nent := 0, phase := .coded })

/-! ### Lookup -/

/-- R172, R205, R201: a search by symbol and a search by code take the first match in index order. -/
def Obligations.SearchesTakeTheFirstMatch : Prop :=
  (∀ (t : List CtabEntry) (sym : Byte) (c : Bits), findCode t sym = some c ↔
    ∃ l r, t = l ++ { sym := sym, code := c } :: r ∧ ∀ x ∈ l, x.sym ≠ sym) ∧
  (∀ (t : List CtabEntry) (sym : Byte), findCode t sym = none ↔ ∀ x ∈ t, x.sym ≠ sym) ∧
  (∀ (t : List CtabEntry) (sym : Byte) (c : Bits), matchCode t c = some sym ↔
    ∃ l r, t = l ++ { sym := sym, code := c } :: r ∧ ∀ x ∈ l, x.code ≠ c) ∧
  (∀ (t : List CtabEntry) (c : Bits), matchCode t c = none ↔ ∀ x ∈ t, x.code ≠ c)

/-- R173, R31: LOOKUP of a symbol in the table completes with FOUND = 1, the symbol, the length of its first
entry's code, and the code in RES_CODE, first bit highest, zeros past its end; NF stays as it was. -/
def Obligations.LookupReportsTheCode : Prop :=
  ∀ (s : State) (sym : Byte) (c : Bits), s.ready .coded ∨ s.ready .parsed →
    findCode s.ctabValid sym = some c → c.length ≤ 255 →
    ∃ t, exec (.lookup sym) s = .next t ∧
      t = { s with busy := false, done := true, resFound := true, resSym := sym, resLen := t.resLen,
                   resCode := t.resCode } ∧
      t.regValue 13 = 1 <<< 31 ||| sym.zeroExtend 32 <<< 8 ||| BitVec.ofNat 32 c.length ∧
      (∀ j, j < 256 → (t.regValue (16 + j / 32)).getLsbD (31 - j % 32) = c.getD j false)

/-- R173, R224: LOOKUP of a symbol not in the table completes too: FOUND = 0, LEN = 0, RES_CODE 0, NF set; no
error. -/
def Obligations.LookupMissSetsNf : Prop :=
  ∀ (s : State) (sym : Byte), s.ready .coded ∨ s.ready .parsed → findCode s.ctabValid sym = none →
    exec (.lookup sym) s =
      .next { s with busy := false, done := true, resFound := false, resSym := sym, resLen := 0,
                     resCode := #v[0, 0, 0, 0, 0, 0, 0, 0], nf := true }

/-! ### The stream format -/

/-- R106: the symbol tokens, `CR` for 0x0A and `LF` for 0x0D. -/
def Obligations.TokensAreSwapped : Prop :=
  tok 0x0A = [0x43, 0x52] ∧ tok 0x0D = [0x4C, 0x46] ∧ tok 0x20 = [0x53, 0x50] ∧
  ∀ s : Byte, s ≠ 0x0A → s ≠ 0x0D → s ≠ 0x20 → tok s = [s]

/-- R107, R109, R110 (a), (b): an entry line parses back to its entry; the length of a header; no entry
line is the marker or holds 0x0A, so splitting the stream on 0x0A recovers exactly the lines written. -/
def Obligations.HeaderSplitsIntoItsLines : Prop :=
  (∀ e : CtabEntry, 1 ≤ e.code.length → e.code.length ≤ 255 →
    parseEntry (tok e.sym ++ 0x20 :: codeText e.code) = some e) ∧
  ∀ (t : List CtabEntry) (p : Bytes),
    (header t).length = 12 + (t.map fun e => (tok e.sym).length + 2 + e.code.length).sum ∧
    (∀ e ∈ t, entryLine e ≠ marker ∧ (0x0A : Byte) ∉ entryLine e) ∧
    terminatedLines (header t ++ p) = marker :: t.map entryLine ++ marker :: terminatedLines p

/-- R112: `bits_of_byte` is bit 7 first, `byte_of_bits` its inverse; `unpack` and `pack` go byte by byte. -/
def Obligations.BitsAndBytesAreInverse : Prop :=
  (∀ (b : Byte) (j : Nat), j < 8 → (bitsOfByte b)[j]? = some (b.getLsbD (7 - j))) ∧
  (∀ b : Byte, (bitsOfByte b).length = 8 ∧ byteOfBits (bitsOfByte b) = b) ∧
  (∀ w : Bits, w.length = 8 → bitsOfByte (byteOfBits w) = w ∧
    (byteOfBits w).toNat = ((List.range 8).map fun j => (w.getD j false).toNat * 2 ^ (7 - j)).sum) ∧
  (∀ p : Bytes, (unpackBytes p).length = 8 * p.length ∧
    ∀ k b, p[k]? = some b → ((unpackBytes p).drop (8 * k)).take 8 = bitsOfByte b) ∧
  (∀ w : Bits, w.length % 8 = 0 → (packBits w).length = w.length / 8 ∧
    ∀ k, k < w.length / 8 → (packBits w)[k]? = some (byteOfBits ((w.drop (8 * k)).take 8))) ∧
  packBits [true, false, false, true, false, true, true, false] = [0x96]

/-! ### Encoding -/

/-- R181 to R185: PACK of a stream that fits completes; OBUF is the header and the padded payload, the length
registers and PAD tell of it, NF is set when a byte has no code; all else is unchanged. -/
def Obligations.PackWritesTheStream : Prop :=
  ∀ s : State, s.ready .coded → s.inputFits →
    (encodedStream s.ctabValid s.input).length ≤ s.params.outMax.toNat →
    ∃ t, exec .pack s = .next t ∧
      t = { s with
        busy := false, done := true, obuf := t.obuf,
        outLen := BitVec.ofNat 32 (encodedStream s.ctabValid s.input).length,
        hdrLen := BitVec.ofNat 32 (header s.ctabValid).length,
        bitLen := BitVec.ofNat 32 (encodedBits s.ctabValid s.input).length,
        padBits := BitVec.ofNat 32 (padCount (encodedBits s.ctabValid s.input).length),
        pad := padCount (encodedBits s.ctabValid s.input).length != 0,
        nf := s.nf || hasUnknown s.ctabValid s.input } ∧
      t.output = encodedStream s.ctabValid s.input ∧
      t.outLen.toNat = (header s.ctabValid).length + ((encodedBits s.ctabValid s.input).length + 7) / 8 ∧
      (CodesBounded s.ctabValid → t.bitLen.toNat = (encodedBits s.ctabValid s.input).length) ∧
      (∀ a, t.outLen.toNat ≤ a → t.obufByte a = s.obufByte a)

/-- R186: PACK of a stream that does not fit raises CAPACITY with OBUF full of the stream's first bytes; NF
reflects the bytes processed so far: those before the first byte whose code does not fit any more. -/
def Obligations.PackOverflowKeepsTheFirstBytes : Prop :=
  ∀ s : State, s.ready .coded → s.inputFits →
    s.params.outMax.toNat < (encodedStream s.ctabValid s.input).length →
    ∃ t, exec .pack s = .next t ∧
      t = { s with
        busy := false, done := true, err := true, errcode := .capacity, obuf := t.obuf,
        outLen := s.params.outMax,
        hdrLen := if (header s.ctabValid).length ≤ s.params.outMax.toNat
          then BitVec.ofNat 32 (header s.ctabValid).length else 0,
        bitLen := 0, padBits := 0, pad := false, nf := t.nf } ∧
      t.output = (encodedStream s.ctabValid s.input).take s.params.outMax.toNat ∧
      (∀ a, s.params.outMax.toNat ≤ a → t.obufByte a = s.obufByte a) ∧
      (s.params.outMax.toNat < (header s.ctabValid).length → t.nf = s.nf) ∧
      ((header s.ctabValid).length ≤ s.params.outMax.toNat →
        ∃ k, k ≤ s.input.length ∧ t.nf = (s.nf || hasUnknown s.ctabValid (s.input.take k)) ∧
          (header s.ctabValid).length + (encodedBits s.ctabValid (s.input.take k)).length / 8
            ≤ s.params.outMax.toNat ∧
          (k < s.input.length → s.params.outMax.toNat <
            (header s.ctabValid).length + (encodedBits s.ctabValid (s.input.take (k + 1))).length / 8))

/-- R188: ENC is FREQ, TREE, CODES and PACK, one after the other; when the stream fits it succeeds. -/
def Obligations.EncIsTheFourCommands : Prop :=
  ∀ s : State, s.ready .empty → s.inputFits →
    ∃ t1 t2 t3, exec .freq s = .next t1 ∧ exec .tree t1 = .next t2 ∧ exec .codes t2 = .next t3 ∧
      t3.ready .coded ∧ t3.input = s.input ∧ exec .enc s = exec .pack t3 ∧
      ((encodedStream t3.ctabValid s.input).length ≤ s.params.outMax.toNat →
        ∃ t, exec .enc s = .next t ∧ t.err = false ∧ t.phase = .coded ∧
          t.output = encodedStream t3.ctabValid s.input)

/-- R188 with the bound of R187's kind: with room for the largest possible header and payload, ENC completes;
the table is a prefix-free code for the bytes of the input and the output is the stream of the input. All
but the tables, the output and its registers is unchanged. -/
def Obligations.EncWritesTheStream : Prop :=
  ∀ s : State, s.ready .empty → s.inputFits → 66316 + 32 * s.inLen.toNat ≤ s.params.outMax.toNat →
    ∃ t, exec .enc s = .next t ∧
      t = { s with
        busy := false, done := true, phase := .coded,
        ftab := t.ftab, nsym := t.nsym, node := t.node, nnode := t.nnode, root := t.root,
        ctab := t.ctab, nent := t.nsym, obuf := t.obuf, outLen := t.outLen, hdrLen := t.hdrLen,
        bitLen := t.bitLen, padBits := t.padBits, pad := t.pad } ∧
      FtabOk t.ftabValid ∧ TreeOk t.ftabValid t.nodeValid t.root ∧
      t.ctabValid.map (·.sym) = t.ftabValid.map (·.sym) ∧
      (∀ b, b ∈ t.ctabValid.map (·.sym) ↔ b ∈ s.input) ∧
      CodesBounded t.ctabValid ∧ PrefixFree t.ctabValid ∧
      t.output = encodedStream t.ctabValid s.input ∧
      t.hdrLen.toNat = (header t.ctabValid).length ∧
      t.bitLen.toNat = (encodedBits t.ctabValid s.input).length ∧
      t.padBits.toNat = padCount t.bitLen.toNat ∧ t.pad = (t.padBits != 0) ∧
      (∀ a, t.outLen.toNat ≤ a → t.obufByte a = s.obufByte a) ∧
      (∀ i, t.nsym.toNat ≤ i → t.ftabSlot i = s.ftabSlot i ∧ t.ctabSlot i = s.ctabSlot i) ∧
      (∀ i, t.nnode.toNat ≤ i → t.nodeSlot i = s.nodeSlot i)

/-- R189: ENC leaves NF as it found it, and the table it builds has an entry for every byte of the input. -/
def Obligations.EncNeverMeetsUnknown : Prop :=
  ∀ s t : State, exec .enc s = .next t →
    t.nf = s.nf ∧ (s.ready .empty → s.inputFits → ∀ b ∈ s.input, findCode t.ctabValid b ≠ none)

/-- R190: the bytes ENC writes, and the tables it builds, are a function of the input alone. -/
def Obligations.EncDependsOnTheInputAlone : Prop :=
  ∀ s s' t t' : State, s.ready .empty → s'.ready .empty → s.inputFits → s'.inputFits →
    s.input = s'.input → exec .enc s = .next t → exec .enc s' = .next t' →
    t.ftabValid = t'.ftabValid ∧ t.nodeValid = t'.nodeValid ∧ t.root = t'.root ∧
    t.ctabValid = t'.ctabValid ∧ (t.output <+: t'.output ∨ t'.output <+: t.output) ∧
    (t.err = false → t'.err = false → t.output = t'.output)

/-! ### Decoding -/

/-- R202: PARSE inverts the encoder's header. All but CTAB, NENT, HDR_LEN and PHASE is unchanged. -/
def Obligations.ParseRecoversTheTable : Prop :=
  ∀ (s : State) (T : List CtabEntry) (p : Bytes), s.ready .empty → s.inputFits → TableFits T →
    s.input = header T ++ p →
    ∃ t, exec .parse s = .next t ∧
      t = { s with busy := false, done := true, ctab := t.ctab, nent := BitVec.ofNat 32 T.length,
                   hdrLen := BitVec.ofNat 32 (header T).length, phase := .parsed } ∧
      t.ctabValid = T ∧ t.hdrLen.toNat = (header T).length ∧ t.payload = p ∧
      (∀ i, T.length ≤ i → t.ctabSlot i = s.ctabSlot i)

/-- R196: PARSE of any table whose lines are all well formed, whoever wrote it. -/
def Obligations.ParseReadsWellFormedLines : Prop :=
  ∀ (s : State) (ls : List Bytes) (T : List CtabEntry) (p : Bytes), s.ready .empty → s.inputFits →
    (∀ l ∈ ls, (0x0A : Byte) ∉ l ∧ l ≠ marker) → ls.map parseEntry = T.map some → T.length ≤ 256 →
    s.input = marker ++ 0x0A :: (ls.flatMap fun l => l ++ [0x0A]) ++ marker ++ 0x0A :: p →
    ∃ t, exec .parse s = .next t ∧
      t = { s with busy := false, done := true, ctab := t.ctab, nent := BitVec.ofNat 32 T.length,
                   hdrLen := t.hdrLen, phase := .parsed } ∧
      t.ctabValid = T ∧ t.payload = p ∧ t.hdrLen.toNat + p.length = s.inLen.toNat ∧
      (∀ i, T.length ≤ i → t.ctabSlot i = s.ctabSlot i)

/-- R197, R222: without the start marker as first line PARSE raises MISSING_TABLE, and DEC at its PARSE step;
with it neither does. -/
def Obligations.ParseWithoutMarkerRaisesMissingTable : Prop :=
  ∀ (s : State) (i : Instr), i = .parse ∨ i = .dec → s.ready .empty → s.inputFits →
    ((¬ ∃ r, s.input = marker ++ 0x0A :: r) →
      exec i s = .next { s with busy := false, done := true, err := true, errcode := .missingTable,
                                nent := 0, hdrLen := 0 }) ∧
    ((∃ r, s.input = marker ++ 0x0A :: r) → ∃ t, exec i s = .next t ∧
      (t.err = true → t.errcode ≠ .missingTable))

/-- R199, R223: with the start marker, BAD_TABLE (a) when the stream ends before an end marker, (b) at a line
that is no entry, (c) at a 257th entry; the entries before it are kept. PARSE and DEC alike. -/
def Obligations.MalformedTableRaisesBadTable : Prop :=
  ∀ (s : State) (i : Instr) (ls : List Bytes) (T : List CtabEntry) (r : Bytes), i = .parse ∨ i = .dec →
    s.ready .empty → s.inputFits →
    (∀ l ∈ ls, (0x0A : Byte) ∉ l ∧ l ≠ marker) → ls.map parseEntry = T.map some → T.length ≤ 256 →
    s.input = marker ++ 0x0A :: (ls.flatMap fun l => l ++ [0x0A]) ++ r →
    ((0x0A : Byte) ∉ r ∨
      (∃ l r', r = l ++ 0x0A :: r' ∧ (0x0A : Byte) ∉ l ∧ l ≠ marker ∧
        (parseEntry l = none ∨ T.length = 256))) →
    ∃ t, exec i s = .next t ∧
      t = { s with busy := false, done := true, err := true, errcode := .badTable, ctab := t.ctab,
                   nent := BitVec.ofNat 32 T.length, hdrLen := 0 } ∧
      t.ctabValid = T ∧ (∀ i, T.length ≤ i → t.ctabSlot i = s.ctabSlot i)

/-- R204, R205, R208: UNPACK cuts the payload's bits by the match rule, in one way only. When the symbols fit
it completes with them as output and the rest in TRAILBITS; when they do not it raises CAPACITY with the
first OUT_MAX of them. All else is unchanged. -/
def Obligations.UnpackFollowsTheMatchRule : Prop :=
  ∀ s : State, s.ready .parsed → s.inputFits →
    ∃ picks tail, Cut s.ctabValid (unpackBytes s.payload) picks tail ∧
      (∀ picks' tail', Cut s.ctabValid (unpackBytes s.payload) picks' tail' →
        picks'.map (·.sym) = picks.map (·.sym) ∧ tail' = tail) ∧
      (picks.length ≤ s.params.outMax.toNat → ∃ t, exec .unpack s = .next t ∧
        t = { s with
          busy := false, done := true, obuf := t.obuf, outLen := BitVec.ofNat 32 picks.length,
          bitLen := BitVec.ofNat 32 (8 * s.payload.length),
          trailBits := BitVec.ofNat 32 tail.length, trunc := tail.length != 0 } ∧
        t.output = picks.map (·.sym) ∧
        (∀ a, t.outLen.toNat ≤ a → t.obufByte a = s.obufByte a)) ∧
      (s.params.outMax.toNat < picks.length → ∃ t, exec .unpack s = .next t ∧
        t = { s with
          busy := false, done := true, err := true, errcode := .capacity, obuf := t.obuf,
          outLen := s.params.outMax, bitLen := 0, trailBits := 0, trunc := false } ∧
        t.output = (picks.map (·.sym)).take s.params.outMax.toNat ∧
        (∀ a, s.params.outMax.toNat ≤ a → t.obufByte a = s.obufByte a))

/-- R204: UNPACK completes on every payload whose bits are not more than OUT_MAX, whatever the table. -/
def Obligations.UnpackCompletesWithRoom : Prop :=
  ∀ s : State, s.ready .parsed → s.inputFits → 8 * s.payload.length ≤ s.params.outMax.toNat →
    ∃ t, exec .unpack s = .next t ∧ t.err = false ∧ t.bitLen.toNat = 8 * s.payload.length ∧
      t.trailBits.toNat ≤ t.bitLen.toNat ∧ t.trunc = (t.trailBits != 0)

/-- R206: with pairwise different codes the output of UNPACK does not depend on the order of the entries. -/
def Obligations.UnpackIgnoresTheEntryOrder : Prop :=
  ∀ s s' t t' : State, s' = { s with ctab := s'.ctab } → s'.ctabValid.Perm s.ctabValid →
    (s.ctabValid.map (·.code)).Nodup → exec .unpack s = .next t → exec .unpack s' = .next t' →
    t.output = t'.output ∧ t' = { t with ctab := t'.ctab }

/-- R210: DEC is PARSE and then UNPACK; an error of PARSE ends it. -/
def Obligations.DecIsParseThenUnpack : Prop :=
  ∀ s : State, s.ready .empty → ∃ t, exec .parse s = .next t ∧
    (t.err = false → t.ready .parsed ∧ exec .dec s = exec .unpack t) ∧
    (t.err = true → exec .dec s = .next t)

/-- R207, R210: DEC of the stream of a text, with a prefix-free table that has all its bytes, completes with
the text followed by the pad bits decoded: as many copies of the symbol with the all-zero code as fit, the
rest in TRAILBITS. All but the table, the output and their registers is unchanged. -/
def Obligations.DecOfAnEncodedStream : Prop :=
  ∀ (s : State) (T : List CtabEntry) (x : Bytes), s.ready .empty → s.inputFits →
    TableFits T → PrefixFree T → hasUnknown T x = false → s.input = encodedStream T x →
    x.length + 7 ≤ s.params.outMax.toNat →
    ∃ t y, exec .dec s = .next t ∧
      t = { s with
        busy := false, done := true, phase := .parsed, ctab := t.ctab,
        nent := BitVec.ofNat 32 T.length, hdrLen := BitVec.ofNat 32 (header T).length,
        obuf := t.obuf, outLen := t.outLen, bitLen := t.bitLen, trailBits := t.trailBits,
        trunc := t.trailBits != 0 } ∧
      t.ctabValid = T ∧ t.output = x ++ y ∧
      t.bitLen.toNat = (encodedBits T x).length + padCount (encodedBits T x).length ∧
      (∀ e ∈ T, (∀ b ∈ e.code, b = false) →
        y = List.replicate (padCount (encodedBits T x).length / e.code.length) e.sym ∧
        t.trailBits.toNat = padCount (encodedBits T x).length % e.code.length) ∧
      ((∀ e ∈ T, ∃ b ∈ e.code, b = true) →
        y = [] ∧ t.trailBits.toNat = padCount (encodedBits T x).length) ∧
      (∀ a, t.outLen.toNat ≤ a → t.obufByte a = s.obufByte a) ∧
      (∀ i, T.length ≤ i → t.ctabSlot i = s.ctabSlot i)

/-- R207, R264: a text encoded by ENC in one session and decoded by DEC in another comes back followed by the
pad bits decoded: with exactly one all-zero code `c0`, of symbol `s0`, by PADBITS div |c0| copies of `s0`, so
it comes back exactly when PADBITS < |c0|, always when PADBITS = 0; TRAILBITS is the remainder. -/
def Obligations.DecOfEncIsTheText : Prop :=
  ∀ s t s' : State, s.ready .empty → s.inputFits → exec .enc s = .next t → t.err = false →
    s'.ready .empty → s'.inputFits → s'.input = t.output →
    s.input.length + 7 ≤ s'.params.outMax.toNat →
    ∃ t' y, exec .dec s' = .next t' ∧ t'.err = false ∧ t'.phase = .parsed ∧
      t'.ctabValid = t.ctabValid ∧ t'.output = s.input ++ y ∧
      (t.padBits = 0 → y = [] ∧ t'.trailBits = 0) ∧
      (s.input ≠ [] → ∃ s0 c0, { sym := s0, code := c0 } ∈ t.ctabValid ∧ (∀ b ∈ c0, b = false) ∧
        (∀ e ∈ t.ctabValid, (∀ b ∈ e.code, b = false) → e = { sym := s0, code := c0 }) ∧
        y = List.replicate (t.padBits.toNat / c0.length) s0 ∧
        t'.trailBits.toNat = t.padBits.toNat % c0.length ∧
        (y = [] ↔ t.padBits.toNat < c0.length))

/-! ### Frames and invariants -/

/-- R27, R41, R74: no command writes IN_LEN or IBUF, and none touches the capacities or the host's queue. -/
def Obligations.CommandsKeepTheInput : Prop :=
  ∀ (w : Word) (s t : State), issueWord w s = .next t →
    t.inLen = s.inLen ∧ t.ibuf = s.ibuf ∧ (∀ a, t.ibufByte a = s.ibufByte a) ∧ t.params = s.params ∧
    t.epoch = s.epoch ∧ t.hostQueue = s.hostQueue ∧ t.lastRead = s.lastRead ∧ t.freeCount = s.freeCount

/-- R42: after any command the bytes that OBUF holds at and beyond OUT_LEN are what they were before it (of the
store: a host read there is unspecified, log entry 10), and a command that changes OUT_LEN or a
byte of OBUF is CLR, PACK, ENC, UNPACK or DEC. -/
def Obligations.OutputBeyondOutLenIsKept : Prop :=
  ∀ (i : Instr) (s t : State), exec i s = .next t →
    (∀ a, t.outLen.toNat ≤ a → t.obufByte a = s.obufByte a) ∧
    ((t.outLen = s.outLen ∧ t.obuf = s.obuf) ∨ i = .clr ∨ i = .pack ∨ i = .enc ∨ i = .unpack ∨ i = .dec)

/-- R25, R224: NF stays set until CLR or reset, whatever the host does. -/
def Obligations.NfIsSticky : Prop :=
  ∀ (a : HostAccess) (s t : State), s.nf = true → hostStep a s = .next t → t.nf = false →
    a = .reset ∨ ∃ w, a = .regWrite 0 w ∧ decode w = .command .clr

/-- R256, R34, R35: once made, FTAB, the tree and CTAB stay as they are until CLR or reset, whatever the host
does. -/
def Obligations.TablesAreImmutableInASession : Prop :=
  ∀ (a : HostAccess) (s t : State), hostStep a s = .next t → a ≠ .reset →
    (∀ w, a = .regWrite 0 w → decode w ≠ .command .clr) →
    (s.phase ≠ .empty → t.phase ≠ .empty ∧ t.ftabValid = s.ftabValid) ∧
    (s.phase = .treed ∨ s.phase = .coded ∨ s.phase = .parsed →
      t.nodeValid = s.nodeValid ∧ t.root = s.root) ∧
    (s.phase = .coded ∨ s.phase = .parsed → t.phase = s.phase ∧ t.ctabValid = s.ctabValid)

/-- Every step keeps the invariants of a state: the canonical form of the buffers and tables, the capacities and
KEY_MAX (R6, R36), `OUT_LEN <= OUT_MAX` (R28), the counts of each phase (R29), the flags' agreement (R24,
R25). -/
def Obligations.StepKeepsTheInvariants : Prop :=
  ∀ s t : State, s.Inv → step s = .next t → t.Inv

/-- The state after a reset, of any instance, meets the invariants. -/
def Obligations.ResetMeetsTheInvariants : Prop :=
  State.reset.Inv ∧ State.reset.tablesOk ∧
  ∀ (p : Params) (e n : Nat) (q : List HostAccess) (d : HostData),
    (State.afterReset p e n q d).Inv ∧ (State.afterReset p e n q d).tablesOk

/-- Every step keeps what the valid tables satisfy in each phase: the frequency table's order and counts
(R34), the tree invariants (R37), a prefix-free code table of the same symbols with codes of 1 to 255 bits
(R35, R170). -/
def Obligations.StepKeepsTheTables : Prop :=
  ∀ s t : State, s.Inv → s.tablesOk → step s = .next t → t.tablesOk
end

