-- ==== Sys2Proof/Laws/State.lean ====
section
/-! SUPPORT. What each named update of State leaves in each field, one lemma a field, so that no later
proof unfolds an update. -/

namespace Sys2Proof.Machine

variable (s : State)

/-! ### beginCommand -/

@[simp] theorem beginCommand_busy : (beginCommand s).busy = true := rfl
@[simp] theorem beginCommand_done : (beginCommand s).done = false := rfl
@[simp] theorem beginCommand_err : (beginCommand s).err = s.err := rfl
@[simp] theorem beginCommand_nf : (beginCommand s).nf = s.nf := rfl
@[simp] theorem beginCommand_pad : (beginCommand s).pad = s.pad := rfl
@[simp] theorem beginCommand_trunc : (beginCommand s).trunc = s.trunc := rfl
@[simp] theorem beginCommand_phase : (beginCommand s).phase = s.phase := rfl
@[simp] theorem beginCommand_errcode : (beginCommand s).errcode = s.errcode := rfl
@[simp] theorem beginCommand_inLen : (beginCommand s).inLen = s.inLen := rfl
@[simp] theorem beginCommand_outLen : (beginCommand s).outLen = s.outLen := rfl
@[simp] theorem beginCommand_nsym : (beginCommand s).nsym = s.nsym := rfl
@[simp] theorem beginCommand_nent : (beginCommand s).nent = s.nent := rfl
@[simp] theorem beginCommand_nnode : (beginCommand s).nnode = s.nnode := rfl
@[simp] theorem beginCommand_root : (beginCommand s).root = s.root := rfl
@[simp] theorem beginCommand_bitLen : (beginCommand s).bitLen = s.bitLen := rfl
@[simp] theorem beginCommand_padBits : (beginCommand s).padBits = s.padBits := rfl
@[simp] theorem beginCommand_trailBits : (beginCommand s).trailBits = s.trailBits := rfl
@[simp] theorem beginCommand_hdrLen : (beginCommand s).hdrLen = s.hdrLen := rfl
@[simp] theorem beginCommand_resFound : (beginCommand s).resFound = s.resFound := rfl
@[simp] theorem beginCommand_resSym : (beginCommand s).resSym = s.resSym := rfl
@[simp] theorem beginCommand_resLen : (beginCommand s).resLen = s.resLen := rfl
@[simp] theorem beginCommand_resCode : (beginCommand s).resCode = s.resCode := rfl
@[simp] theorem beginCommand_ibuf : (beginCommand s).ibuf = s.ibuf := rfl
@[simp] theorem beginCommand_obuf : (beginCommand s).obuf = s.obuf := rfl
@[simp] theorem beginCommand_ftab : (beginCommand s).ftab = s.ftab := rfl
@[simp] theorem beginCommand_ctab : (beginCommand s).ctab = s.ctab := rfl
@[simp] theorem beginCommand_node : (beginCommand s).node = s.node := rfl
@[simp] theorem beginCommand_params : (beginCommand s).params = s.params := rfl
@[simp] theorem beginCommand_epoch : (beginCommand s).epoch = s.epoch := rfl
@[simp] theorem beginCommand_freeCount : (beginCommand s).freeCount = s.freeCount := rfl
@[simp] theorem beginCommand_hostQueue : (beginCommand s).hostQueue = s.hostQueue := rfl
@[simp] theorem beginCommand_lastRead : (beginCommand s).lastRead = s.lastRead := rfl

/-! ### finishCommand -/

@[simp] theorem finishCommand_busy : (finishCommand s).busy = false := rfl
@[simp] theorem finishCommand_done : (finishCommand s).done = true := rfl
@[simp] theorem finishCommand_err : (finishCommand s).err = s.err := rfl
@[simp] theorem finishCommand_nf : (finishCommand s).nf = s.nf := rfl
@[simp] theorem finishCommand_pad : (finishCommand s).pad = s.pad := rfl
@[simp] theorem finishCommand_trunc : (finishCommand s).trunc = s.trunc := rfl
@[simp] theorem finishCommand_phase : (finishCommand s).phase = s.phase := rfl
@[simp] theorem finishCommand_errcode : (finishCommand s).errcode = s.errcode := rfl
@[simp] theorem finishCommand_inLen : (finishCommand s).inLen = s.inLen := rfl
@[simp] theorem finishCommand_outLen : (finishCommand s).outLen = s.outLen := rfl
@[simp] theorem finishCommand_nsym : (finishCommand s).nsym = s.nsym := rfl
@[simp] theorem finishCommand_nent : (finishCommand s).nent = s.nent := rfl
@[simp] theorem finishCommand_nnode : (finishCommand s).nnode = s.nnode := rfl
@[simp] theorem finishCommand_root : (finishCommand s).root = s.root := rfl
@[simp] theorem finishCommand_bitLen : (finishCommand s).bitLen = s.bitLen := rfl
@[simp] theorem finishCommand_padBits : (finishCommand s).padBits = s.padBits := rfl
@[simp] theorem finishCommand_trailBits : (finishCommand s).trailBits = s.trailBits := rfl
@[simp] theorem finishCommand_hdrLen : (finishCommand s).hdrLen = s.hdrLen := rfl
@[simp] theorem finishCommand_resFound : (finishCommand s).resFound = s.resFound := rfl
@[simp] theorem finishCommand_resSym : (finishCommand s).resSym = s.resSym := rfl
@[simp] theorem finishCommand_resLen : (finishCommand s).resLen = s.resLen := rfl
@[simp] theorem finishCommand_resCode : (finishCommand s).resCode = s.resCode := rfl
@[simp] theorem finishCommand_ibuf : (finishCommand s).ibuf = s.ibuf := rfl
@[simp] theorem finishCommand_obuf : (finishCommand s).obuf = s.obuf := rfl
@[simp] theorem finishCommand_ftab : (finishCommand s).ftab = s.ftab := rfl
@[simp] theorem finishCommand_ctab : (finishCommand s).ctab = s.ctab := rfl
@[simp] theorem finishCommand_node : (finishCommand s).node = s.node := rfl
@[simp] theorem finishCommand_params : (finishCommand s).params = s.params := rfl
@[simp] theorem finishCommand_epoch : (finishCommand s).epoch = s.epoch := rfl
@[simp] theorem finishCommand_freeCount : (finishCommand s).freeCount = s.freeCount := rfl
@[simp] theorem finishCommand_hostQueue : (finishCommand s).hostQueue = s.hostQueue := rfl
@[simp] theorem finishCommand_lastRead : (finishCommand s).lastRead = s.lastRead := rfl

/-! ### raiseError -/

@[simp] theorem raiseError_busy (e : ErrCode) : (raiseError e s).busy = false := rfl
@[simp] theorem raiseError_done (e : ErrCode) : (raiseError e s).done = true := rfl
@[simp] theorem raiseError_err (e : ErrCode) : (raiseError e s).err = true := rfl
@[simp] theorem raiseError_nf (e : ErrCode) : (raiseError e s).nf = s.nf := rfl
@[simp] theorem raiseError_pad (e : ErrCode) : (raiseError e s).pad = s.pad := rfl
@[simp] theorem raiseError_trunc (e : ErrCode) : (raiseError e s).trunc = s.trunc := rfl
@[simp] theorem raiseError_phase (e : ErrCode) : (raiseError e s).phase = s.phase := rfl
@[simp] theorem raiseError_errcode (e : ErrCode) : (raiseError e s).errcode = (if s.err then s.errcode else e) := rfl
@[simp] theorem raiseError_inLen (e : ErrCode) : (raiseError e s).inLen = s.inLen := rfl
@[simp] theorem raiseError_outLen (e : ErrCode) : (raiseError e s).outLen = s.outLen := rfl
@[simp] theorem raiseError_nsym (e : ErrCode) : (raiseError e s).nsym = s.nsym := rfl
@[simp] theorem raiseError_nent (e : ErrCode) : (raiseError e s).nent = s.nent := rfl
@[simp] theorem raiseError_nnode (e : ErrCode) : (raiseError e s).nnode = s.nnode := rfl
@[simp] theorem raiseError_root (e : ErrCode) : (raiseError e s).root = s.root := rfl
@[simp] theorem raiseError_bitLen (e : ErrCode) : (raiseError e s).bitLen = s.bitLen := rfl
@[simp] theorem raiseError_padBits (e : ErrCode) : (raiseError e s).padBits = s.padBits := rfl
@[simp] theorem raiseError_trailBits (e : ErrCode) : (raiseError e s).trailBits = s.trailBits := rfl
@[simp] theorem raiseError_hdrLen (e : ErrCode) : (raiseError e s).hdrLen = s.hdrLen := rfl
@[simp] theorem raiseError_resFound (e : ErrCode) : (raiseError e s).resFound = s.resFound := rfl
@[simp] theorem raiseError_resSym (e : ErrCode) : (raiseError e s).resSym = s.resSym := rfl
@[simp] theorem raiseError_resLen (e : ErrCode) : (raiseError e s).resLen = s.resLen := rfl
@[simp] theorem raiseError_resCode (e : ErrCode) : (raiseError e s).resCode = s.resCode := rfl
@[simp] theorem raiseError_ibuf (e : ErrCode) : (raiseError e s).ibuf = s.ibuf := rfl
@[simp] theorem raiseError_obuf (e : ErrCode) : (raiseError e s).obuf = s.obuf := rfl
@[simp] theorem raiseError_ftab (e : ErrCode) : (raiseError e s).ftab = s.ftab := rfl
@[simp] theorem raiseError_ctab (e : ErrCode) : (raiseError e s).ctab = s.ctab := rfl
@[simp] theorem raiseError_node (e : ErrCode) : (raiseError e s).node = s.node := rfl
@[simp] theorem raiseError_params (e : ErrCode) : (raiseError e s).params = s.params := rfl
@[simp] theorem raiseError_epoch (e : ErrCode) : (raiseError e s).epoch = s.epoch := rfl
@[simp] theorem raiseError_freeCount (e : ErrCode) : (raiseError e s).freeCount = s.freeCount := rfl
@[simp] theorem raiseError_hostQueue (e : ErrCode) : (raiseError e s).hostQueue = s.hostQueue := rfl
@[simp] theorem raiseError_lastRead (e : ErrCode) : (raiseError e s).lastRead = s.lastRead := rfl

/-! ### clearSession -/

@[simp] theorem clearSession_busy : (clearSession s).busy = s.busy := rfl
@[simp] theorem clearSession_done : (clearSession s).done = s.done := rfl
@[simp] theorem clearSession_err : (clearSession s).err = false := rfl
@[simp] theorem clearSession_nf : (clearSession s).nf = false := rfl
@[simp] theorem clearSession_pad : (clearSession s).pad = false := rfl
@[simp] theorem clearSession_trunc : (clearSession s).trunc = false := rfl
@[simp] theorem clearSession_phase : (clearSession s).phase = .empty := rfl
@[simp] theorem clearSession_errcode : (clearSession s).errcode = .none := rfl
@[simp] theorem clearSession_inLen : (clearSession s).inLen = s.inLen := rfl
@[simp] theorem clearSession_outLen : (clearSession s).outLen = 0 := rfl
@[simp] theorem clearSession_nsym : (clearSession s).nsym = 0 := rfl
@[simp] theorem clearSession_nent : (clearSession s).nent = 0 := rfl
@[simp] theorem clearSession_nnode : (clearSession s).nnode = 0 := rfl
@[simp] theorem clearSession_root : (clearSession s).root = Config.none9 := rfl
@[simp] theorem clearSession_bitLen : (clearSession s).bitLen = 0 := rfl
@[simp] theorem clearSession_padBits : (clearSession s).padBits = 0 := rfl
@[simp] theorem clearSession_trailBits : (clearSession s).trailBits = 0 := rfl
@[simp] theorem clearSession_hdrLen : (clearSession s).hdrLen = 0 := rfl
@[simp] theorem clearSession_resFound : (clearSession s).resFound = false := rfl
@[simp] theorem clearSession_resSym : (clearSession s).resSym = 0 := rfl
@[simp] theorem clearSession_resLen : (clearSession s).resLen = 0 := rfl
@[simp] theorem clearSession_resCode : (clearSession s).resCode = #v[0, 0, 0, 0, 0, 0, 0, 0] := rfl
@[simp] theorem clearSession_ibuf : (clearSession s).ibuf = s.ibuf := rfl
@[simp] theorem clearSession_obuf : (clearSession s).obuf = s.obuf := rfl
@[simp] theorem clearSession_ftab : (clearSession s).ftab = s.ftab := rfl
@[simp] theorem clearSession_ctab : (clearSession s).ctab = s.ctab := rfl
@[simp] theorem clearSession_node : (clearSession s).node = s.node := rfl
@[simp] theorem clearSession_params : (clearSession s).params = s.params := rfl
@[simp] theorem clearSession_epoch : (clearSession s).epoch = s.epoch := rfl
@[simp] theorem clearSession_freeCount : (clearSession s).freeCount = s.freeCount := rfl
@[simp] theorem clearSession_hostQueue : (clearSession s).hostQueue = s.hostQueue := rfl
@[simp] theorem clearSession_lastRead : (clearSession s).lastRead = s.lastRead := rfl

/-! ### beginPack -/

@[simp] theorem beginPack_busy : (beginPack s).busy = s.busy := rfl
@[simp] theorem beginPack_done : (beginPack s).done = s.done := rfl
@[simp] theorem beginPack_err : (beginPack s).err = s.err := rfl
@[simp] theorem beginPack_nf : (beginPack s).nf = s.nf := rfl
@[simp] theorem beginPack_pad : (beginPack s).pad = false := rfl
@[simp] theorem beginPack_trunc : (beginPack s).trunc = s.trunc := rfl
@[simp] theorem beginPack_phase : (beginPack s).phase = s.phase := rfl
@[simp] theorem beginPack_errcode : (beginPack s).errcode = s.errcode := rfl
@[simp] theorem beginPack_inLen : (beginPack s).inLen = s.inLen := rfl
@[simp] theorem beginPack_outLen : (beginPack s).outLen = 0 := rfl
@[simp] theorem beginPack_nsym : (beginPack s).nsym = s.nsym := rfl
@[simp] theorem beginPack_nent : (beginPack s).nent = s.nent := rfl
@[simp] theorem beginPack_nnode : (beginPack s).nnode = s.nnode := rfl
@[simp] theorem beginPack_root : (beginPack s).root = s.root := rfl
@[simp] theorem beginPack_bitLen : (beginPack s).bitLen = 0 := rfl
@[simp] theorem beginPack_padBits : (beginPack s).padBits = 0 := rfl
@[simp] theorem beginPack_trailBits : (beginPack s).trailBits = s.trailBits := rfl
@[simp] theorem beginPack_hdrLen : (beginPack s).hdrLen = 0 := rfl
@[simp] theorem beginPack_resFound : (beginPack s).resFound = s.resFound := rfl
@[simp] theorem beginPack_resSym : (beginPack s).resSym = s.resSym := rfl
@[simp] theorem beginPack_resLen : (beginPack s).resLen = s.resLen := rfl
@[simp] theorem beginPack_resCode : (beginPack s).resCode = s.resCode := rfl
@[simp] theorem beginPack_ibuf : (beginPack s).ibuf = s.ibuf := rfl
@[simp] theorem beginPack_obuf : (beginPack s).obuf = s.obuf := rfl
@[simp] theorem beginPack_ftab : (beginPack s).ftab = s.ftab := rfl
@[simp] theorem beginPack_ctab : (beginPack s).ctab = s.ctab := rfl
@[simp] theorem beginPack_node : (beginPack s).node = s.node := rfl
@[simp] theorem beginPack_params : (beginPack s).params = s.params := rfl
@[simp] theorem beginPack_epoch : (beginPack s).epoch = s.epoch := rfl
@[simp] theorem beginPack_freeCount : (beginPack s).freeCount = s.freeCount := rfl
@[simp] theorem beginPack_hostQueue : (beginPack s).hostQueue = s.hostQueue := rfl
@[simp] theorem beginPack_lastRead : (beginPack s).lastRead = s.lastRead := rfl

/-! ### setPackCounts -/

@[simp] theorem setPackCounts_busy (n : Nat) : (setPackCounts n s).busy = s.busy := rfl
@[simp] theorem setPackCounts_done (n : Nat) : (setPackCounts n s).done = s.done := rfl
@[simp] theorem setPackCounts_err (n : Nat) : (setPackCounts n s).err = s.err := rfl
@[simp] theorem setPackCounts_nf (n : Nat) : (setPackCounts n s).nf = s.nf := rfl
@[simp] theorem setPackCounts_pad (n : Nat) : (setPackCounts n s).pad = (padCount n != 0) := rfl
@[simp] theorem setPackCounts_trunc (n : Nat) : (setPackCounts n s).trunc = s.trunc := rfl
@[simp] theorem setPackCounts_phase (n : Nat) : (setPackCounts n s).phase = s.phase := rfl
@[simp] theorem setPackCounts_errcode (n : Nat) : (setPackCounts n s).errcode = s.errcode := rfl
@[simp] theorem setPackCounts_inLen (n : Nat) : (setPackCounts n s).inLen = s.inLen := rfl
@[simp] theorem setPackCounts_outLen (n : Nat) : (setPackCounts n s).outLen = s.outLen := rfl
@[simp] theorem setPackCounts_nsym (n : Nat) : (setPackCounts n s).nsym = s.nsym := rfl
@[simp] theorem setPackCounts_nent (n : Nat) : (setPackCounts n s).nent = s.nent := rfl
@[simp] theorem setPackCounts_nnode (n : Nat) : (setPackCounts n s).nnode = s.nnode := rfl
@[simp] theorem setPackCounts_root (n : Nat) : (setPackCounts n s).root = s.root := rfl
@[simp] theorem setPackCounts_bitLen (n : Nat) : (setPackCounts n s).bitLen = BitVec.ofNat 32 n := rfl
@[simp] theorem setPackCounts_padBits (n : Nat) : (setPackCounts n s).padBits = BitVec.ofNat 32 (padCount n) := rfl
@[simp] theorem setPackCounts_trailBits (n : Nat) : (setPackCounts n s).trailBits = s.trailBits := rfl
@[simp] theorem setPackCounts_hdrLen (n : Nat) : (setPackCounts n s).hdrLen = s.hdrLen := rfl
@[simp] theorem setPackCounts_resFound (n : Nat) : (setPackCounts n s).resFound = s.resFound := rfl
@[simp] theorem setPackCounts_resSym (n : Nat) : (setPackCounts n s).resSym = s.resSym := rfl
@[simp] theorem setPackCounts_resLen (n : Nat) : (setPackCounts n s).resLen = s.resLen := rfl
@[simp] theorem setPackCounts_resCode (n : Nat) : (setPackCounts n s).resCode = s.resCode := rfl
@[simp] theorem setPackCounts_ibuf (n : Nat) : (setPackCounts n s).ibuf = s.ibuf := rfl
@[simp] theorem setPackCounts_obuf (n : Nat) : (setPackCounts n s).obuf = s.obuf := rfl
@[simp] theorem setPackCounts_ftab (n : Nat) : (setPackCounts n s).ftab = s.ftab := rfl
@[simp] theorem setPackCounts_ctab (n : Nat) : (setPackCounts n s).ctab = s.ctab := rfl
@[simp] theorem setPackCounts_node (n : Nat) : (setPackCounts n s).node = s.node := rfl
@[simp] theorem setPackCounts_params (n : Nat) : (setPackCounts n s).params = s.params := rfl
@[simp] theorem setPackCounts_epoch (n : Nat) : (setPackCounts n s).epoch = s.epoch := rfl
@[simp] theorem setPackCounts_freeCount (n : Nat) : (setPackCounts n s).freeCount = s.freeCount := rfl
@[simp] theorem setPackCounts_hostQueue (n : Nat) : (setPackCounts n s).hostQueue = s.hostQueue := rfl
@[simp] theorem setPackCounts_lastRead (n : Nat) : (setPackCounts n s).lastRead = s.lastRead := rfl

/-! ### beginUnpack -/

@[simp] theorem beginUnpack_busy : (beginUnpack s).busy = s.busy := rfl
@[simp] theorem beginUnpack_done : (beginUnpack s).done = s.done := rfl
@[simp] theorem beginUnpack_err : (beginUnpack s).err = s.err := rfl
@[simp] theorem beginUnpack_nf : (beginUnpack s).nf = s.nf := rfl
@[simp] theorem beginUnpack_pad : (beginUnpack s).pad = s.pad := rfl
@[simp] theorem beginUnpack_trunc : (beginUnpack s).trunc = false := rfl
@[simp] theorem beginUnpack_phase : (beginUnpack s).phase = s.phase := rfl
@[simp] theorem beginUnpack_errcode : (beginUnpack s).errcode = s.errcode := rfl
@[simp] theorem beginUnpack_inLen : (beginUnpack s).inLen = s.inLen := rfl
@[simp] theorem beginUnpack_outLen : (beginUnpack s).outLen = 0 := rfl
@[simp] theorem beginUnpack_nsym : (beginUnpack s).nsym = s.nsym := rfl
@[simp] theorem beginUnpack_nent : (beginUnpack s).nent = s.nent := rfl
@[simp] theorem beginUnpack_nnode : (beginUnpack s).nnode = s.nnode := rfl
@[simp] theorem beginUnpack_root : (beginUnpack s).root = s.root := rfl
@[simp] theorem beginUnpack_bitLen : (beginUnpack s).bitLen = 0 := rfl
@[simp] theorem beginUnpack_padBits : (beginUnpack s).padBits = s.padBits := rfl
@[simp] theorem beginUnpack_trailBits : (beginUnpack s).trailBits = 0 := rfl
@[simp] theorem beginUnpack_hdrLen : (beginUnpack s).hdrLen = s.hdrLen := rfl
@[simp] theorem beginUnpack_resFound : (beginUnpack s).resFound = s.resFound := rfl
@[simp] theorem beginUnpack_resSym : (beginUnpack s).resSym = s.resSym := rfl
@[simp] theorem beginUnpack_resLen : (beginUnpack s).resLen = s.resLen := rfl
@[simp] theorem beginUnpack_resCode : (beginUnpack s).resCode = s.resCode := rfl
@[simp] theorem beginUnpack_ibuf : (beginUnpack s).ibuf = s.ibuf := rfl
@[simp] theorem beginUnpack_obuf : (beginUnpack s).obuf = s.obuf := rfl
@[simp] theorem beginUnpack_ftab : (beginUnpack s).ftab = s.ftab := rfl
@[simp] theorem beginUnpack_ctab : (beginUnpack s).ctab = s.ctab := rfl
@[simp] theorem beginUnpack_node : (beginUnpack s).node = s.node := rfl
@[simp] theorem beginUnpack_params : (beginUnpack s).params = s.params := rfl
@[simp] theorem beginUnpack_epoch : (beginUnpack s).epoch = s.epoch := rfl
@[simp] theorem beginUnpack_freeCount : (beginUnpack s).freeCount = s.freeCount := rfl
@[simp] theorem beginUnpack_hostQueue : (beginUnpack s).hostQueue = s.hostQueue := rfl
@[simp] theorem beginUnpack_lastRead : (beginUnpack s).lastRead = s.lastRead := rfl

/-! ### setUnpackCounts -/

@[simp] theorem setUnpackCounts_busy (n k : Nat) : (setUnpackCounts n k s).busy = s.busy := rfl
@[simp] theorem setUnpackCounts_done (n k : Nat) : (setUnpackCounts n k s).done = s.done := rfl
@[simp] theorem setUnpackCounts_err (n k : Nat) : (setUnpackCounts n k s).err = s.err := rfl
@[simp] theorem setUnpackCounts_nf (n k : Nat) : (setUnpackCounts n k s).nf = s.nf := rfl
@[simp] theorem setUnpackCounts_pad (n k : Nat) : (setUnpackCounts n k s).pad = s.pad := rfl
@[simp] theorem setUnpackCounts_trunc (n k : Nat) : (setUnpackCounts n k s).trunc = (k != 0) := rfl
@[simp] theorem setUnpackCounts_phase (n k : Nat) : (setUnpackCounts n k s).phase = s.phase := rfl
@[simp] theorem setUnpackCounts_errcode (n k : Nat) : (setUnpackCounts n k s).errcode = s.errcode := rfl
@[simp] theorem setUnpackCounts_inLen (n k : Nat) : (setUnpackCounts n k s).inLen = s.inLen := rfl
@[simp] theorem setUnpackCounts_outLen (n k : Nat) : (setUnpackCounts n k s).outLen = s.outLen := rfl
@[simp] theorem setUnpackCounts_nsym (n k : Nat) : (setUnpackCounts n k s).nsym = s.nsym := rfl
@[simp] theorem setUnpackCounts_nent (n k : Nat) : (setUnpackCounts n k s).nent = s.nent := rfl
@[simp] theorem setUnpackCounts_nnode (n k : Nat) : (setUnpackCounts n k s).nnode = s.nnode := rfl
@[simp] theorem setUnpackCounts_root (n k : Nat) : (setUnpackCounts n k s).root = s.root := rfl
@[simp] theorem setUnpackCounts_bitLen (n k : Nat) : (setUnpackCounts n k s).bitLen = BitVec.ofNat 32 n := rfl
@[simp] theorem setUnpackCounts_padBits (n k : Nat) : (setUnpackCounts n k s).padBits = s.padBits := rfl
@[simp] theorem setUnpackCounts_trailBits (n k : Nat) : (setUnpackCounts n k s).trailBits = BitVec.ofNat 32 k := rfl
@[simp] theorem setUnpackCounts_hdrLen (n k : Nat) : (setUnpackCounts n k s).hdrLen = s.hdrLen := rfl
@[simp] theorem setUnpackCounts_resFound (n k : Nat) : (setUnpackCounts n k s).resFound = s.resFound := rfl
@[simp] theorem setUnpackCounts_resSym (n k : Nat) : (setUnpackCounts n k s).resSym = s.resSym := rfl
@[simp] theorem setUnpackCounts_resLen (n k : Nat) : (setUnpackCounts n k s).resLen = s.resLen := rfl
@[simp] theorem setUnpackCounts_resCode (n k : Nat) : (setUnpackCounts n k s).resCode = s.resCode := rfl
@[simp] theorem setUnpackCounts_ibuf (n k : Nat) : (setUnpackCounts n k s).ibuf = s.ibuf := rfl
@[simp] theorem setUnpackCounts_obuf (n k : Nat) : (setUnpackCounts n k s).obuf = s.obuf := rfl
@[simp] theorem setUnpackCounts_ftab (n k : Nat) : (setUnpackCounts n k s).ftab = s.ftab := rfl
@[simp] theorem setUnpackCounts_ctab (n k : Nat) : (setUnpackCounts n k s).ctab = s.ctab := rfl
@[simp] theorem setUnpackCounts_node (n k : Nat) : (setUnpackCounts n k s).node = s.node := rfl
@[simp] theorem setUnpackCounts_params (n k : Nat) : (setUnpackCounts n k s).params = s.params := rfl
@[simp] theorem setUnpackCounts_epoch (n k : Nat) : (setUnpackCounts n k s).epoch = s.epoch := rfl
@[simp] theorem setUnpackCounts_freeCount (n k : Nat) : (setUnpackCounts n k s).freeCount = s.freeCount := rfl
@[simp] theorem setUnpackCounts_hostQueue (n k : Nat) : (setUnpackCounts n k s).hostQueue = s.hostQueue := rfl
@[simp] theorem setUnpackCounts_lastRead (n k : Nat) : (setUnpackCounts n k s).lastRead = s.lastRead := rfl

/-! ### setNotFound -/

@[simp] theorem setNotFound_busy (sym : Byte) : (setNotFound sym s).busy = s.busy := rfl
@[simp] theorem setNotFound_done (sym : Byte) : (setNotFound sym s).done = s.done := rfl
@[simp] theorem setNotFound_err (sym : Byte) : (setNotFound sym s).err = s.err := rfl
@[simp] theorem setNotFound_nf (sym : Byte) : (setNotFound sym s).nf = true := rfl
@[simp] theorem setNotFound_pad (sym : Byte) : (setNotFound sym s).pad = s.pad := rfl
@[simp] theorem setNotFound_trunc (sym : Byte) : (setNotFound sym s).trunc = s.trunc := rfl
@[simp] theorem setNotFound_phase (sym : Byte) : (setNotFound sym s).phase = s.phase := rfl
@[simp] theorem setNotFound_errcode (sym : Byte) : (setNotFound sym s).errcode = s.errcode := rfl
@[simp] theorem setNotFound_inLen (sym : Byte) : (setNotFound sym s).inLen = s.inLen := rfl
@[simp] theorem setNotFound_outLen (sym : Byte) : (setNotFound sym s).outLen = s.outLen := rfl
@[simp] theorem setNotFound_nsym (sym : Byte) : (setNotFound sym s).nsym = s.nsym := rfl
@[simp] theorem setNotFound_nent (sym : Byte) : (setNotFound sym s).nent = s.nent := rfl
@[simp] theorem setNotFound_nnode (sym : Byte) : (setNotFound sym s).nnode = s.nnode := rfl
@[simp] theorem setNotFound_root (sym : Byte) : (setNotFound sym s).root = s.root := rfl
@[simp] theorem setNotFound_bitLen (sym : Byte) : (setNotFound sym s).bitLen = s.bitLen := rfl
@[simp] theorem setNotFound_padBits (sym : Byte) : (setNotFound sym s).padBits = s.padBits := rfl
@[simp] theorem setNotFound_trailBits (sym : Byte) : (setNotFound sym s).trailBits = s.trailBits := rfl
@[simp] theorem setNotFound_hdrLen (sym : Byte) : (setNotFound sym s).hdrLen = s.hdrLen := rfl
@[simp] theorem setNotFound_resFound (sym : Byte) : (setNotFound sym s).resFound = false := rfl
@[simp] theorem setNotFound_resSym (sym : Byte) : (setNotFound sym s).resSym = sym := rfl
@[simp] theorem setNotFound_resLen (sym : Byte) : (setNotFound sym s).resLen = 0 := rfl
@[simp] theorem setNotFound_resCode (sym : Byte) : (setNotFound sym s).resCode = codeWords [] := rfl
@[simp] theorem setNotFound_ibuf (sym : Byte) : (setNotFound sym s).ibuf = s.ibuf := rfl
@[simp] theorem setNotFound_obuf (sym : Byte) : (setNotFound sym s).obuf = s.obuf := rfl
@[simp] theorem setNotFound_ftab (sym : Byte) : (setNotFound sym s).ftab = s.ftab := rfl
@[simp] theorem setNotFound_ctab (sym : Byte) : (setNotFound sym s).ctab = s.ctab := rfl
@[simp] theorem setNotFound_node (sym : Byte) : (setNotFound sym s).node = s.node := rfl
@[simp] theorem setNotFound_params (sym : Byte) : (setNotFound sym s).params = s.params := rfl
@[simp] theorem setNotFound_epoch (sym : Byte) : (setNotFound sym s).epoch = s.epoch := rfl
@[simp] theorem setNotFound_freeCount (sym : Byte) : (setNotFound sym s).freeCount = s.freeCount := rfl
@[simp] theorem setNotFound_hostQueue (sym : Byte) : (setNotFound sym s).hostQueue = s.hostQueue := rfl
@[simp] theorem setNotFound_lastRead (sym : Byte) : (setNotFound sym s).lastRead = s.lastRead := rfl

/-! ### setFound -/

@[simp] theorem setFound_busy (sym : Byte) (c : Bits) : (setFound sym c s).busy = s.busy := rfl
@[simp] theorem setFound_done (sym : Byte) (c : Bits) : (setFound sym c s).done = s.done := rfl
@[simp] theorem setFound_err (sym : Byte) (c : Bits) : (setFound sym c s).err = s.err := rfl
@[simp] theorem setFound_nf (sym : Byte) (c : Bits) : (setFound sym c s).nf = s.nf := rfl
@[simp] theorem setFound_pad (sym : Byte) (c : Bits) : (setFound sym c s).pad = s.pad := rfl
@[simp] theorem setFound_trunc (sym : Byte) (c : Bits) : (setFound sym c s).trunc = s.trunc := rfl
@[simp] theorem setFound_phase (sym : Byte) (c : Bits) : (setFound sym c s).phase = s.phase := rfl
@[simp] theorem setFound_errcode (sym : Byte) (c : Bits) : (setFound sym c s).errcode = s.errcode := rfl
@[simp] theorem setFound_inLen (sym : Byte) (c : Bits) : (setFound sym c s).inLen = s.inLen := rfl
@[simp] theorem setFound_outLen (sym : Byte) (c : Bits) : (setFound sym c s).outLen = s.outLen := rfl
@[simp] theorem setFound_nsym (sym : Byte) (c : Bits) : (setFound sym c s).nsym = s.nsym := rfl
@[simp] theorem setFound_nent (sym : Byte) (c : Bits) : (setFound sym c s).nent = s.nent := rfl
@[simp] theorem setFound_nnode (sym : Byte) (c : Bits) : (setFound sym c s).nnode = s.nnode := rfl
@[simp] theorem setFound_root (sym : Byte) (c : Bits) : (setFound sym c s).root = s.root := rfl
@[simp] theorem setFound_bitLen (sym : Byte) (c : Bits) : (setFound sym c s).bitLen = s.bitLen := rfl
@[simp] theorem setFound_padBits (sym : Byte) (c : Bits) : (setFound sym c s).padBits = s.padBits := rfl
@[simp] theorem setFound_trailBits (sym : Byte) (c : Bits) : (setFound sym c s).trailBits = s.trailBits := rfl
@[simp] theorem setFound_hdrLen (sym : Byte) (c : Bits) : (setFound sym c s).hdrLen = s.hdrLen := rfl
@[simp] theorem setFound_resFound (sym : Byte) (c : Bits) : (setFound sym c s).resFound = true := rfl
@[simp] theorem setFound_resSym (sym : Byte) (c : Bits) : (setFound sym c s).resSym = sym := rfl
@[simp] theorem setFound_resLen (sym : Byte) (c : Bits) : (setFound sym c s).resLen = BitVec.ofNat 8 c.length := rfl
@[simp] theorem setFound_resCode (sym : Byte) (c : Bits) : (setFound sym c s).resCode = codeWords c := rfl
@[simp] theorem setFound_ibuf (sym : Byte) (c : Bits) : (setFound sym c s).ibuf = s.ibuf := rfl
@[simp] theorem setFound_obuf (sym : Byte) (c : Bits) : (setFound sym c s).obuf = s.obuf := rfl
@[simp] theorem setFound_ftab (sym : Byte) (c : Bits) : (setFound sym c s).ftab = s.ftab := rfl
@[simp] theorem setFound_ctab (sym : Byte) (c : Bits) : (setFound sym c s).ctab = s.ctab := rfl
@[simp] theorem setFound_node (sym : Byte) (c : Bits) : (setFound sym c s).node = s.node := rfl
@[simp] theorem setFound_params (sym : Byte) (c : Bits) : (setFound sym c s).params = s.params := rfl
@[simp] theorem setFound_epoch (sym : Byte) (c : Bits) : (setFound sym c s).epoch = s.epoch := rfl
@[simp] theorem setFound_freeCount (sym : Byte) (c : Bits) : (setFound sym c s).freeCount = s.freeCount := rfl
@[simp] theorem setFound_hostQueue (sym : Byte) (c : Bits) : (setFound sym c s).hostQueue = s.hostQueue := rfl
@[simp] theorem setFound_lastRead (sym : Byte) (c : Bits) : (setFound sym c s).lastRead = s.lastRead := rfl

/-! ### readsAs -/

@[simp] theorem readsAs_busy (d : HostData) : (readsAs d s).busy = s.busy := rfl
@[simp] theorem readsAs_done (d : HostData) : (readsAs d s).done = s.done := rfl
@[simp] theorem readsAs_err (d : HostData) : (readsAs d s).err = s.err := rfl
@[simp] theorem readsAs_nf (d : HostData) : (readsAs d s).nf = s.nf := rfl
@[simp] theorem readsAs_pad (d : HostData) : (readsAs d s).pad = s.pad := rfl
@[simp] theorem readsAs_trunc (d : HostData) : (readsAs d s).trunc = s.trunc := rfl
@[simp] theorem readsAs_phase (d : HostData) : (readsAs d s).phase = s.phase := rfl
@[simp] theorem readsAs_errcode (d : HostData) : (readsAs d s).errcode = s.errcode := rfl
@[simp] theorem readsAs_inLen (d : HostData) : (readsAs d s).inLen = s.inLen := rfl
@[simp] theorem readsAs_outLen (d : HostData) : (readsAs d s).outLen = s.outLen := rfl
@[simp] theorem readsAs_nsym (d : HostData) : (readsAs d s).nsym = s.nsym := rfl
@[simp] theorem readsAs_nent (d : HostData) : (readsAs d s).nent = s.nent := rfl
@[simp] theorem readsAs_nnode (d : HostData) : (readsAs d s).nnode = s.nnode := rfl
@[simp] theorem readsAs_root (d : HostData) : (readsAs d s).root = s.root := rfl
@[simp] theorem readsAs_bitLen (d : HostData) : (readsAs d s).bitLen = s.bitLen := rfl
@[simp] theorem readsAs_padBits (d : HostData) : (readsAs d s).padBits = s.padBits := rfl
@[simp] theorem readsAs_trailBits (d : HostData) : (readsAs d s).trailBits = s.trailBits := rfl
@[simp] theorem readsAs_hdrLen (d : HostData) : (readsAs d s).hdrLen = s.hdrLen := rfl
@[simp] theorem readsAs_resFound (d : HostData) : (readsAs d s).resFound = s.resFound := rfl
@[simp] theorem readsAs_resSym (d : HostData) : (readsAs d s).resSym = s.resSym := rfl
@[simp] theorem readsAs_resLen (d : HostData) : (readsAs d s).resLen = s.resLen := rfl
@[simp] theorem readsAs_resCode (d : HostData) : (readsAs d s).resCode = s.resCode := rfl
@[simp] theorem readsAs_ibuf (d : HostData) : (readsAs d s).ibuf = s.ibuf := rfl
@[simp] theorem readsAs_obuf (d : HostData) : (readsAs d s).obuf = s.obuf := rfl
@[simp] theorem readsAs_ftab (d : HostData) : (readsAs d s).ftab = s.ftab := rfl
@[simp] theorem readsAs_ctab (d : HostData) : (readsAs d s).ctab = s.ctab := rfl
@[simp] theorem readsAs_node (d : HostData) : (readsAs d s).node = s.node := rfl
@[simp] theorem readsAs_params (d : HostData) : (readsAs d s).params = s.params := rfl
@[simp] theorem readsAs_epoch (d : HostData) : (readsAs d s).epoch = s.epoch := rfl
@[simp] theorem readsAs_freeCount (d : HostData) : (readsAs d s).freeCount = s.freeCount := rfl
@[simp] theorem readsAs_hostQueue (d : HostData) : (readsAs d s).hostQueue = s.hostQueue := rfl
@[simp] theorem readsAs_lastRead (d : HostData) : (readsAs d s).lastRead = d := rfl

/-! ### readsFree -/

@[simp] theorem readsFree_busy (d : HostData) : (readsFree d s).busy = s.busy := rfl
@[simp] theorem readsFree_done (d : HostData) : (readsFree d s).done = s.done := rfl
@[simp] theorem readsFree_err (d : HostData) : (readsFree d s).err = s.err := rfl
@[simp] theorem readsFree_nf (d : HostData) : (readsFree d s).nf = s.nf := rfl
@[simp] theorem readsFree_pad (d : HostData) : (readsFree d s).pad = s.pad := rfl
@[simp] theorem readsFree_trunc (d : HostData) : (readsFree d s).trunc = s.trunc := rfl
@[simp] theorem readsFree_phase (d : HostData) : (readsFree d s).phase = s.phase := rfl
@[simp] theorem readsFree_errcode (d : HostData) : (readsFree d s).errcode = s.errcode := rfl
@[simp] theorem readsFree_inLen (d : HostData) : (readsFree d s).inLen = s.inLen := rfl
@[simp] theorem readsFree_outLen (d : HostData) : (readsFree d s).outLen = s.outLen := rfl
@[simp] theorem readsFree_nsym (d : HostData) : (readsFree d s).nsym = s.nsym := rfl
@[simp] theorem readsFree_nent (d : HostData) : (readsFree d s).nent = s.nent := rfl
@[simp] theorem readsFree_nnode (d : HostData) : (readsFree d s).nnode = s.nnode := rfl
@[simp] theorem readsFree_root (d : HostData) : (readsFree d s).root = s.root := rfl
@[simp] theorem readsFree_bitLen (d : HostData) : (readsFree d s).bitLen = s.bitLen := rfl
@[simp] theorem readsFree_padBits (d : HostData) : (readsFree d s).padBits = s.padBits := rfl
@[simp] theorem readsFree_trailBits (d : HostData) : (readsFree d s).trailBits = s.trailBits := rfl
@[simp] theorem readsFree_hdrLen (d : HostData) : (readsFree d s).hdrLen = s.hdrLen := rfl
@[simp] theorem readsFree_resFound (d : HostData) : (readsFree d s).resFound = s.resFound := rfl
@[simp] theorem readsFree_resSym (d : HostData) : (readsFree d s).resSym = s.resSym := rfl
@[simp] theorem readsFree_resLen (d : HostData) : (readsFree d s).resLen = s.resLen := rfl
@[simp] theorem readsFree_resCode (d : HostData) : (readsFree d s).resCode = s.resCode := rfl
@[simp] theorem readsFree_ibuf (d : HostData) : (readsFree d s).ibuf = s.ibuf := rfl
@[simp] theorem readsFree_obuf (d : HostData) : (readsFree d s).obuf = s.obuf := rfl
@[simp] theorem readsFree_ftab (d : HostData) : (readsFree d s).ftab = s.ftab := rfl
@[simp] theorem readsFree_ctab (d : HostData) : (readsFree d s).ctab = s.ctab := rfl
@[simp] theorem readsFree_node (d : HostData) : (readsFree d s).node = s.node := rfl
@[simp] theorem readsFree_params (d : HostData) : (readsFree d s).params = s.params := rfl
@[simp] theorem readsFree_epoch (d : HostData) : (readsFree d s).epoch = s.epoch := rfl
@[simp] theorem readsFree_freeCount (d : HostData) : (readsFree d s).freeCount = s.freeCount + 1 := rfl
@[simp] theorem readsFree_hostQueue (d : HostData) : (readsFree d s).hostQueue = s.hostQueue := rfl
@[simp] theorem readsFree_lastRead (d : HostData) : (readsFree d s).lastRead = d := rfl

end Sys2Proof.Machine
end

