-- ==== Sys2Proof/Laws/Store.lean ====
section
/-! SUPPORT. The laws of indexed stores: read after write, the canonical form, and the entries a run of
writes leaves. -/

namespace Sys2Proof.Machine

variable {α : Type}

@[simp] theorem Store.read_nil (a : Nat) : Store.read ([] : Store α) a = none := rfl

@[simp] theorem Store.read_write_same (m : Store α) (a : Nat) (v : α) :
    Store.read (Store.write m a v) a = some v := by
  induction m with
  | nil => simp [Store.write, Store.read]
  | cons c m ih =>
    obtain ⟨k, w⟩ := c
    simp only [Store.write]
    split
    · simp [Store.read]
    · split
      · simp [Store.read]
      · have hk : k ≠ a := by omega
        simp [Store.read, hk, ih]

theorem Store.read_write_ne (m : Store α) {a b : Nat} (v : α) (h : a ≠ b) :
    Store.read (Store.write m a v) b = Store.read m b := by
  induction m with
  | nil => simp [Store.write, Store.read, h]
  | cons c m ih =>
    obtain ⟨k, w⟩ := c
    simp only [Store.write]
    split
    · simp [Store.read, h]
    · split
      · next hk => subst hk; simp [Store.read, h]
      · simp [Store.read, ih]

/-- Read after write, both cases. -/
theorem Store.read_write (m : Store α) (a b : Nat) (v : α) :
    Store.read (Store.write m a v) b = if a = b then some v else Store.read m b := by
  split
  · next h => subst h; simp
  · next h => exact Store.read_write_ne m v h

/-! ### The canonical form -/

theorem Store.wf_cons {c : Nat × α} {m : Store α} (h : Store.wf (c :: m) = true) : Store.wf m = true := by
  cases m with
  | nil => rfl
  | cons d m =>
    obtain ⟨k, w⟩ := c
    obtain ⟨k', w'⟩ := d
    simp only [Store.wf, Bool.and_eq_true] at h
    exact h.2

/-- A store stays canonical under a smaller first index. -/
theorem Store.wf_cons_iff {c : Nat × α} {m : Store α} :
    Store.wf (c :: m) = true ↔ (∀ d ∈ m, c.1 < d.1) ∧ Store.wf m = true := by
  induction m generalizing c with
  | nil => simp [Store.wf]
  | cons d m ih =>
    obtain ⟨k, w⟩ := c
    obtain ⟨k', w'⟩ := d
    simp only [Store.wf, Bool.and_eq_true, decide_eq_true_eq, List.mem_cons, forall_eq_or_imp]
    constructor
    · rintro ⟨hlt, hwf⟩
      exact ⟨⟨hlt, fun d hd => Nat.lt_trans hlt ((ih.1 hwf).1 d hd)⟩, hwf⟩
    · rintro ⟨⟨hlt, _⟩, hwf⟩
      exact ⟨hlt, hwf⟩

theorem Store.mem_write {m : Store α} {a : Nat} {v : α} {d : Nat × α}
    (h : d ∈ Store.write m a v) : d = (a, v) ∨ d ∈ m := by
  induction m with
  | nil => simpa [Store.write] using h
  | cons c m ih =>
    obtain ⟨k, w⟩ := c
    simp only [Store.write] at h
    split at h
    · simpa using h
    · split at h
      · rcases List.mem_cons.1 h with h | h
        · exact .inl h
        · exact .inr (List.mem_cons_of_mem _ h)
      · rcases List.mem_cons.1 h with h | h
        · exact .inr (h ▸ List.mem_cons_self)
        · rcases ih h with h | h
          · exact .inl h
          · exact .inr (List.mem_cons_of_mem _ h)

/-- A write keeps the canonical form. -/
theorem Store.wf_write {m : Store α} (a : Nat) (v : α) (h : Store.wf m = true) :
    Store.wf (Store.write m a v) = true := by
  induction m with
  | nil => rfl
  | cons c m ih =>
    obtain ⟨k, w⟩ := c
    obtain ⟨hlt, hwf⟩ := Store.wf_cons_iff.1 h
    simp only [Store.write]
    split
    · next hak =>
      refine Store.wf_cons_iff.2 ⟨fun d hd => ?_, h⟩
      rcases List.mem_cons.1 hd with rfl | hd
      · exact hak
      · exact Nat.lt_trans hak (hlt d hd)
    · split
      · next hak => subst hak; exact Store.wf_cons_iff.2 ⟨hlt, hwf⟩
      · refine Store.wf_cons_iff.2 ⟨fun d hd => ?_, ih hwf⟩
        rcases Store.mem_write hd with rfl | hd
        · show k < a
          omega
        · exact hlt d hd

theorem Store.wf_writeFrom {m : Store α} (vs : List α) (i : Nat) (h : Store.wf m = true) :
    Store.wf (Store.writeFrom m i vs) = true := by
  induction vs generalizing m i with
  | nil => exact h
  | cons v vs ih => exact ih (i + 1) (Store.wf_write i v h)

/-- Every memory operation keeps the canonical form: the one operation that changes a buffer. -/
theorem Memory.wf_write {m : Memory} (a : Nat) (b : Byte) (h : Memory.wf m = true) :
    Memory.wf (Store.write m a b) = true := Store.wf_write a b h

theorem Memory.wf_reset_ibuf : Memory.wf State.reset.ibuf = true := rfl

theorem Memory.wf_reset_obuf : Memory.wf State.reset.obuf = true := rfl

/-! ### Bounds -/

theorem Store.within_iff {m : Store α} {cap : Nat} :
    Store.within m cap = true ↔ ∀ c ∈ m, c.1 < cap := by
  simp [Store.within]

theorem Store.within_write {m : Store α} {cap a : Nat} {v : α} (ha : a < cap)
    (h : Store.within m cap = true) : Store.within (Store.write m a v) cap = true := by
  rw [Store.within_iff] at *
  intro c hc
  rcases Store.mem_write hc with rfl | hc
  · exact ha
  · exact h c hc

theorem Store.within_writeFrom {m : Store α} {cap : Nat} (vs : List α) (i : Nat)
    (hi : i + vs.length ≤ cap) (h : Store.within m cap = true) :
    Store.within (Store.writeFrom m i vs) cap = true := by
  induction vs generalizing m i with
  | nil => exact h
  | cons v vs ih =>
    simp only [List.length_cons] at hi
    exact ih (i + 1) (by omega) (Store.within_write (by omega) h)

/-! ### Runs of writes -/

theorem Store.read_writeFrom (m : Store α) (vs : List α) (i a : Nat) :
    Store.read (Store.writeFrom m i vs) a =
      if h : i ≤ a ∧ a - i < vs.length then some (vs[a - i]'h.2) else Store.read m a := by
  induction vs generalizing m i with
  | nil => simp [Store.writeFrom]
  | cons v vs ih =>
    rw [Store.writeFrom, ih]
    by_cases hlt : i + 1 ≤ a ∧ a - (i + 1) < vs.length
    · have hai : a - i = (a - (i + 1)) + 1 := by omega
      have hin : i ≤ a ∧ a - i < (v :: vs).length := ⟨by omega, by simp; omega⟩
      rw [dif_pos hlt, dif_pos hin]
      simp [hai]
    · rw [dif_neg hlt]
      by_cases heq : i = a
      · subst heq
        rw [dif_pos ⟨Nat.le_refl _, by simp⟩, Store.read_write_same]
        simp
      · rw [dif_neg (by simp only [List.length_cons]; omega), Store.read_write_ne m v heq]

/-- After a table is written from index 0, its slots read back as the table. -/
theorem Store.map_read_writeFrom (m : Store α) (vs : List α) (d : Nat → α) :
    (List.range vs.length).map (fun i => (Store.read (Store.writeFrom m 0 vs) i).getD (d i)) = vs := by
  apply List.ext_getElem
  · simp
  · intro i h1 h2
    simp [Store.read_writeFrom, h2]

end Sys2Proof.Machine
end

