-- ==== Sys2Proof/Laws/Ops.lean ====
section
/-! SUPPORT. What the shared operations can do, said once: the ends of a stretch of pseudocode, the issue
sequence by its cases, and output through `emit` and `emitAll` as one append. -/

namespace Sys2Proof.Machine

/-! ### Ends of a stretch of pseudocode -/

@[simp] theorem Run.bind_ok {α β : Type} (a : α) (s : State) (f : α → State → Run β) :
    (Run.ok a s).bind f = f a s := rfl

@[simp] theorem Run.bind_raised {α β : Type} (e : ErrCode) (s : State) (f : α → State → Run β) :
    (Run.raised e s : Run α).bind f = .raised e s := rfl

@[simp] theorem Run.state_ok {α : Type} (a : α) (s : State) : (Run.ok a s).state = s := rfl

@[simp] theorem Run.state_raised {α : Type} (e : ErrCode) (s : State) :
    (Run.raised e s : Run α).state = s := rfl

@[simp] theorem endCommand_ok {α : Type} (a : α) (s : State) :
    endCommand (Run.ok a s) = finishCommand s := rfl

@[simp] theorem endCommand_raised {α : Type} (e : ErrCode) (s : State) :
    endCommand (Run.raised e s : Run α) = raiseError e s := rfl

/-- Sequencing is associative. -/
theorem Run.bind_assoc {α β γ : Type} (r : Run α) (f : α → State → Run β) (g : β → State → Run γ) :
    (r.bind f).bind g = r.bind fun a s => (f a s).bind g := by
  cases r <;> rfl

/-- A property of states that both stretches keep holds at the end, however it came. -/
theorem Run.bind_state {α β : Type} {P : State → Prop} {r : Run α} {f : α → State → Run β}
    (hr : P r.state) (hf : ∀ a s, P s → P (f a s).state) : P (r.bind f).state := by
  cases r with
  | ok a s => exact hf a s hr
  | raised e s => exact hr

/-! ### The issue sequence by its cases (R230) -/

theorem issueChecked_err {legal : Phase → Bool} {body : State → Run Unit} {s : State} (h : s.err = true) :
    issueChecked legal body s = finishCommand (beginCommand s) := by
  simp [issueChecked, h]

theorem issueChecked_sequence {legal : Phase → Bool} {body : State → Run Unit} {s : State}
    (h : s.err = false) (hp : legal s.phase = false) :
    issueChecked legal body s = raiseError .sequence (beginCommand s) := by
  simp [issueChecked, h, hp]

theorem issueChecked_run {legal : Phase → Bool} {body : State → Run Unit} {s : State}
    (h : s.err = false) (hp : legal s.phase = true) :
    issueChecked legal body s = endCommand (body (beginCommand s)) := by
  simp [issueChecked, h, hp]

/-- All an issue can do: refuse, raise SEQUENCE, or run the pseudocode. -/
theorem issueChecked_cases (legal : Phase → Bool) (body : State → Run Unit) (s : State) :
    (s.err = true ∧ issueChecked legal body s = finishCommand (beginCommand s)) ∨
    (s.err = false ∧ legal s.phase = false ∧
      issueChecked legal body s = raiseError .sequence (beginCommand s)) ∨
    (s.err = false ∧ legal s.phase = true ∧
      issueChecked legal body s = endCommand (body (beginCommand s))) := by
  cases he : s.err with
  | true => exact .inl ⟨rfl, issueChecked_err he⟩
  | false =>
    cases hp : legal s.phase with
    | true => exact .inr (.inr ⟨rfl, rfl, issueChecked_run he hp⟩)
    | false => exact .inr (.inl ⟨rfl, rfl, issueChecked_sequence he hp⟩)

/-- Beginning and finishing leaves only BUSY and DONE changed. -/
theorem finish_begin (s : State) : finishCommand (beginCommand s) = { s with busy := false, done := true } := rfl

/-- Any property that the updates around a command and the pseudocode keep is kept by the issue. -/
theorem issueChecked_keeps {P : State → Prop} {legal : Phase → Bool} {body : State → Run Unit} {s : State}
    (hbegin : ∀ t, P t → P (beginCommand t)) (hfinish : ∀ t, P t → P (finishCommand t))
    (hraise : ∀ e t, P t → P (raiseError e t))
    (hbody : P (beginCommand s) → P (body (beginCommand s)).state) (h : P s) :
    P (issueChecked legal body s) := by
  rcases issueChecked_cases legal body s with ⟨-, hs⟩ | ⟨-, -, hs⟩ | ⟨-, -, hs⟩
  · rw [hs]; exact hfinish _ (hbegin _ h)
  · rw [hs]; exact hraise _ _ (hbegin _ h)
  · rw [hs]
    have hb := hbody (hbegin _ h)
    revert hb
    cases body (beginCommand s) with
    | ok a t => exact hfinish t
    | raised e t => exact hraise e t

/-! ### Output (R16) -/

/-- A register below its top value counts up without wrapping. -/
theorem toNat_add_one {w : Word} (h : w.toNat + 1 < 2 ^ 32) : (w + 1).toNat = w.toNat + 1 := by
  have h1 : (1 : Word).toNat = 1 := rfl
  rw [BitVec.toNat_add, h1]
  omega

/-- The bytes still free in OBUF. -/
def State.room (s : State) : Nat := s.params.outMax.toNat - s.outLen.toNat

/-- The state after the bytes `bs` have been appended to the output. -/
def State.appendOut (s : State) (bs : Bytes) : State :=
  { s with obuf := Store.writeFrom s.obuf s.outLen.toNat bs, outLen := s.outLen + BitVec.ofNat 32 bs.length }

@[simp] theorem State.appendOut_nil (s : State) : s.appendOut [] = s := by
  simp [State.appendOut, Store.writeFrom]

theorem emit_full {b : Byte} {s : State} (h : s.outLen = s.params.outMax) :
    emit b s = .raised .capacity s := by
  simp [emit, h]

theorem emit_fits {b : Byte} {s : State} (h : s.outLen ≠ s.params.outMax) :
    emit b s = .ok () { s with obuf := Store.write s.obuf s.outLen.toNat b, outLen := s.outLen + 1 } := by
  simp [emit, h]

/-- `Emit` raises CAPACITY with nothing written, or appends one byte. -/
theorem emit_cases (b : Byte) (s : State) :
    (s.outLen = s.params.outMax ∧ emit b s = .raised .capacity s) ∨
    (s.outLen ≠ s.params.outMax ∧ emit b s = .ok () (s.appendOut [b])) := by
  by_cases h : s.outLen = s.params.outMax
  · exact .inl ⟨h, emit_full h⟩
  · exact .inr ⟨h, emit_fits h⟩

/-- The length after an append that fits does not wrap. -/
theorem State.appendOut_outLen {s : State} {bs : Bytes} (hle : s.outLen.toNat ≤ s.params.outMax.toNat)
    (h : bs.length ≤ s.room) : (s.appendOut bs).outLen.toNat = s.outLen.toNat + bs.length := by
  have hlt := s.params.outMax.isLt
  simp only [State.appendOut, State.room, BitVec.toNat_add, BitVec.toNat_ofNat] at *
  omega

theorem State.appendOut_append {s : State} {as bs : Bytes} (hle : s.outLen.toNat ≤ s.params.outMax.toNat)
    (h : as.length ≤ s.room) : (s.appendOut as).appendOut bs = s.appendOut (as ++ bs) := by
  have hlen := State.appendOut_outLen hle h
  have hw : ∀ (m : Memory) (i : Nat) (xs ys : Bytes),
      Store.writeFrom (Store.writeFrom m i xs) (i + xs.length) ys = Store.writeFrom m i (xs ++ ys) := by
    intro m i xs ys
    induction xs generalizing m i with
    | nil => rfl
    | cons x xs ih =>
      have := ih (Store.write m i x) (i + 1)
      simp only [Store.writeFrom, List.cons_append, List.length_cons] at *
      rw [← this]
      congr 1
      omega
  have hobuf : Store.writeFrom (s.appendOut as).obuf (s.appendOut as).outLen.toNat bs =
      Store.writeFrom s.obuf s.outLen.toNat (as ++ bs) := by
    rw [hlen]
    exact hw _ _ _ _
  have hout : (s.appendOut as).outLen + BitVec.ofNat 32 bs.length =
      s.outLen + BitVec.ofNat 32 (as ++ bs).length := by
    simp only [State.appendOut, List.length_append, BitVec.ofNat_add]
    rw [BitVec.add_assoc]
  show { s.appendOut as with
      obuf := Store.writeFrom (s.appendOut as).obuf (s.appendOut as).outLen.toNat bs
      outLen := (s.appendOut as).outLen + BitVec.ofNat 32 bs.length } = _
  rw [hobuf, hout]
  rfl

theorem State.room_appendOut {s : State} {bs : Bytes} (hle : s.outLen.toNat ≤ s.params.outMax.toNat)
    (h : bs.length ≤ s.room) : (s.appendOut bs).room = s.room - bs.length := by
  have hlen := State.appendOut_outLen hle h
  simp only [State.room] at *
  rw [hlen]
  simp only [State.appendOut]
  omega

/-- Output that fits is appended whole (R16). -/
theorem emitAll_fits {bs : Bytes} {s : State} (hle : s.outLen.toNat ≤ s.params.outMax.toNat)
    (h : bs.length ≤ s.room) : emitAll bs s = .ok () (s.appendOut bs) := by
  induction bs generalizing s with
  | nil => simp [emitAll]
  | cons b bs ih =>
    simp only [List.length_cons] at h
    have h1 : [b].length ≤ s.room := by simp; omega
    have hne : s.outLen ≠ s.params.outMax := by
      intro heq
      simp [State.room, heq] at h
    rcases emit_cases b s with ⟨heq, -⟩ | ⟨-, hb⟩
    · exact absurd heq hne
    · have hle' : (s.appendOut [b]).outLen.toNat ≤ (s.appendOut [b]).params.outMax.toNat := by
        rw [State.appendOut_outLen hle h1]
        simp only [State.appendOut, State.room] at *
        omega
      rw [emitAll, hb, Run.bind_ok, ih hle' (by rw [State.room_appendOut hle h1]; simp; omega),
        State.appendOut_append hle h1]
      rfl

/-- Output that does not fit leaves its first bytes, as many as there is room for, and raises CAPACITY
(R186, R204, R225). -/
theorem emitAll_overflows {bs : Bytes} {s : State} (hle : s.outLen.toNat ≤ s.params.outMax.toNat)
    (h : s.room < bs.length) : emitAll bs s = .raised .capacity (s.appendOut (bs.take s.room)) := by
  induction bs generalizing s with
  | nil => simp at h
  | cons b bs ih =>
    simp only [List.length_cons] at h
    rcases emit_cases b s with ⟨heq, hb⟩ | ⟨hne, hb⟩
    · have hr : s.room = 0 := by simp [State.room, heq]
      rw [emitAll, hb, hr]
      simp
    · have h1 : [b].length ≤ s.room := by
        have : s.outLen.toNat ≠ s.params.outMax.toNat := fun hq => hne (BitVec.eq_of_toNat_eq hq)
        simp only [List.length_singleton, State.room]
        omega
      have hle' : (s.appendOut [b]).outLen.toNat ≤ (s.appendOut [b]).params.outMax.toNat := by
        rw [State.appendOut_outLen hle h1]
        simp only [State.appendOut, State.room, List.length_singleton] at *
        omega
      have hroom := State.room_appendOut hle h1
      rw [emitAll, hb, Run.bind_ok,
        ih hle' (by rw [hroom]; simp only [List.length_singleton] at *; omega),
        State.appendOut_append hle h1, hroom]
      obtain ⟨r, hr⟩ : ∃ r, s.room = r + 1 :=
        ⟨s.room - 1, by simp only [List.length_singleton] at h1; omega⟩
      simp [hr]

/-- Append in two parts is append of the whole, also where it overflows. -/
theorem emitAll_append (as bs : Bytes) (s : State) :
    emitAll (as ++ bs) s = (emitAll as s).bind fun _ t => emitAll bs t := by
  induction as generalizing s with
  | nil => rfl
  | cons a as ih =>
    simp only [List.cons_append, emitAll, Run.bind_assoc]
    congr 1
    funext _ t
    exact ih t

/-- `Emit` is `EmitAll` of one byte. -/
theorem emit_eq_emitAll (b : Byte) (s : State) : emit b s = emitAll [b] s := by
  simp only [emitAll]
  cases emit b s <;> rfl

/-- What appended output reads as, byte by byte. -/
theorem State.obufByte_appendOut (s : State) (bs : Bytes) (a : Nat) :
    (s.appendOut bs).obufByte a =
      if h : s.outLen.toNat ≤ a ∧ a - s.outLen.toNat < bs.length then bs[a - s.outLen.toNat]'h.2
      else s.obufByte a := by
  simp only [State.obufByte, State.appendOut, Store.read_writeFrom]
  split <;> simp

end Sys2Proof.Machine
end

