-- ==== Sys2Proof/Laws/Stream.lean ====
section
/-! SUPPORT. The stream format: bits and bytes, lines, code text and tokens. -/

namespace Sys2Proof.Machine

/-! ### Bits and bytes (R112) -/

@[simp] theorem bitsOfByte_length (b : Byte) : (bitsOfByte b).length = 8 := rfl

/-- One byte survives being spelled as bits. -/
theorem byteOfBits_bitsOfByte (b : Byte) : byteOfBits (bitsOfByte b) = b := by
  revert b; decide +kernel

/-- Eight bits survive being gathered into a byte. -/
theorem bitsOfByte_byteOfBits (a b c d e f g h : Bool) :
    bitsOfByte (byteOfBits [a, b, c, d, e, f, g, h]) = [a, b, c, d, e, f, g, h] := by
  revert a b c d e f g h; decide +kernel

@[simp] theorem unpackBytes_nil : unpackBytes [] = [] := rfl

@[simp] theorem unpackBytes_cons (b : Byte) (p : Bytes) :
    unpackBytes (b :: p) = bitsOfByte b ++ unpackBytes p := rfl

theorem unpackBytes_length (p : Bytes) : (unpackBytes p).length = 8 * p.length := by
  induction p with
  | nil => rfl
  | cons b p ih => simp [ih]; omega

theorem packBits_length (w : Bits) : (packBits w).length = w.length / 8 := by
  induction w using packBits.induct with
  | case1 a b c d e f g h w ih => simp only [packBits, List.length_cons, ih]; omega
  | case2 w hw =>
    have hlt : w.length < 8 := by
      by_contra hge
      match w, hge with
      | a :: b :: c :: d :: e :: f :: g :: h :: w, _ => exact hw a b c d e f g h w rfl
      | [], h => simp at h
      | [_], h => simp at h
      | [_, _], h => simp at h
      | [_, _, _], h => simp at h
      | [_, _, _, _], h => simp at h
      | [_, _, _, _, _], h => simp at h
      | [_, _, _, _, _, _], h => simp at h
      | [_, _, _, _, _, _, _], h => simp at h
    rw [packBits]
    · simp only [List.length_nil]; omega
    · exact hw

/-- Eight bits more are one byte more. -/
theorem packBits_eight (v w : Bits) (h : v.length = 8) : packBits (v ++ w) = byteOfBits v :: packBits w := by
  match v, h with
  | [a, b, c, d, e, f, g, h'], _ => rfl

theorem padCount_lt (n : Nat) : padCount n < 8 := by unfold padCount; omega

/-- Padding fills whole bytes (R113). -/
theorem padCount_fills (n : Nat) : (n + padCount n) % 8 = 0 := by unfold padCount; omega

theorem padCount_mod (n m : Nat) (h : n % 8 = m % 8) : padCount n = padCount m := by simp [padCount, h]

/-! ### Lines (R198) -/

/-- Listing the lines is calling `read_line()` again and again (R198). -/
theorem terminatedLines_eq_readLine (x : Bytes) :
    terminatedLines x =
      match readLine x with
      | none => []
      | some (l, r) => l :: terminatedLines r := by
  induction x with
  | nil => rfl
  | cons b x ih =>
    by_cases hb : b = byteNL
    · simp [terminatedLines, readLine, hb]
    · simp only [terminatedLines, readLine, hb, if_false]
      rw [ih]
      cases hr : readLine x with
      | none => rfl
      | some lr => rfl

/-- A line without a terminator inside, then its terminator: the first line. -/
theorem terminatedLines_line (l r : Bytes) (h : byteNL ∉ l) :
    terminatedLines (l ++ byteNL :: r) = l :: terminatedLines r := by
  induction l with
  | nil => simp [terminatedLines]
  | cons b l ih =>
    simp only [List.mem_cons, not_or] at h
    simp [terminatedLines, Ne.symm h.1, ih h.2]

/-- No terminator, no line (NOLINE). -/
theorem terminatedLines_none (x : Bytes) (h : byteNL ∉ x) : terminatedLines x = [] := by
  induction x with
  | nil => rfl
  | cons b x ih =>
    simp only [List.mem_cons, not_or] at h
    simp [terminatedLines, Ne.symm h.1, ih h.2]

/-- The lines are the stream cut at its terminators, with an unterminated rest. -/
theorem terminatedLines_cut (x : Bytes) :
    ∃ r, byteNL ∉ r ∧ x = ((terminatedLines x).flatMap fun l => l ++ [byteNL]) ++ r ∧
      ∀ l ∈ terminatedLines x, byteNL ∉ l := by
  induction x with
  | nil => exact ⟨[], by simp [terminatedLines]⟩
  | cons b x ih =>
    obtain ⟨r, hr, hx, hl⟩ := ih
    by_cases hb : b = byteNL
    · refine ⟨r, hr, ?_, ?_⟩
      · simp only [terminatedLines, hb, if_true, List.flatMap_cons, List.nil_append, List.cons_append]
        rw [← hx]
      · simpa [terminatedLines, hb] using hl
    · simp only [terminatedLines, hb, if_false]
      revert hx hl
      cases terminatedLines x with
      | nil =>
        intro hx _
        simp only [List.flatMap_nil, List.nil_append] at hx
        exact ⟨b :: x, by simp [hx, hr, Ne.symm hb], by simp, by simp⟩
      | cons l ls =>
        intro hx hl
        refine ⟨r, hr, ?_, ?_⟩
        · simp only [List.flatMap_cons, List.cons_append] at hx ⊢
          rw [← hx]
        · intro m hm
          rcases List.mem_cons.1 hm with rfl | hm
          · simp [Ne.symm hb, hl l List.mem_cons_self]
          · exact hl m (List.mem_cons_of_mem _ hm)

/-! ### Code text, tokens, entry lines (R105 to R109) -/

@[simp] theorem codeText_length (c : Bits) : (codeText c).length = c.length := by simp [codeText]

/-- Code text reads back as the code (R108). -/
theorem readCodeText_codeText (c : Bits) : readCodeText (codeText c) = some c := by
  induction c with
  | nil => rfl
  | cons b c ih =>
    have h : codeText (b :: c) = (if b then 0x31 else 0x30) :: codeText c := rfl
    rw [h]
    cases b <;> simp [readCodeText, ih]

/-- What `readCodeText` accepts is code text. -/
theorem readCodeText_some {t : Bytes} {c : Bits} (h : readCodeText t = some c) : t = codeText c := by
  induction t generalizing c with
  | nil => cases h; rfl
  | cons b t ih =>
    simp only [readCodeText] at h
    split at h
    · next hb =>
      cases hr : readCodeText t with
      | none => simp [hr] at h
      | some d =>
        rw [hr] at h
        cases h
        simp [codeText, ih hr, hb]
    · split at h
      · next hb =>
        cases hr : readCodeText t with
        | none => simp [hr] at h
        | some d =>
          rw [hr] at h
          cases h
          simp [codeText, ih hr, hb]
      · cases h

theorem codeText_noNL (c : Bits) : byteNL ∉ codeText c := by
  simp only [codeText, List.mem_map, not_exists, not_and]
  intro b _
  cases b <;> decide

theorem tok_noNL (s : Byte) : byteNL ∉ tok s := by
  unfold tok
  split
  · decide
  · split
    · decide
    · split
      · decide
      · next h _ _ => simpa using Ne.symm h

theorem entryLine_noNL (e : CtabEntry) : byteNL ∉ entryLine e := by
  simp only [entryLine, List.mem_append, List.mem_cons, not_or]
  exact ⟨tok_noNL _, by decide, codeText_noNL _⟩

theorem marker_noNL : byteNL ∉ marker := by decide

/-- An entry line splits into its symbol and its code text, whatever the token (R105, R107). -/
theorem splitEntry_entryLine (e : CtabEntry) (h : e.code ≠ []) :
    splitEntry (entryLine e) = some (e.sym, codeText e.code) := by
  obtain ⟨s, c⟩ := e
  cases c with
  | nil => exact absurd rfl h
  | cons b c =>
    simp only [entryLine, tok]
    split
    · next hs => subst hs; rfl
    · split
      · next hs => subst hs; rfl
      · split
        · next hs => subst hs; rfl
        · have h1 : ∀ x : Byte, [x, byteSP] = tokenCR ↔ False := by simp [tokenCR, byteSP]
          have h2 : ∀ x : Byte, [x, byteSP] = tokenLF ↔ False := by simp [tokenLF, byteSP]
          have h3 : ∀ x : Byte, [x, byteSP] = tokenSP ↔ False := by simp [tokenSP, byteSP]
          have hc : codeText (b :: c) = (if b then 0x31 else 0x30) :: codeText c := rfl
          rw [hc]
          simp [splitEntry, h1, h2, h3]

theorem entryLine_length (e : CtabEntry) :
    (entryLine e).length = (tok e.sym).length + 1 + e.code.length := by
  simp [entryLine]
  omega

/-- The length of a header (R109). -/
theorem header_length (t : List CtabEntry) :
    (header t).length = 12 + (t.map fun e => (tok e.sym).length + 2 + e.code.length).sum := by
  have h : ∀ t : List CtabEntry, (t.flatMap fun e => entryLine e ++ [byteNL]).length =
      (t.map fun e => (tok e.sym).length + 2 + e.code.length).sum := by
    intro t
    induction t with
    | nil => rfl
    | cons e t ih =>
      simp only [List.flatMap_cons, List.length_append, ih, List.map_cons, List.sum_cons,
        entryLine_length, List.length_cons, List.length_nil]
      omega
  have hm : marker.length = 5 := rfl
  simp only [header, List.length_append, List.length_cons, List.length_nil, h, hm]
  omega

end Sys2Proof.Machine
end

