-- ==== Sys2Proof/Laws/Decoding.lean ====
section
/-! SUPPORT. The decoder's scan as one append, the searches by first match, and the parser over the lines of
well-formed entries. -/

namespace Sys2Proof.Machine

/-! ### Searches take the first match (R172, R205) -/

theorem findCode_isSome {t : List CtabEntry} {sym : Byte} :
    (findCode t sym).isSome = true ↔ sym ∈ t.map (·.sym) := by
  induction t with
  | nil => simp [findCode]
  | cons e t ih =>
    simp only [findCode, List.map_cons, List.mem_cons]
    by_cases h : e.sym = sym
    · simp [h]
    · simp [h, ih, Ne.symm h]

theorem findCode_mem {t : List CtabEntry} {sym : Byte} {c : Bits} (h : findCode t sym = some c) :
    { sym := sym, code := c } ∈ t := by
  induction t with
  | nil => simp [findCode] at h
  | cons e t ih =>
    simp only [findCode] at h
    split at h
    · next hs => cases h; subst hs; exact List.mem_cons_self
    · exact List.mem_cons_of_mem _ (ih h)

theorem matchCode_mem {t : List CtabEntry} {c : Bits} {sym : Byte} (h : matchCode t c = some sym) :
    { sym := sym, code := c } ∈ t := by
  induction t with
  | nil => simp [matchCode] at h
  | cons e t ih =>
    simp only [matchCode] at h
    split at h
    · next hs => cases h; subst hs; exact List.mem_cons_self
    · exact List.mem_cons_of_mem _ (ih h)

theorem matchCode_none {t : List CtabEntry} {c : Bits} :
    matchCode t c = none ↔ ∀ e ∈ t, e.code ≠ c := by
  induction t with
  | nil => simp [matchCode]
  | cons e t ih =>
    simp only [matchCode, List.mem_cons, forall_eq_or_imp]
    by_cases h : e.code = c
    · simp [h]
    · simp [h, ih]

/-! ### The scan (R204, R205) -/

/-- The symbols a scan emits and the candidate it leaves. -/
def decodeSyms (t : List CtabEntry) (cand : Bits) : Bits → Bytes × Bits
  | [] => ([], cand)
  | b :: bs =>
    match matchCode t (cand ++ [b]) with
    | some sym => (sym :: (decodeSyms t [] bs).1, (decodeSyms t [] bs).2)
    | none => decodeSyms t (cand ++ [b]) bs

/-- `scanBits` emits those symbols (R204). -/
theorem scanBits_eq (t : List CtabEntry) (bs cand : Bits) (s : State) :
    scanBits t bs cand s =
      (emitAll (decodeSyms t cand bs).1 s).bind fun _ u => .ok (decodeSyms t cand bs).2 u := by
  induction bs generalizing cand s with
  | nil => rfl
  | cons b bs ih =>
    simp only [scanBits, decodeSyms]
    cases matchCode t (cand ++ [b]) with
    | none => exact ih _ _
    | some sym =>
      simp only [emitAll, Run.bind_assoc]
      congr 1
      funext _ u
      exact ih _ _

/-- Scanning in two parts. -/
theorem decodeSyms_append (t : List CtabEntry) (cand bs cs : Bits) :
    decodeSyms t cand (bs ++ cs) =
      ((decodeSyms t cand bs).1 ++ (decodeSyms t (decodeSyms t cand bs).2 cs).1,
       (decodeSyms t (decodeSyms t cand bs).2 cs).2) := by
  induction bs generalizing cand with
  | nil => simp [decodeSyms]
  | cons b bs ih =>
    simp only [List.cons_append, decodeSyms]
    cases matchCode t (cand ++ [b]) with
    | none => exact ih _
    | some sym => simp [ih]

/-- Bits none of whose prefixes complete a code only lengthen the candidate (R208). -/
theorem decodeSyms_noMatch (t : List CtabEntry) (cand bs : Bits)
    (h : ∀ p, p ≠ [] → p <+: bs → matchCode t (cand ++ p) = none) :
    decodeSyms t cand bs = ([], cand ++ bs) := by
  induction bs generalizing cand with
  | nil => simp [decodeSyms]
  | cons b bs ih =>
    have h1 := h [b] (by simp) (by simp)
    simp only [decodeSyms, h1]
    rw [ih (cand ++ [b]) ?_]
    · simp
    · intro p _ hpre
      have := h (b :: p) (by simp) ((List.prefix_cons_inj b).2 hpre)
      simpa using this

/-- Bits whose whole is the first match complete that symbol (R205). -/
theorem decodeSyms_code (t : List CtabEntry) (cand bs : Bits) (sym : Byte) (hne : bs ≠ [])
    (hmatch : matchCode t (cand ++ bs) = some sym)
    (h : ∀ p, p ≠ [] → p <+: bs → p ≠ bs → matchCode t (cand ++ p) = none) :
    decodeSyms t cand bs = ([sym], []) := by
  induction bs generalizing cand with
  | nil => exact absurd rfl hne
  | cons b bs ih =>
    by_cases hbs : bs = []
    · subst hbs
      simp [decodeSyms, hmatch]
    · have h1 := h [b] (by simp) (by simp) (by simpa using Ne.symm hbs)
      simp only [decodeSyms, h1]
      refine ih (cand ++ [b]) hbs (by simpa using hmatch) ?_
      intro p _ hpre hpne
      have := h (b :: p) (by simp) ((List.prefix_cons_inj b).2 hpre) (by simpa using hpne)
      simpa using this

/-! ### The parser (R196) -/

/-- The bytes of the lines of `t`, each with its terminator. -/
def linesLength (ls : List Bytes) : Nat := (ls.map fun l => l.length + 1).sum

/-- Well-formed entry lines go into CTAB in order (R196, R199). -/
theorem parseTable_entries (t : List CtabEntry) (ls : List Bytes) (pos : Nat) (s : State)
    (hok : ∀ e ∈ t, parseEntry (entryLine e) = some e ∧ entryLine e ≠ marker)
    (hcap : s.nent.toNat + t.length ≤ 256) :
    parseTable (t.map entryLine ++ ls) pos s =
      parseTable ls (pos + linesLength (t.map entryLine))
        { s with ctab := Store.writeFrom s.ctab s.nent.toNat t, nent := s.nent + BitVec.ofNat 32 t.length } := by
  induction t generalizing pos s with
  | nil => simp [linesLength, Store.writeFrom]
  | cons e t ih =>
    obtain ⟨hp, hm⟩ := hok e List.mem_cons_self
    simp only [List.length_cons] at hcap
    have hn : (s.nent + 1).toNat = s.nent.toNat + 1 := toNat_add_one (by omega)
    have hfull : s.nent.toNat ≠ Config.tblMax := by simp only [Config.tblMax]; omega
    simp only [List.map_cons, List.cons_append, parseTable, hm, hp, hfull, if_false]
    rw [ih _ _ (fun e he => hok e (List.mem_cons_of_mem _ he)) (by simp only [hn]; omega)]
    simp only [hn, Store.writeFrom, List.length_cons]
    congr 1
    · simp only [linesLength, List.map_cons, List.sum_cons]
      omega
    · congr 1
      rw [BitVec.ofNat_add, BitVec.add_assoc, BitVec.add_comm (BitVec.ofNat 32 t.length)]
      rfl

/-- What the parser's loop leaves alone, and what it bounds: it writes only CTAB and NENT, and only BAD_TABLE
can stop it (R196, R199). -/
theorem parseTable_frame (ls : List Bytes) (pos : Nat) (s : State) (h : s.nent.toNat ≤ 256) :
    (∃ pos' t, parseTable ls pos s = .ok pos' t ∧
      t = { s with ctab := t.ctab, nent := t.nent } ∧ t.nent.toNat ≤ 256) ∨
    (∃ t, parseTable ls pos s = .raised .badTable t ∧
      t = { s with ctab := t.ctab, nent := t.nent } ∧ t.nent.toNat ≤ 256) := by
  induction ls generalizing pos s with
  | nil => exact .inr ⟨s, rfl, rfl, h⟩
  | cons l ls ih =>
    simp only [parseTable]
    split
    · exact .inl ⟨_, s, rfl, rfl, h⟩
    · cases parseEntry l with
      | none => exact .inr ⟨s, rfl, rfl, h⟩
      | some e =>
        by_cases hfull : s.nent.toNat = Config.tblMax
        · exact .inr ⟨s, if_pos hfull, rfl, h⟩
        · simp only [hfull, if_false]
          have hn : (s.nent + 1).toNat ≤ 256 := by
            simp only [Config.tblMax] at hfull
            rw [toNat_add_one (by omega)]
            omega
          rcases ih (pos + l.length + 1)
            { s with ctab := Store.write s.ctab s.nent.toNat e, nent := s.nent + 1 } hn with
            ⟨pos', t, heq, ht, hb⟩ | ⟨t, heq, ht, hb⟩
          · exact .inl ⟨pos', t, heq, ht, hb⟩
          · exact .inr ⟨t, heq, ht, hb⟩

end Sys2Proof.Machine
end

