-- ==== Sys2Proof/Laws/Encode.lean ====
section
/-! SUPPORT. The packer as one append: the bytes that the accumulator of PACK emits are the payload of R184. -/

namespace Sys2Proof.Machine

/-- The bytes and the rest that gathering bits by eights gives, from a partly filled accumulator. -/
def gather (acc : Bits) : Bits → Bytes × Bits
  | [] => ([], acc)
  | b :: bs =>
    if (acc ++ [b]).length = 8 then
      (byteOfBits (acc ++ [b]) :: (gather [] bs).1, (gather [] bs).2)
    else gather (acc ++ [b]) bs

theorem gather_rest_lt (acc bs : Bits) (h : acc.length < 8) : (gather acc bs).2.length < 8 := by
  induction bs generalizing acc with
  | nil => exact h
  | cons b bs ih =>
    simp only [gather]
    split
    · exact ih [] (by decide)
    · next hne => exact ih _ (by simp only [List.length_append, List.length_singleton] at *; omega)

/-- Gathering in two parts. -/
theorem gather_append (acc bs cs : Bits) :
    gather acc (bs ++ cs) =
      ((gather acc bs).1 ++ (gather (gather acc bs).2 cs).1, (gather (gather acc bs).2 cs).2) := by
  induction bs generalizing acc with
  | nil => simp [gather]
  | cons b bs ih =>
    simp only [List.cons_append, gather]
    split <;> simp [ih]

/-- `pushBits` emits the gathered bytes and keeps the rest (R181, inner loop). -/
theorem pushBits_eq (bs : Bits) (p : Packer) (s : State) :
    pushBits bs p s =
      (emitAll (gather p.acc bs).1 s).bind fun _ t =>
        .ok { acc := (gather p.acc bs).2, nbits := p.nbits + bs.length } t := by
  induction bs generalizing p s with
  | nil => rfl
  | cons b bs ih =>
    simp only [pushBits, gather]
    split
    · simp only [emitAll, Run.bind_assoc]
      congr 1
      funext _ t
      rw [ih]
      simp [Nat.add_assoc, Nat.add_comm 1]
    · rw [ih]
      simp [Nat.add_assoc, Nat.add_comm 1]

/-- The gathered bytes and the padded rest are the packed bits (R113, R184). -/
theorem gather_packBits (acc bs : Bits) (h : acc.length < 8) :
    (gather acc bs).1 ++
        (if (gather acc bs).2.length = 0 then []
         else [byteOfBits ((gather acc bs).2 ++ zeroBits (padCount (acc.length + bs.length)))]) =
      packBits (acc ++ bs ++ zeroBits (padCount (acc.length + bs.length))) := by
  induction bs generalizing acc with
  | nil =>
    simp only [gather, List.length_nil, Nat.add_zero, List.append_nil, List.nil_append]
    by_cases h0 : acc.length = 0
    · have : acc = [] := List.length_eq_zero_iff.1 h0
      subst this
      rfl
    · have hfull : (acc ++ zeroBits (padCount acc.length)).length = 8 := by
        simp only [List.length_append, zeroBits, List.length_replicate, padCount]; omega
      have := packBits_eight _ [] hfull
      rw [List.append_nil] at this
      simp [h0, this, packBits]
  | cons b bs ih =>
    simp only [gather]
    by_cases hf : (acc ++ [b]).length = 8
    · have hp : padCount (acc.length + (b :: bs).length) = padCount (([] : Bits).length + bs.length) := by
        apply padCount_mod
        simp only [List.length_append, List.length_cons, List.length_nil] at *
        omega
      have := ih [] (by decide)
      simp only [if_pos hf]
      rw [hp, List.cons_append, this]
      have : acc ++ b :: bs ++ zeroBits (padCount (([] : Bits).length + bs.length)) =
          (acc ++ [b]) ++ ([] ++ bs ++ zeroBits (padCount (([] : Bits).length + bs.length))) := by simp
      rw [this, packBits_eight _ _ hf]
    · have hlt : (acc ++ [b]).length < 8 := by
        simp only [List.length_append, List.length_singleton] at *; omega
      have := ih (acc ++ [b]) hlt
      have hl : (acc ++ [b]).length + bs.length = acc.length + (b :: bs).length := by simp; omega
      simp only [if_neg hf]
      rw [hl] at this
      rw [this]
      simp

/-- The state after a text's known bytes have gone through the packer: NF, then the bytes (R181, R183). -/
theorem pushSymbols_fits (t : List CtabEntry) (x : Bytes) (p : Packer) (s : State)
    (hle : s.outLen.toNat ≤ s.params.outMax.toNat)
    (h : (gather p.acc (encodedBits t x)).1.length ≤ s.room) :
    pushSymbols t x p s =
      .ok { acc := (gather p.acc (encodedBits t x)).2, nbits := p.nbits + (encodedBits t x).length }
        ({ s with nf := s.nf || hasUnknown t x }.appendOut (gather p.acc (encodedBits t x)).1) := by
  induction x generalizing p s with
  | nil => simp [pushSymbols, encodedBits, gather, hasUnknown]
  | cons b x ih =>
    simp only [pushSymbols]
    cases hc : findCode t b with
    | none =>
      have he : encodedBits t (b :: x) = encodedBits t x := by simp [encodedBits, hc]
      have hu : hasUnknown t (b :: x) = true := by simp [hasUnknown, hc]
      rw [he] at h ⊢
      rw [ih p { s with nf := true } hle h, hu]
      simp
    | some c =>
      have he : encodedBits t (b :: x) = c ++ encodedBits t x := by simp [encodedBits, hc]
      have hu : hasUnknown t (b :: x) = hasUnknown t x := by simp [hasUnknown, hc]
      rw [he, gather_append] at h ⊢
      simp only [List.length_append] at h
      have h1 : (gather p.acc c).1.length ≤ s.room := by omega
      have hr := State.room_appendOut hle h1
      have hle' : (s.appendOut (gather p.acc c).1).outLen.toNat ≤
          (s.appendOut (gather p.acc c).1).params.outMax.toNat := by
        rw [State.appendOut_outLen hle h1]
        simp only [State.appendOut, State.room] at *
        omega
      simp only [pushBits_eq, emitAll_fits hle h1, Run.bind_ok]
      rw [ih _ _ hle' (by rw [hr]; simp only; omega), hu]
      have happ := State.appendOut_append (s := { s with nf := s.nf || hasUnknown t x })
        (as := (gather p.acc c).1) (bs := (gather (gather p.acc c).2 (encodedBits t x)).1) hle h1
      simp only [List.length_append, Nat.add_assoc]
      rw [← happ]
      rfl

/-- A text whose bytes do not fit: CAPACITY with as many of them as there is room for (R186). -/
theorem pushSymbols_overflows (t : List CtabEntry) (x : Bytes) (p : Packer) (s : State)
    (hle : s.outLen.toNat ≤ s.params.outMax.toNat)
    (h : s.room < (gather p.acc (encodedBits t x)).1.length) :
    ∃ nf, (s.nf = true → nf = true) ∧ pushSymbols t x p s =
      .raised .capacity
        ({ s with nf := nf }.appendOut ((gather p.acc (encodedBits t x)).1.take s.room)) := by
  induction x generalizing p s with
  | nil => simp [encodedBits, gather] at h
  | cons b x ih =>
    simp only [pushSymbols]
    cases hc : findCode t b with
    | none =>
      have he : encodedBits t (b :: x) = encodedBits t x := by simp [encodedBits, hc]
      rw [he] at h ⊢
      obtain ⟨nf, hnf, heq⟩ := ih p { s with nf := true } hle h
      exact ⟨nf, fun _ => hnf rfl, heq⟩
    | some c =>
      have he : encodedBits t (b :: x) = c ++ encodedBits t x := by simp [encodedBits, hc]
      rw [he, gather_append] at h ⊢
      simp only [List.length_append] at h
      by_cases h1 : (gather p.acc c).1.length ≤ s.room
      · have hr := State.room_appendOut hle h1
        have hle' : (s.appendOut (gather p.acc c).1).outLen.toNat ≤
            (s.appendOut (gather p.acc c).1).params.outMax.toNat := by
          rw [State.appendOut_outLen hle h1]
          simp only [State.appendOut, State.room] at *
          omega
        simp only [pushBits_eq, emitAll_fits hle h1, Run.bind_ok]
        obtain ⟨nf, hnf, heq⟩ := ih { acc := (gather p.acc c).2, nbits := p.nbits + c.length }
          (s.appendOut (gather p.acc c).1) hle' (by rw [hr]; simp only; omega)
        refine ⟨nf, hnf, ?_⟩
        rw [heq, hr, List.take_append, List.take_of_length_le h1]
        have happ := State.appendOut_append (s := { s with nf := nf })
          (as := (gather p.acc c).1)
          (bs := (gather (gather p.acc c).2 (encodedBits t x)).1.take (s.room - (gather p.acc c).1.length))
          hle h1
        rw [← happ]
        rfl
      · have h1 : s.room < (gather p.acc c).1.length := by omega
        refine ⟨s.nf, id, ?_⟩
        simp only [pushBits_eq, emitAll_overflows hle h1, Run.bind_raised]
        rw [List.take_append, Nat.sub_eq_zero_of_le (Nat.le_of_lt h1)]
        simp

end Sys2Proof.Machine
end

