-- ==== Sys2Proof/Laws/Frequency.lean ====
section
/-! SUPPORT. The key order, the arrangement by priority, and the counts of FREQ. -/

namespace Sys2Proof.Machine

/-! ### The key order (R11) -/

theorem keylt_irrefl (a : Bytes) : keylt a a = false := by
  induction a with
  | nil => rfl
  | cons x a ih => simp [keylt, ih]

theorem keylt_trans {a b c : Bytes} (h1 : keylt a b = true) (h2 : keylt b c = true) : keylt a c = true := by
  induction a generalizing b c with
  | nil =>
    cases c with
    | nil => cases b <;> simp [keylt] at h2
    | cons z c => rfl
  | cons x a ih =>
    cases b with
    | nil => simp [keylt] at h1
    | cons y b =>
      cases c with
      | nil => simp [keylt] at h2
      | cons z c =>
        simp only [keylt] at *
        split at h1
        · next hxy =>
          subst hxy
          split at h2
          · next hyz => subst hyz; simpa using ih h1 h2
          · next hyz => simpa [hyz] using h2
        · next hxy =>
          split at h2
          · next hyz => subst hyz; simpa [hxy] using h1
          · next hyz =>
            simp only [decide_eq_true_eq] at h1 h2
            have hxz : x < z := BitVec.lt_trans h1 h2
            have : x ≠ z := fun h => by subst h; exact absurd hxz (BitVec.lt_irrefl x)
            simpa [this] using hxz

theorem keylt_total {a b : Bytes} (h : a ≠ b) : keylt a b = true ∨ keylt b a = true := by
  induction a generalizing b with
  | nil =>
    cases b with
    | nil => exact absurd rfl h
    | cons y b => exact .inl rfl
  | cons x a ih =>
    cases b with
    | nil => exact .inr rfl
    | cons y b =>
      simp only [keylt]
      by_cases hxy : x = y
      · subst hxy
        simpa using ih (b := b) (fun hab => h (by rw [hab]))
      · have hyx : ¬ y = x := fun h => hxy h.symm
        simp only [hxy, hyx, if_false, decide_eq_true_eq]
        rcases Nat.lt_or_gt_of_ne (fun hn => hxy (BitVec.eq_of_toNat_eq hn)) with hlt | hgt
        · exact .inl (BitVec.lt_def.2 hlt)
        · exact .inr (BitVec.lt_def.2 hgt)

/-! ### Arranging (R144, R154) -/

variable {α : Type}

theorem insertInOrder_perm (lt : α → α → Bool) (x : α) (l : List α) :
    (insertInOrder lt x l).Perm (x :: l) := by
  induction l with
  | nil => exact .refl _
  | cons y l ih =>
    simp only [insertInOrder]
    split
    · exact .refl _
    · exact (ih.cons y).trans (.swap x y l)

/-- Arranging neither loses nor adds an element. -/
theorem arrange_perm (lt : α → α → Bool) (l : List α) : (arrange lt l).Perm l := by
  induction l with
  | nil => exact .refl _
  | cons x l ih => exact (insertInOrder_perm lt x _).trans (ih.cons x)

theorem arrange_length (lt : α → α → Bool) (l : List α) : (arrange lt l).length = l.length :=
  (arrange_perm lt l).length_eq

theorem insertInOrder_sorted {lt : α → α → Bool} {x : α} {l : List α}
    (htrans : ∀ a b c, lt a b = true → lt b c = true → lt a c = true)
    (htotal : ∀ y ∈ l, lt x y = true ∨ lt y x = true)
    (h : l.Pairwise fun a b => lt a b = true) :
    (insertInOrder lt x l).Pairwise fun a b => lt a b = true := by
  induction l with
  | nil => simp [insertInOrder]
  | cons y l ih =>
    obtain ⟨hy, hl⟩ := List.pairwise_cons.1 h
    simp only [insertInOrder]
    split
    · next hxy =>
      refine List.pairwise_cons.2 ⟨fun z hz => ?_, h⟩
      rcases List.mem_cons.1 hz with rfl | hz
      · exact hxy
      · exact htrans _ _ _ hxy (hy z hz)
    · next hxy =>
      refine List.pairwise_cons.2
        ⟨fun z hz => ?_, ih (fun z hz => htotal z (List.mem_cons_of_mem _ hz)) hl⟩
      rcases List.mem_cons.1 ((insertInOrder_perm lt x l).mem_iff.1 hz) with rfl | hz
      · exact (htotal y List.mem_cons_self).resolve_left hxy
      · exact hy z hz

/-- Arranging by a transitive order that is total on the elements gives them in order. -/
theorem arrange_sorted {lt : α → α → Bool} {l : List α}
    (htrans : ∀ a b c, lt a b = true → lt b c = true → lt a c = true)
    (htotal : l.Pairwise fun a b => lt a b = true ∨ lt b a = true) :
    (arrange lt l).Pairwise fun a b => lt a b = true := by
  induction l with
  | nil => simp [arrange]
  | cons x l ih =>
    obtain ⟨hx, hl⟩ := List.pairwise_cons.1 htotal
    exact insertInOrder_sorted htrans (fun y hy => hx y ((arrange_perm lt l).mem_iff.1 hy)) (ih hl)

/-! ### Counting (R141, R143) -/

/-- The count a table holds for a symbol, 0 when it has no entry. -/
def countOf (l : List FtabEntry) (b : Byte) : Nat :=
  match l with
  | [] => 0
  | e :: es => if e.sym = b then e.freq.toNat else countOf es b

theorem countByte_syms (b : Byte) (l : List FtabEntry) :
    (countByte b l).map (·.sym) = if b ∈ l.map (·.sym) then l.map (·.sym) else l.map (·.sym) ++ [b] := by
  induction l with
  | nil => simp [countByte]
  | cons e l ih =>
    simp only [countByte, List.map_cons, List.mem_cons]
    by_cases he : e.sym = b
    · simp [he]
    · simp only [he, if_false, List.map_cons, ih, Ne.symm he, false_or]
      split <;> simp

theorem countByte_nodup {b : Byte} {l : List FtabEntry} (h : (l.map (·.sym)).Nodup) :
    ((countByte b l).map (·.sym)).Nodup := by
  rw [countByte_syms]
  split
  · exact h
  · next hb => exact List.nodup_append.2 ⟨h, by simp, by simpa using fun e he hs => hb (by simp; exact ⟨e, he, hs⟩)⟩

theorem countByte_countOf {b c : Byte} {l : List FtabEntry}
    (hmax : countOf l b + 1 < 2 ^ 32) :
    countOf (countByte b l) c = countOf l c + if b = c then 1 else 0 := by
  induction l with
  | nil => simp [countByte, countOf]
  | cons e l ih =>
    by_cases he : e.sym = b
    · simp only [countOf, he, if_true] at hmax
      have hw : (e.freq + 1).toNat = e.freq.toNat + 1 := toNat_add_one hmax
      simp only [countByte, he, if_true, countOf]
      by_cases hbc : b = c
      · simp only [hbc, if_true, hw]
      · simp [hbc]
    · simp only [countOf, he, if_false] at hmax
      simp only [countByte, he, if_false, countOf, ih hmax]
      by_cases hec : e.sym = c
      · have hbc : b ≠ c := fun h => he (hec.trans h.symm)
        simp [hec, hbc]
      · simp [hec]

end Sys2Proof.Machine
end

