-- ==== Sys2Proof/Laws/PerInstr.lean ====
section
/-! SUPPORT. What is said of each command as syntax, one lemma a constructor. -/

namespace Sys2Proof.Laws.WordFields

/-- The command is well formed and the fields of its word are as R90 lays them out: the opcode of R92 in bits
7:0, the operand in 15:8, zeros above; and the word is a well-formed one. -/
def Statement (i : Instr) : Prop :=
  i.wf = true ∧ opcOf (encode i) = opcodeOf i ∧ symOf (encode i) = operandOf i ∧ reservedOf (encode i) = 0 ∧
    wordWf (encode i) = true

theorem nop : Statement .nop := by unfold Statement; decide
theorem clr : Statement .clr := by unfold Statement; decide
theorem freq : Statement .freq := by unfold Statement; decide
theorem tree : Statement .tree := by unfold Statement; decide
theorem codes : Statement .codes := by unfold Statement; decide
theorem lookup (sym : Byte) : Statement (.lookup sym) := by
  revert sym
  unfold Statement
  decide +kernel
theorem pack : Statement .pack := by unfold Statement; decide
theorem enc : Statement .enc := by unfold Statement; decide
theorem parse : Statement .parse := by unfold Statement; decide
theorem unpack : Statement .unpack := by unfold Statement; decide
theorem dec : Statement .dec := by unfold Statement; decide

end Sys2Proof.Laws.WordFields
end

