-- ==== Sys2Proof/Laws/Tree.lean ====
section
/-! SUPPORT. The merge loop of TREE: what holds of the nodes and the working list before every merge
(R153, R156, R157). -/

namespace Sys2Proof.Machine

/-- The children's indices of the nodes of a list. -/
def childrenOf (nodes : List NodeEntry) : List Nat :=
  nodes.flatMap fun e => [e.left.toNat, e.right.toNat]

/-- What holds of the nodes made so far and the working list, for the frequency table `f`. -/
structure MergeInv (f : List FtabEntry) (nodes : List NodeEntry) (wl : List WorkItem) : Prop where
  /-- WL names the nodes it holds. -/
  named : ∀ x ∈ wl, nodes[x.2]? = some x.1
  /-- Each merge makes one node more and WL one shorter (R157). -/
  count : nodes.length + wl.length = 2 * f.length
  /-- WL is empty only when there is no symbol. -/
  nonempty : f ≠ [] → wl ≠ []
  /-- The leaves come first (R152). -/
  leaves : nodes.take f.length = f.map leafOf
  /-- Every later node joins two earlier ones (R153). -/
  parents : ∀ p e, f.length ≤ p → nodes[p]? = some e → IsParent nodes p e
  /-- Every node is in WL or the child of exactly one node. -/
  owned : (childrenOf (nodes.drop f.length) ++ wl.map (·.2)).Perm (List.range nodes.length)
  /-- Every symbol occurs in exactly one key of WL (R156). -/
  symbols : (wl.flatMap (·.1.key)).Perm (f.map (·.sym))
  /-- No byte occurs twice in a key (R37 (e)). -/
  keys : ∀ e ∈ nodes, e.key.Nodup
  /-- The frequencies in WL sum to the input length (R157). -/
  total : (wl.map (·.1.freq.toNat)).sum = (f.map (·.freq.toNat)).sum

theorem MergeInv.le_length {f : List FtabEntry} {nodes : List NodeEntry} {wl : List WorkItem}
    (h : MergeInv f nodes wl) : f.length ≤ nodes.length := by
  have := congrArg List.length h.leaves
  simp only [List.length_take, List.length_map] at this
  omega

/-- Before the first merge (R152). -/
theorem MergeInv.start (f : List FtabEntry) : MergeInv f (f.map leafOf) (f.map leafOf).zipIdx := by
  have hfst : (f.map leafOf).zipIdx.map (·.1) = f.map leafOf := List.zipIdx_map_fst 0 _
  have hsnd : (f.map leafOf).zipIdx.map (·.2) = List.range f.length := by
    have := List.zipIdx_map_snd 0 (f.map leafOf)
    rw [List.length_map, ← List.range_eq_range'] at this
    exact this
  refine ⟨?_, ?_, ?_, ?_, ?_, ?_, ?_, ?_, ?_⟩
  · rintro ⟨x, i⟩ hx
    obtain ⟨-, hi, hxi⟩ := List.mem_zipIdx hx
    simp only [Nat.zero_add, Nat.sub_zero] at hi hxi
    exact List.getElem?_eq_some_iff.2 ⟨hi, hxi.symm⟩
  · simp only [List.length_map, List.length_zipIdx]; omega
  · intro h h0
    have := congrArg List.length h0
    simp only [List.length_map, List.length_zipIdx, List.length_nil] at this
    exact h (List.length_eq_zero_iff.1 this)
  · rw [List.take_of_length_le (by simp)]
  · intro p e hp he
    have := (List.getElem?_eq_some_iff.1 he).1
    simp only [List.length_map] at this
    omega
  · rw [hsnd, List.drop_of_length_le (by simp)]
    simp [childrenOf]
  · have : (f.map leafOf).zipIdx.flatMap (·.1.key) = ((f.map leafOf).zipIdx.map (·.1)).flatMap (·.key) := by
      rw [List.flatMap_map]
    rw [this, hfst, List.flatMap_map]
    have : ∀ f : List FtabEntry, f.flatMap (fun e => (leafOf e).key) = f.map (·.sym) := by
      intro f
      induction f with
      | nil => rfl
      | cons e f ih =>
        simp only [leafOf] at ih
        simp [leafOf, ih]
    rw [this]
  · intro e he
    obtain ⟨x, _, rfl⟩ := List.mem_map.1 he
    simp [leafOf]
  · have : (f.map leafOf).zipIdx.map (·.1.freq.toNat) =
        ((f.map leafOf).zipIdx.map (·.1)).map (·.freq.toNat) := by rw [List.map_map]; rfl
    rw [this, hfst, List.map_map]
    rfl

theorem IsParent.append {nodes : List NodeEntry} {p : Nat} {e : NodeEntry} (x : List NodeEntry)
    (h : IsParent nodes p e) : IsParent (nodes ++ x) p e := by
  obtain ⟨l, r, hl, hr, hlp, hrp, hk, hf⟩ := h
  refine ⟨l, r, ?_, ?_, hlp, hrp, hk, hf⟩
  · rw [List.getElem?_append_left (List.getElem?_eq_some_iff.1 hl).1]; exact hl
  · rw [List.getElem?_append_left (List.getElem?_eq_some_iff.1 hr).1]; exact hr

/-- One merge keeps all of it (R153). -/
theorem MergeInv.merge {f : List FtabEntry} {nodes : List NodeEntry} {wl rest : List WorkItem}
    {bottom top : WorkItem} (h : MergeInv f nodes wl) (hperm : wl.Perm (bottom :: top :: rest))
    (hn : f.length ≤ 256) (hnodup : (f.map (·.sym)).Nodup)
    (hsum : (f.map (·.freq.toNat)).sum < 2 ^ 32) :
    MergeInv f (nodes ++ [parentOf bottom top]) (rest ++ [(parentOf bottom top, nodes.length)]) := by
  have hle := h.le_length
  have hcount := h.count
  have hwl := hperm.length_eq
  simp only [List.length_cons] at hwl
  have hb := h.named bottom (hperm.mem_iff.2 (by simp))
  have ht := h.named top (hperm.mem_iff.2 (by simp))
  have hblt := (List.getElem?_eq_some_iff.1 hb).1
  have htlt := (List.getElem?_eq_some_iff.1 ht).1
  have hb9 : (BitVec.ofNat 9 bottom.2).toNat = bottom.2 := by
    rw [BitVec.toNat_ofNat]; exact Nat.mod_eq_of_lt (by omega)
  have ht9 : (BitVec.ofNat 9 top.2).toNat = top.2 := by
    rw [BitVec.toNat_ofNat]; exact Nat.mod_eq_of_lt (by omega)
  have htotal := (hperm.map (·.1.freq.toNat)).sum_eq
  rw [h.total] at htotal
  simp only [List.map_cons, List.sum_cons] at htotal
  have hfreq : (bottom.1.freq + top.1.freq).toNat = bottom.1.freq.toNat + top.1.freq.toNat := by
    rw [BitVec.toNat_add]; exact Nat.mod_eq_of_lt (by omega)
  have hsyms := (hperm.flatMap_right (·.1.key)).symm.trans h.symbols
  simp only [List.flatMap_cons] at hsyms
  refine ⟨?_, ?_, ?_, ?_, ?_, ?_, ?_, ?_, ?_⟩
  · intro x hx
    rcases List.mem_append.1 hx with hx | hx
    · have := h.named x (hperm.mem_iff.2 (by simp [hx]))
      rw [List.getElem?_append_left (List.getElem?_eq_some_iff.1 this).1]
      exact this
    · rw [List.mem_singleton.1 hx]
      simp
  · simp only [List.length_append, List.length_singleton]; omega
  · intro _ h0; simp at h0
  · rw [List.take_append_of_le_length hle]; exact h.leaves
  · intro p e hp he
    by_cases hlt : p < nodes.length
    · rw [List.getElem?_append_left hlt] at he
      exact (h.parents p e hp he).append _
    · rw [List.getElem?_append_right (by omega)] at he
      have hpe : p = nodes.length := by
        have := (List.getElem?_eq_some_iff.1 he).1
        simp only [List.length_singleton] at this
        omega
      subst hpe
      simp only [Nat.sub_self, List.getElem?_cons_zero, Option.some.injEq] at he
      subst he
      refine IsParent.append _ ⟨bottom.1, top.1, ?_, ?_, ?_, ?_, rfl, hfreq⟩
      · simp only [parentOf, hb9]; exact hb
      · simp only [parentOf, ht9]; exact ht
      · simp only [parentOf, hb9]; exact hblt
      · simp only [parentOf, ht9]; exact htlt
  · rw [List.drop_append_of_le_length hle]
    have hc : childrenOf (nodes.drop f.length ++ [parentOf bottom top]) =
        childrenOf (nodes.drop f.length) ++ [bottom.2, top.2] := by
      simp only [childrenOf, List.flatMap_append, List.flatMap_cons, List.flatMap_nil, List.append_nil]
      simp only [parentOf, hb9, ht9]
    have hm := hperm.map (·.2)
    simp only [List.map_cons] at hm
    rw [hc, List.length_append, List.length_singleton, List.range_succ]
    simp only [List.map_append, List.map_cons, List.map_nil]
    have hown := h.owned
    have h1 : (childrenOf (nodes.drop f.length) ++ [bottom.2, top.2] ++ rest.map (·.2)).Perm
        (List.range nodes.length) := by
      refine List.Perm.trans ?_ hown
      rw [List.append_assoc]
      exact (hm.symm).append_left _
    have h2 := h1.append_right [nodes.length]
    rw [List.append_assoc] at h2
    exact h2
  · simp only [List.flatMap_append, List.flatMap_cons, List.flatMap_nil, List.append_nil]
    refine List.Perm.trans ?_ hsyms
    show (rest.flatMap (·.1.key) ++ (bottom.1.key ++ top.1.key)).Perm _
    rw [← List.append_assoc bottom.1.key]
    exact List.perm_append_comm
  · intro e he
    rcases List.mem_append.1 he with he | he
    · exact h.keys e he
    · rw [List.mem_singleton.1 he]
      have : (bottom.1.key ++ (top.1.key ++ rest.flatMap (·.1.key))).Nodup := hsyms.nodup_iff.2 hnodup
      rw [← List.append_assoc] at this
      exact (List.nodup_append.1 this).1
  · simp only [List.map_append, List.map_cons, List.map_nil, List.sum_append, List.sum_cons, List.sum_nil]
    show _ + ((bottom.1.freq + top.1.freq).toNat + 0) = _
    rw [hfreq]
    omega

/-- The last two elements of an arranged list, with the others: a rearrangement of the list. -/
theorem arrange_last_two {wl rest : List WorkItem} {top bottom : WorkItem}
    (h : (arrange itemBefore wl).reverse = top :: bottom :: rest) :
    wl.Perm (bottom :: top :: rest.reverse) := by
  have h1 : wl.Perm (top :: bottom :: rest) := by
    rw [← h]
    exact ((arrange_perm itemBefore wl).symm).trans (List.reverse_perm _).symm
  exact (h1.trans (.swap bottom top rest)).trans (((List.reverse_perm rest).symm.cons top).cons bottom)

/-- With as many merges allowed as WL has elements, the loop keeps the invariant and ends with WL of at most
one element (R157). -/
theorem mergeLoop_inv {f : List FtabEntry} (hn : f.length ≤ 256) (hnodup : (f.map (·.sym)).Nodup)
    (hsum : (f.map (·.freq.toNat)).sum < 2 ^ 32) (n : Nat) (nodes : List NodeEntry) (wl : List WorkItem)
    (h : MergeInv f nodes wl) (hfuel : wl.length ≤ n + 1) :
    MergeInv f (mergeLoop n nodes wl).1 (mergeLoop n nodes wl).2 ∧ (mergeLoop n nodes wl).2.length ≤ 1 := by
  induction n generalizing nodes wl with
  | zero => exact ⟨h, by simpa [mergeLoop] using hfuel⟩
  | succ n ih =>
    simp only [mergeLoop]
    have hlen := arrange_length itemBefore wl
    split
    · next top bottom rest heq =>
      have hperm := arrange_last_two heq
      refine ih _ _ (h.merge hperm hn hnodup hsum) ?_
      have := hperm.length_eq
      simp only [List.length_cons, List.length_append, List.length_nil] at *
      omega
    · next hne =>
      refine ⟨h, ?_⟩
      show wl.length ≤ 1
      by_contra hlt
      match hr : (arrange itemBefore wl).reverse with
      | top :: bottom :: rest => exact hne top bottom rest hr
      | [] | [_] =>
        have := congrArg List.length hr
        simp only [List.length_reverse, hlen, List.length_nil, List.length_singleton] at this
        omega

/-- The counts of the merge loop, with nothing assumed of the frequency table (R157): nodes and WL keep their
sum, WL ends with at most one element, and that element is the newest node. -/
theorem mergeLoop_counts (n : Nat) (nodes : List NodeEntry) (wl : List WorkItem) (hfuel : wl.length ≤ n + 1)
    (hlast : ∀ x, wl = [x] → x.2 + 1 = nodes.length) :
    (mergeLoop n nodes wl).1.length + (mergeLoop n nodes wl).2.length = nodes.length + wl.length ∧
      (mergeLoop n nodes wl).2.length ≤ 1 ∧ (wl ≠ [] → (mergeLoop n nodes wl).2 ≠ []) ∧
      ∀ x, (mergeLoop n nodes wl).2 = [x] → x.2 + 1 = (mergeLoop n nodes wl).1.length := by
  induction n generalizing nodes wl with
  | zero => exact ⟨rfl, by simpa [mergeLoop] using hfuel, id, hlast⟩
  | succ n ih =>
    simp only [mergeLoop]
    have hlen := arrange_length itemBefore wl
    split
    · next top bottom rest heq =>
      have hp := (arrange_last_two heq).length_eq
      simp only [List.length_cons, List.length_reverse] at hp
      have h := ih (nodes ++ [parentOf bottom top]) (rest.reverse ++ [(parentOf bottom top, nodes.length)])
        (by simp only [List.length_append, List.length_reverse, List.length_cons, List.length_nil]; omega)
        (by
          intro x hx
          have := congrArg List.length hx
          simp only [List.length_append, List.length_reverse, List.length_cons, List.length_nil] at this
          have hrest : rest = [] := List.length_eq_zero_iff.1 (by omega)
          subst hrest
          simp only [List.reverse_nil, List.nil_append, List.cons.injEq, and_true] at hx
          subst hx
          simp)
      simp only [List.length_append, List.length_reverse, List.length_cons, List.length_nil] at h
      exact ⟨by omega, h.2.1, fun _ => h.2.2.1 (by simp), h.2.2.2⟩
    · next hne =>
      refine ⟨rfl, ?_, id, hlast⟩
      show wl.length ≤ 1
      by_contra hlt
      match hr : (arrange itemBefore wl).reverse with
      | top :: bottom :: rest => exact hne top bottom rest hr
      | [] | [_] =>
        have := congrArg List.length hr
        simp only [List.length_reverse, hlen, List.length_nil, List.length_singleton] at this
        omega

/-- The nodes and the last working list of a frequency table. -/
theorem buildTree_inv {f : List FtabEntry} (hn : f.length ≤ 256) (hnodup : (f.map (·.sym)).Nodup)
    (hsum : (f.map (·.freq.toNat)).sum < 2 ^ 32) :
    ∃ wl, MergeInv f (buildTree f).1 wl ∧ wl.length ≤ 1 ∧
      (buildTree f).2 = (match wl with | [x] => BitVec.ofNat 9 x.2 | _ => Config.none9) := by
  have h := mergeLoop_inv hn hnodup hsum (f.map leafOf).length _ _ (MergeInv.start f) (by simp)
  exact ⟨_, h.1, h.2, rfl⟩

/-- The merge loop keeps the lengths of keys: if the keys in WL have together at most `m` bytes, none of them
empty, every key it makes has 1 to `m` bytes (R36, R153). -/
theorem mergeLoop_keyLengths {m : Nat} (n : Nat) (nodes : List NodeEntry) (wl : List WorkItem)
    (hnodes : ∀ e ∈ nodes, 1 ≤ e.key.length ∧ e.key.length ≤ m) (hpos : ∀ x ∈ wl, 1 ≤ x.1.key.length)
    (hsum : (wl.map (·.1.key.length)).sum ≤ m) :
    ∀ e ∈ (mergeLoop n nodes wl).1, 1 ≤ e.key.length ∧ e.key.length ≤ m := by
  induction n generalizing nodes wl with
  | zero => exact hnodes
  | succ n ih =>
    simp only [mergeLoop]
    split
    · next top bottom rest heq =>
      have hp := arrange_last_two heq
      have hs := (hp.map (·.1.key.length)).sum_nat
      have hb := hpos bottom (hp.mem_iff.2 (by simp))
      simp only [List.map_cons, List.sum_cons, List.map_reverse, List.sum_reverse] at hs
      apply ih
      · intro e he
        rcases List.mem_append.1 he with he | he
        · exact hnodes e he
        · obtain rfl := List.mem_singleton.1 he
          simp only [parentOf, List.length_append]
          omega
      · intro x hx
        rcases List.mem_append.1 hx with hx | hx
        · exact hpos x (hp.mem_iff.2 (by simp [List.mem_reverse.1 hx]))
        · obtain rfl := List.mem_singleton.1 hx
          simp only [parentOf, List.length_append]
          omega
      · simp only [List.map_append, List.map_reverse, List.sum_append, List.sum_reverse, List.map_cons,
          List.map_nil, List.sum_cons, List.sum_nil, parentOf, List.length_append]
        omega
    · exact hnodes

/-- Every key of the tree of a table of at most 256 symbols, whatever the table holds, has 1 to KEY_MAX
bytes (R6, R36). -/
theorem buildTree_keyLengths {f : List FtabEntry} (hn : f.length ≤ Config.keyMax) :
    ∀ e ∈ (buildTree f).1, 1 ≤ e.key.length ∧ e.key.length ≤ Config.keyMax := by
  have hleaf : ∀ e ∈ f.map leafOf, e.key.length = 1 := by
    intro e he
    obtain ⟨x, _, rfl⟩ := List.mem_map.1 he
    rfl
  have hsum : ((f.map leafOf).zipIdx.map (·.1.key.length)).sum = f.length := by
    have h : (f.map leafOf).zipIdx.map (·.1.key.length) =
        ((f.map leafOf).zipIdx.map (·.1)).map (·.key.length) := by rw [List.map_map]; rfl
    rw [h, List.zipIdx_map_fst 0 _, List.map_map]
    have h1 : (f.map ((·.key.length) ∘ leafOf)) = f.map fun _ => 1 := rfl
    rw [h1]
    simp
  apply mergeLoop_keyLengths
  · intro e he
    have h1 := hleaf e he
    have h2 := List.length_pos_of_mem he
    simp only [List.length_map] at h2
    omega
  · rintro ⟨x, i⟩ hx
    obtain ⟨-, hi, hxi⟩ := List.mem_zipIdx hx
    exact (hleaf x (hxi ▸ List.getElem_mem _)).ge
  · rw [hsum]; exact hn

end Sys2Proof.Machine
end

