-- ==== Sys2Proof/Tests/Slice0.lean ====
section
/-! SUPPORT. The model's own tests, their expected results taken from the spec's encodings and from
95_test_vectors.md, and for each statement with hypotheses a witness that meets them. -/

namespace Sys2Proof.Tests

open Sys2Proof.Machine

/-! ### Small states -/

/-- An instance with IN_MAX = 64 and the given OUT_MAX, right after reset. -/
def fresh (outMax : Word) : State := State.afterReset { inMax := 64, outMax := outMax } 0 0 [] .nothing

/-- The text is loaded (R98). -/
def loaded (outMax : Word) (x : Bytes) : State :=
  { fresh outMax with ibuf := Store.writeFrom [] 0 x, inLen := BitVec.ofNat 32 x.length }

/-- `aaab`. -/
def aaab : Bytes := [0x61, 0x61, 0x61, 0x62]

/-- `aaab` counted: the table of the example of R141. -/
def counted (outMax : Word) : State :=
  { loaded outMax aaab with phase := .counted, ftab := [(0, ⟨0x61, 3⟩), (1, ⟨0x62, 1⟩)], nsym := 2 }

/-- Its tree: the example of R151. -/
def treed (outMax : Word) : State :=
  { counted outMax with
    phase := .treed, nnode := 3, root := 2,
    node := [(0, ⟨[0x61], 3, 0x1FF, 0x1FF⟩), (1, ⟨[0x62], 1, 0x1FF, 0x1FF⟩), (2, ⟨[0x61, 0x62], 4, 0, 1⟩)] }

/-- Its codes: the example of R166. -/
def coded (outMax : Word) : State :=
  { treed outMax with phase := .coded, nent := 2, ctab := [(0, ⟨0x61, [false]⟩), (1, ⟨0x62, [true]⟩)] }

/-- The table of `aaab`. -/
def tableAB : List CtabEntry := [⟨0x61, [false]⟩, ⟨0x62, [true]⟩]

/-- The 21 bytes of the example of R196. -/
def streamAB : Bytes :=
  [0x2A, 0x54, 0x42, 0x4C, 0x2A, 0x0A, 0x61, 0x20, 0x30, 0x0A, 0x62, 0x20, 0x31, 0x0A,
   0x2A, 0x54, 0x42, 0x4C, 0x2A, 0x0A, 0x10]

/-- That stream, parsed. -/
def parsed (outMax : Word) : State :=
  { loaded outMax streamAB with
    phase := .parsed, nent := 2, hdrLen := 20, ctab := [(0, ⟨0x61, [false]⟩), (1, ⟨0x62, [true]⟩)] }

/-- The error state. -/
def failed : State := { fresh 64 with err := true, errcode := .sequence }

/-- The state after a command. -/
def after (i : Instr) (s : State) : State :=
  match exec i s with
  | .next t => t
  | .fault _ => s
  | .refused _ => s

/-! ### Well-formedness: an ill-formed word for each check (R90, R94) -/

theorem test_wf_reserved_bits :
    reservedBitsClear 0x00010000 = false ∧ reservedBitsClear 0x80000005 = false ∧
    reservedBitsClear 0x0000FF05 = true ∧ wordWf 0x00010000 = false := by decide
theorem test_wf_opcode :
    opcodeAssigned 0x0000000B = false ∧ opcodeAssigned 0x000000FF = false ∧ opcodeAssigned 0x0000000A = true ∧
    wordWf 0x0000000B = false := by decide
theorem test_wf_symbol :
    symOperandAllowed 0x00000100 = false ∧ symOperandAllowed 0x0000FF0A = false ∧
    symOperandAllowed 0x0000FF05 = true ∧ wordWf 0x00000100 = false := by decide

/-! ### Decoding: each word written out from R90, R92, R93 and opcode_table.json -/

theorem test_decode_nop : decode 0b00000000000000000000000000000000 = .command .nop := by decide
theorem test_decode_clr : decode 0b00000000000000000000000000000001 = .command .clr := by decide
theorem test_decode_freq : decode 0b00000000000000000000000000000010 = .command .freq := by decide
theorem test_decode_tree : decode 0b00000000000000000000000000000011 = .command .tree := by decide
theorem test_decode_codes : decode 0b00000000000000000000000000000100 = .command .codes := by decide
theorem test_decode_lookup :
    decode 0b00000000000000000110000100000101 = .command (.lookup 0x61) ∧
    decode 0b00000000000000001000000000000101 = .command (.lookup 0x80) := by decide
theorem test_decode_pack : decode 0b00000000000000000000000000000110 = .command .pack := by decide
theorem test_decode_enc : decode 0b00000000000000000000000000000111 = .command .enc := by decide
theorem test_decode_parse : decode 0b00000000000000000000000000001000 = .command .parse := by decide
theorem test_decode_unpack : decode 0b00000000000000000000000000001001 = .command .unpack := by decide
theorem test_decode_dec : decode 0b00000000000000000000000000001010 = .command .dec := by decide
theorem test_decode_illegal :
    decode 0x00010000 = .illegal .reservedBits ∧ decode 0x0001000B = .illegal .reservedBits ∧
    decode 0x0000000B = .illegal .reservedOpcode ∧ decode 0x0000FFFF = .illegal .reservedOpcode ∧
    decode 0x00000106 = .illegal .symNotZero := by decide
theorem test_decodeTableWord :
    decodeTableWord 32 0x00006105 = some (.lookup 0x61) ∧ decodeTableWord 32 0x0000000A = some .dec ∧
    decodeTableWord 32 0x0000000B = none ∧ decodeTableWord 8 0x07 = some .enc ∧
    decodeTableWord 64 0x100000007 = none := by decide
theorem test_encode_lookup : encode (.lookup 0x61) = 0x00006105 := by decide

/-! ### Commands, expected results from 95_test_vectors.md and the examples of the rules -/

/-- R131, example: STATUS = 2 after reset and NOP. -/
theorem test_nop_status : (after .nop (fresh 64)).regValue 1 = 0x00000002 := by decide
/-- R132, example, with NF set. -/
theorem test_clr_coded :
    (after .clr { coded 64 with nf := true }).regValue 1 = 0x00000002 ∧
    (after .clr (coded 64)).regValue 8 = 0x1FF ∧ (after .clr (coded 64)).regValue 3 = 4 := by decide
/-- R141, example. -/
theorem test_freq_aaab :
    (after .freq (loaded 64 aaab)).ftabValid = [⟨0x61, 3⟩, ⟨0x62, 1⟩] := by decide
/-- R146: bytes compare as unsigned numbers. -/
theorem test_freq_unsigned :
    (after .freq (loaded 64 [0x7F, 0x80])).ftabValid = [⟨0x80, 1⟩, ⟨0x7F, 1⟩] := by decide
/-- R151, example. -/
theorem test_tree_aaab :
    (after .tree (counted 64)).nodeValid =
      [⟨[0x61], 3, 0x1FF, 0x1FF⟩, ⟨[0x62], 1, 0x1FF, 0x1FF⟩, ⟨[0x61, 0x62], 4, 0, 1⟩] ∧
    (after .tree (counted 64)).root = 2 := by decide
/-- R164: all frequencies equal. -/
theorem test_tree_ties :
    (buildTree [⟨0x64, 2⟩, ⟨0x63, 2⟩, ⟨0x62, 2⟩, ⟨0x61, 2⟩]).1.drop 4 =
      [⟨[0x62, 0x61], 4, 2, 3⟩, ⟨[0x64, 0x63], 4, 0, 1⟩, ⟨[0x64, 0x63, 0x62, 0x61], 8, 5, 4⟩] := by decide
/-- R166, example. -/
theorem test_codes_aaab : (after .codes (treed 64)).ctabValid = tableAB := by decide
/-- The tree of `zzzz` (R159). -/
def single : State :=
  { fresh 64 with
    phase := .treed, nsym := 1, ftab := [(0, ⟨0x7A, 4⟩)], nnode := 1, root := 0,
    node := [(0, ⟨[0x7A], 4, 0x1FF, 0x1FF⟩)] }
/-- R168: one symbol. -/
theorem test_codes_single : (after .codes single).ctabValid = [⟨0x7A, [false]⟩] := by decide
/-- A table with the code `001` of `b`. -/
def tableB : State := { fresh 64 with phase := .parsed, nent := 1, ctab := [(0, ⟨0x62, [false, false, true]⟩)] }
/-- R173, example: `LOOKUP 'b'`. -/
theorem test_lookup_found :
    (after (.lookup 0x62) tableB).regValue 13 = 0x80006203 ∧
    (after (.lookup 0x62) tableB).regValue 16 = 0x20000000 := by decide
/-- R173, example: `LOOKUP 'x'`. -/
theorem test_lookup_missing :
    (after (.lookup 0x78) (coded 64)).regValue 13 = 0x00007800 ∧ (after (.lookup 0x78) (coded 64)).nf = true ∧
    (after (.lookup 0x78) (coded 64)).err = false := by decide
/-- R181, example. -/
theorem test_pack_aaab :
    (after .pack (coded 64)).output = streamAB ∧ (after .pack (coded 64)).padBits = 4 ∧
    (after .pack (coded 64)).bitLen = 4 ∧ (after .pack (coded 64)).pad = true := by decide +kernel
/-- R186: one byte of room too few, and just enough. -/
theorem test_pack_capacity :
    (after .pack (coded 20)).errcode = .capacity ∧ (after .pack (coded 20)).output = streamAB.take 20 ∧
    (after .pack (coded 20)).bitLen = 0 ∧ (after .pack (coded 20)).hdrLen = 20 ∧
    (after .pack (coded 21)).err = false := by decide +kernel
/-- R188: ENC of `aaab` is the stream of the example of R116. -/
theorem test_enc_aaab : (after .enc (loaded 64 aaab)).output = streamAB := by decide +kernel
/-- R188, corner case: the empty input. -/
theorem test_enc_empty :
    (after .enc (loaded 64 [])).output =
      [0x2A, 0x54, 0x42, 0x4C, 0x2A, 0x0A, 0x2A, 0x54, 0x42, 0x4C, 0x2A, 0x0A] := by decide +kernel
/-- R196, example. -/
theorem test_parse_stream :
    (after .parse (loaded 64 streamAB)).ctabValid = tableAB ∧ (after .parse (loaded 64 streamAB)).hdrLen = 20 := by
  decide +kernel
/-- R203: `*TBL*` NL `CR 0` NL (stream ends): BAD_TABLE with NENT = 1; and the token is the newline. -/
theorem test_parse_bad :
    (after .parse (loaded 64
      [0x2A, 0x54, 0x42, 0x4C, 0x2A, 0x0A, 0x43, 0x52, 0x20, 0x30, 0x0A])).errcode = .badTable ∧
    (after .parse (loaded 64
      [0x2A, 0x54, 0x42, 0x4C, 0x2A, 0x0A, 0x43, 0x52, 0x20, 0x30, 0x0A])).ctabValid = [⟨0x0A, [false]⟩] := by
  decide +kernel
/-- R204, example. -/
theorem test_unpack_stream :
    (after .unpack (parsed 64)).output = [0x61, 0x61, 0x61, 0x62, 0x61, 0x61, 0x61, 0x61] ∧
    (after .unpack (parsed 64)).trailBits = 0 := by decide +kernel
/-- The byte 10110110 with the codes `10` and `101`, which are not prefix-free. -/
def foreign : State :=
  { loaded 64 [0b10110110] with
    phase := .parsed, nent := 2, ctab := [(0, ⟨0x78, [true, false]⟩), (1, ⟨0x79, [true, false, true]⟩)] }
/-- R205: the shorter code always wins, and here a candidate of six bits is left over. -/
theorem test_unpack_foreign :
    (after .unpack foreign).output = [0x78] ∧ (after .unpack foreign).trailBits = 6 := by decide +kernel
/-- R207: `aaab` with four pad bits comes back as `aaabaaaa`. -/
theorem test_dec_stream :
    (after .dec (loaded 64 streamAB)).output = [0x61, 0x61, 0x61, 0x62, 0x61, 0x61, 0x61, 0x61] := by
  decide +kernel
/-- R210: MISSING_TABLE of the PARSE step (R203, `hello`). -/
theorem test_dec_hello :
    (after .dec (loaded 64 [0x68, 0x65, 0x6C, 0x6C, 0x6F])).regValue 2 = 1 ∧
    (after .dec (loaded 64 [0x68, 0x65, 0x6C, 0x6C, 0x6F])).regValue 1 = 0x00000006 := by decide +kernel

/-! ### Witnesses: states and operands that meet the hypotheses of the statements, at the boundaries -/

theorem witness_DecodeAndEncodeAgree :
    decode 0x0000FF05 = .command (.lookup 0xFF) ∧ decodeTableWord 32 0x0000FF05 = some (.lookup 0xFF) ∧
    decode 0x00000005 = .command (.lookup 0) ∧ encode .dec = 0x0000000A := by decide

theorem witness_DecodeTestsTheFieldsInOrder :
    (0x00010000 : Word).extractLsb' 16 16 ≠ 0 ∧
    ((0x0000000B : Word).extractLsb' 16 16 = 0 ∧ 0x0A < ((0x0000000B : Word).extractLsb' 0 8).toNat) ∧
    ((0x0000010A : Word).extractLsb' 16 16 = 0 ∧ ((0x0000010A : Word).extractLsb' 0 8).toNat ≤ 0x0A ∧
      (0x0000010A : Word).extractLsb' 0 8 ≠ 0x05 ∧ (0x0000010A : Word).extractLsb' 8 8 ≠ 0) ∧
    ((0x0000FF05 : Word).extractLsb' 16 16 = 0 ∧ ((0x0000FF05 : Word).extractLsb' 0 8).toNat ≤ 0x0A ∧
      (0x0000FF05 : Word).extractLsb' 0 8 = 0x05) ∧
    (decode 0x0000010A = .illegal .symNotZero ∧ (fresh 64).err = false) := by decide

theorem witness_StepRunsTheIssuedCommand :
    ((fresh 64).busy = false ∧ { fresh 64 with hostQueue := [.regWrite 0 7] }.hostQueue = .regWrite 0 7 :: [] ∧
      decode 7 = .command .enc) ∧
    decode 0x0B = .illegal .reservedOpcode ∧ (fresh 64).hostQueue = [] := by decide

/-- A command placed by `withFetchWord` is the next thing the machine runs. -/
theorem witness_NextStepRunsThePlacedWord :
    decodeTableWord 32 0x0000FF05 = some (.lookup 0xFF) ∧
    (match step ((loaded 64 aaab).withFetchWord 32 0x00000002) with
      | .next t => t.phase
      | .fault _ => .empty
      | .refused _ => .empty) = .counted := by decide +kernel

theorem witness_EveryCommandFinishes :
    (fresh 64).err = false ∧ (after .tree (fresh 64)).err = true ∧ (after .tree (fresh 64)).errcode = .sequence := by
  decide

theorem witness_IllegalWordRaisesIllegalCmd :
    (fresh 64).err = false ∧ 0x0B ≤ ((0x0000000B : Word).extractLsb' 0 8).toNat ∧
    (0x00010000 : Word).extractLsb' 16 16 ≠ 0 ∧
    ((0x00000104 : Word).extractLsb' 8 8 ≠ 0 ∧ (0x00000104 : Word).extractLsb' 0 8 ≠ 0x05) := by decide

theorem witness_WrongPhaseRaisesSequence :
    (fresh 64).err = false ∧ (fresh 64).phase ≠ .counted ∧ (fresh 64).phase ≠ .treed ∧ (fresh 64).phase ≠ .coded ∧
    (fresh 64).phase ≠ .parsed ∧ (counted 64).err = false ∧ (counted 64).phase ≠ .empty := by decide

theorem witness_RefusedWhileError :
    failed.err = true ∧ decode 0x00000002 ≠ .command .nop ∧ decode 0x00000002 ≠ .command .clr ∧
    decode 0x0000000B ≠ .command .nop ∧ HostAccess.ibufWrite 0 1 ≠ .reset := by decide

theorem witness_FirstErrorIsKept :
    (after .tree (fresh 64)).errcode ≠ (fresh 64).errcode ∧ (after .clr failed).errcode ≠ failed.errcode ∧
    (hostReset failed).errcode ≠ failed.errcode := by decide

theorem witness_InputTooLongRaisesCapacity :
    (fresh 64).params.inMax.val < { fresh 64 with inLen := 65 }.inLen.toNat ∧
    { fresh 64 with inLen := 65 }.ready .empty ∧ { coded 64 with inLen := 65 }.ready .coded ∧
    { parsed 64 with inLen := 65 }.ready .parsed := by
  refine ⟨by decide, ⟨rfl, rfl⟩, ⟨rfl, rfl⟩, ⟨rfl, rfl⟩⟩

theorem witness_PhaseTransitions :
    (after .clr (coded 64)).phase = .empty ∧ (after .freq (loaded 64 aaab)).phase = .counted ∧
    (after .tree (counted 64)).phase = .treed ∧ (after .codes (treed 64)).phase = .coded ∧
    (after .enc (loaded 64 aaab)).phase = .coded ∧ (after .parse (loaded 64 streamAB)).phase = .parsed ∧
    (after .enc (loaded 64 aaab)).err = false ∧ (after .parse (loaded 64 streamAB)).err = false := by
  decide +kernel

theorem witness_RegisterReadsByNumber : (coded 64).busy = false := rfl

theorem witness_HostReadsChangeNothing :
    ∃ n, HostAccess.nodeRead 511 = .regRead n ∨ HostAccess.nodeRead 511 = .ibufRead n ∨
      HostAccess.nodeRead 511 = .obufRead n ∨ HostAccess.nodeRead 511 = .ftabRead n ∨
      HostAccess.nodeRead 511 = .ctabRead n ∨ HostAccess.nodeRead 511 = .nodeRead n := ⟨511, by decide⟩

theorem witness_HostReadsReturnValidPlaces :
    (after .pack (coded 21)).busy = false ∧ 63 < (after .pack (coded 21)).params.inMax.val ∧
    (20 < (after .pack (coded 21)).params.outMax.toNat ∧ 20 < (after .pack (coded 21)).outLen.toNat) ∧
    1 < (after .pack (coded 21)).nsym.toNat ∧ 1 < (after .pack (coded 21)).nent.toNat ∧
    2 < (after .pack (coded 21)).nnode.toNat := by decide +kernel

/-- The last byte of IBUF and the first index beyond it. -/
theorem witness_HostWritesReachOnlyTheirPlace :
    (fresh 64).busy = false ∧ 63 < (fresh 64).params.inMax.val ∧ (fresh 64).params.inMax.val ≤ 64 ∧
    (62 : Nat) ≠ 63 := by decide

theorem witness_ReservedReadZeroIgnoreWrites :
    (fresh 64).busy = false ∧ (14 : Nat) ≠ 0 ∧ (14 : Nat) ≠ 3 ∧ 24 ≤ (24 : Nat) ∧
    ({ coded 64 with resFound := true, resSym := 0xFF, resLen := 0xFF }.regValue 13) = 0x8000FFFF := by decide

theorem witness_BusyHostAccessIsIgnored : { fresh 64 with busy := true }.busy = true := rfl

theorem witness_OrdersAreStrictAndTotal :
    keylt [0x7F] [0x80] = true ∧ keylt [] [0x00] = true ∧ keylt [0x61] [0x61, 0x00] = true ∧
    before ([0x62], 2) ([0x61], 2) = true ∧ before ([0x61], 2) ([0x61, 0x62], 1) = true ∧
    ([0x62] : Bytes) ≠ [0x61] := by decide

theorem witness_SortGivesPriorityOrder :
    (([⟨0x61, 1⟩, ⟨0x62, 1⟩, ⟨0x00, 5⟩] : List FtabEntry).map (·.sym)).Nodup ∧
    sortPriority [⟨0x61, 1⟩, ⟨0x62, 1⟩, ⟨0x00, 5⟩] = [⟨0x00, 5⟩, ⟨0x62, 1⟩, ⟨0x61, 1⟩] := by decide

theorem loaded_ready : (loaded 64 aaab).ready .empty ∧ (loaded 64 aaab).inputFits :=
  ⟨⟨rfl, rfl⟩, by unfold State.inputFits; decide⟩

/-- Accepted; one byte more than IN_MAX; another phase. -/
theorem witness_FreqCountsTheInput :
    ((loaded 64 aaab).ready .empty ∧ (loaded 64 aaab).inputFits) ∧
    ({ fresh 64 with inLen := 65 }.ready .empty ∧
      { fresh 64 with inLen := 65 }.params.inMax.val < { fresh 64 with inLen := 65 }.inLen.toNat) ∧
    ((counted 64).err = false ∧ (counted 64).phase ≠ .empty) :=
  ⟨loaded_ready, ⟨⟨rfl, rfl⟩, by decide⟩, rfl, by decide⟩

theorem witness_FreqIgnoresTheOrder :
    (loaded 64 [0x62, 0x61]).ready .empty ∧ (loaded 64 [0x61, 0x62]).ready .empty ∧
    (loaded 64 [0x62, 0x61]).inputFits ∧ (loaded 64 [0x61, 0x62]).inputFits ∧
    (loaded 64 [0x62, 0x61]).input.Perm (loaded 64 [0x61, 0x62]).input ∧
    ∃ t t', exec .freq (loaded 64 [0x62, 0x61]) = .next t ∧ exec .freq (loaded 64 [0x61, 0x62]) = .next t' := by
  refine ⟨⟨rfl, rfl⟩, ⟨rfl, rfl⟩, ?_, ?_, by decide, _, _, rfl, rfl⟩ <;> (unfold State.inputFits; decide)

theorem counted_ftabOk : FtabOk (counted 64).ftabValid := by
  unfold FtabOk PrioritySorted
  decide

theorem treed_treeOk : TreeOk (treed 64).ftabValid (treed 64).nodeValid (treed 64).root where
  noSymbol h := absurd h (by decide)
  count _ := by decide
  rootIndex _ := by decide
  leaves := by decide
  parents p e hp he := by
    have hlt := (List.getElem?_eq_some_iff.1 he).1
    have h2 : (treed 64).ftabValid.length = 2 := by decide
    have h3 : (treed 64).nodeValid.length = 3 := by decide
    obtain rfl : p = 2 := by omega
    obtain rfl : e = ⟨[0x61, 0x62], 4, 0, 1⟩ := by
      have h : (treed 64).nodeValid[2]? = some ⟨[0x61, 0x62], 4, 0, 1⟩ := by decide
      exact Option.some.inj (he.symm.trans h)
    exact ⟨⟨[0x61], 3, 0x1FF, 0x1FF⟩, ⟨[0x62], 1, 0x1FF, 0x1FF⟩, by decide⟩
  ownership := by decide
  keys := by decide
  keyLengths := by decide
  total e he := by
    have h : (treed 64).nodeValid[2]? = some ⟨[0x61, 0x62], 4, 0, 1⟩ := by decide
    obtain rfl : e = ⟨[0x61, 0x62], 4, 0, 1⟩ := Option.some.inj (he.symm.trans h)
    decide

theorem witness_TreeIsBuilt :
    (counted 64).ready .counted ∧ (counted 64).nsym.toNat ≤ 256 ∧ FtabOk (counted 64).ftabValid :=
  ⟨⟨rfl, rfl⟩, by decide, counted_ftabOk⟩

theorem witness_TreeMergesTheTwoLowest :
    (counted 64).ready .counted ∧ (counted 64).nsym.toNat ≤ 256 ∧ FtabOk (counted 64).ftabValid ∧
    ∃ t, exec .tree (counted 64) = .next t :=
  ⟨⟨rfl, rfl⟩, by decide, counted_ftabOk, _, rfl⟩

theorem witness_TreeOfOneSymbolAndOfNone :
    { counted 64 with nsym := 1 }.ready .counted ∧ { counted 64 with nsym := 1 }.nsym = 1 ∧
    { counted 64 with nsym := 0 }.ready .counted ∧ { counted 64 with nsym := 0 }.nsym = 0 :=
  ⟨⟨rfl, rfl⟩, rfl, ⟨rfl, rfl⟩, rfl⟩

theorem witness_TreeAndCodesCannotFail :
    (counted 64).ready .counted ∧ (counted 64).nsym.toNat ≤ 256 ∧ (treed 64).ready .treed :=
  ⟨⟨rfl, rfl⟩, by decide, ⟨rfl, rfl⟩⟩

theorem witness_CodesFollowTheTree :
    (treed 64).ready .treed ∧ 2 ≤ (treed 64).nsym.toNat ∧ (treed 64).nsym.toNat ≤ 256 ∧
    FtabOk (treed 64).ftabValid ∧ TreeOk (treed 64).ftabValid (treed 64).nodeValid (treed 64).root :=
  ⟨⟨rfl, rfl⟩, by decide, by decide, counted_ftabOk, treed_treeOk⟩

theorem witness_CodesOfOneSymbolAndOfNone :
    { treed 64 with nsym := 1 }.ready .treed ∧ { treed 64 with nsym := 1 }.nsym = 1 ∧
    { treed 64 with nsym := 0 }.ready .treed ∧ { treed 64 with nsym := 0 }.nsym = 0 :=
  ⟨⟨rfl, rfl⟩, rfl, ⟨rfl, rfl⟩, rfl⟩

/-- A code of 255 bits, the longest an entry holds. -/
def longest : State :=
  { fresh 64 with phase := .coded, nent := 1, ctab := [(0, ⟨0x61, List.replicate 255 true⟩)] }

theorem witness_LookupReportsTheCode :
    ((coded 64).ready .coded ∧ findCode (coded 64).ctabValid 0x62 = some [true]) ∧
    ((parsed 64).ready .parsed ∧ findCode (parsed 64).ctabValid 0x61 = some [false]) ∧
    (longest.ready .coded ∧ findCode longest.ctabValid 0x61 = some (List.replicate 255 true) ∧
      (List.replicate 255 true).length ≤ 255) :=
  ⟨⟨⟨rfl, rfl⟩, by decide⟩, ⟨⟨rfl, rfl⟩, by decide⟩, ⟨rfl, rfl⟩, by decide +kernel, by decide +kernel⟩

theorem witness_LookupMissSetsNf :
    ((coded 64).ready .coded ∧ findCode (coded 64).ctabValid 0x00 = none) ∧
    ((parsed 64).ready .parsed ∧ findCode (parsed 64).ctabValid 0xFF = none) :=
  ⟨⟨⟨rfl, rfl⟩, by decide⟩, ⟨⟨rfl, rfl⟩, by decide⟩⟩

theorem witness_SearchesTakeTheFirstMatch :
    findCode [⟨0x61, [false]⟩, ⟨0x61, [true]⟩] 0x61 = some [false] ∧ findCode tableAB 0x63 = none ∧
    matchCode [⟨0x61, [false]⟩, ⟨0x62, [false]⟩] [false] = some 0x61 ∧ matchCode tableAB [] = none := by decide

theorem witness_TokensAreSwapped : tok 0x43 = [0x43] ∧ (0x43 : Byte) ≠ 0x0A ∧ (0x43 : Byte) ≠ 0x0D ∧
    (0x43 : Byte) ≠ 0x20 := by decide

theorem witness_HeaderSplitsIntoItsLines :
    (1 ≤ [false].length ∧ (List.replicate 255 true).length ≤ 255) ∧
    header tableAB = streamAB.take 20 ∧
    terminatedLines (header tableAB ++ [0x0A, 0x10]) = [marker, [0x61, 0x20, 0x30], [0x62, 0x20, 0x31], marker, []] := by
  decide +kernel

theorem witness_BitsAndBytesAreInverse :
    bitsOfByte 0x96 = [true, false, false, true, false, true, true, false] ∧
    byteOfBits [true, false, false, true, false, true, true, false] = 0x96 ∧
    ([0x00, 0x96] : Bytes)[1]? = some 0x96 ∧ (unpackBytes [0x00, 0x96]).length % 8 = 0 := by decide

theorem witness_PackWritesTheStream :
    (coded 21).ready .coded ∧ (coded 21).inputFits ∧
    (encodedStream (coded 21).ctabValid (coded 21).input).length = (coded 21).params.outMax.toNat ∧
    CodesBounded (coded 21).ctabValid := by
  refine ⟨⟨rfl, rfl⟩, ?_, by decide +kernel, ?_⟩
  · unfold State.inputFits; decide
  · unfold CodesBounded; decide

/-- No room for the header, for the first payload byte, for the padded one. -/
theorem witness_PackOverflowKeepsTheFirstBytes :
    ((coded 19).ready .coded ∧ (coded 19).inputFits ∧
      (coded 19).params.outMax.toNat < (encodedStream (coded 19).ctabValid (coded 19).input).length ∧
      (coded 19).params.outMax.toNat < (header (coded 19).ctabValid).length) ∧
    ((coded 20).ready .coded ∧ (coded 20).inputFits ∧
      (coded 20).params.outMax.toNat < (encodedStream (coded 20).ctabValid (coded 20).input).length ∧
      (header (coded 20).ctabValid).length ≤ (coded 20).params.outMax.toNat) := by
  refine ⟨⟨⟨rfl, rfl⟩, ?_, by decide +kernel, by decide +kernel⟩,
    ⟨rfl, rfl⟩, ?_, by decide +kernel, by decide +kernel⟩ <;> (unfold State.inputFits; decide)

theorem witness_EncIsTheFourCommands :
    (loaded 64 aaab).ready .empty ∧ (loaded 64 aaab).inputFits ∧
    (encodedStream tableAB (loaded 64 aaab).input).length ≤ (loaded 64 aaab).params.outMax.toNat :=
  ⟨loaded_ready.1, loaded_ready.2, by decide +kernel⟩

theorem witness_EncWritesTheStream :
    (loaded 66444 aaab).ready .empty ∧ (loaded 66444 aaab).inputFits ∧
    66316 + 32 * (loaded 66444 aaab).inLen.toNat ≤ (loaded 66444 aaab).params.outMax.toNat :=
  ⟨⟨rfl, rfl⟩, by unfold State.inputFits; decide, by decide⟩

theorem witness_EncNeverMeetsUnknown :
    (loaded 64 aaab).ready .empty ∧ (loaded 64 aaab).inputFits ∧ 0x62 ∈ (loaded 64 aaab).input ∧
    ∃ t, exec .enc (loaded 64 aaab) = .next t :=
  ⟨loaded_ready.1, loaded_ready.2, by decide, _, rfl⟩

theorem witness_EncDependsOnTheInputAlone :
    (loaded 64 aaab).ready .empty ∧ (loaded 64 aaab).inputFits ∧
    { loaded 20 aaab with epoch := 1 }.ready .empty ∧ { loaded 20 aaab with epoch := 1 }.inputFits ∧
    (loaded 64 aaab).input = { loaded 20 aaab with epoch := 1 }.input ∧
    ∃ t t', exec .enc (loaded 64 aaab) = .next t ∧ exec .enc { loaded 20 aaab with epoch := 1 } = .next t' :=
  ⟨loaded_ready.1, loaded_ready.2, ⟨rfl, rfl⟩, by unfold State.inputFits; decide, by decide, _, _, rfl, rfl⟩

theorem tableAB_fits : TableFits tableAB := by
  unfold TableFits; decide

theorem witness_ParseRecoversTheTable :
    (loaded 64 streamAB).ready .empty ∧ (loaded 64 streamAB).inputFits ∧ TableFits tableAB ∧
    (loaded 64 streamAB).input = header tableAB ++ [0x10] :=
  ⟨⟨rfl, rfl⟩, by unfold State.inputFits; decide, tableAB_fits, by decide +kernel⟩

/-- The two-space line of R203, which no encoder writes. -/
theorem witness_ParseReadsWellFormedLines :
    (loaded 64 (marker ++ 0x0A :: [0x20, 0x20, 0x30, 0x31, 0x0A] ++ marker ++ [0x0A])).ready .empty ∧
    (loaded 64 (marker ++ 0x0A :: [0x20, 0x20, 0x30, 0x31, 0x0A] ++ marker ++ [0x0A])).inputFits ∧
    (∀ l ∈ ([[0x20, 0x20, 0x30, 0x31]] : List Bytes), (0x0A : Byte) ∉ l ∧ l ≠ marker) ∧
    ([[0x20, 0x20, 0x30, 0x31]] : List Bytes).map parseEntry =
      ([⟨0x20, [false, true]⟩] : List CtabEntry).map some ∧
    (loaded 64 (marker ++ 0x0A :: [0x20, 0x20, 0x30, 0x31, 0x0A] ++ marker ++ [0x0A])).input =
      marker ++ 0x0A :: (([[0x20, 0x20, 0x30, 0x31]] : List Bytes).flatMap fun l => l ++ [0x0A]) ++ marker ++
        0x0A :: [] := by
  refine ⟨⟨rfl, rfl⟩, ?_, by decide, by decide, by decide +kernel⟩
  unfold State.inputFits; decide

theorem witness_ParseWithoutMarkerRaisesMissingTable :
    ((loaded 64 []).ready .empty ∧ (loaded 64 []).inputFits ∧
      ¬ ∃ r, (loaded 64 []).input = marker ++ 0x0A :: r) ∧
    ((loaded 64 streamAB).ready .empty ∧ (loaded 64 streamAB).inputFits ∧
      ∃ r, (loaded 64 streamAB).input = marker ++ 0x0A :: r) := by
  refine ⟨⟨⟨rfl, rfl⟩, by unfold State.inputFits; decide, ?_⟩,
    ⟨rfl, rfl⟩, by unfold State.inputFits; decide, streamAB.drop 6, by decide +kernel⟩
  rintro ⟨r, h⟩
  have h0 : (loaded 64 []).input = [] := by decide
  rw [h0] at h
  cases h

/-- An instance with IN_MAX = 2048 and a text loaded. -/
def loadedBig (x : Bytes) : State :=
  { State.afterReset { inMax := 2048, outMax := 64 } 0 0 [] .nothing with
    ibuf := Store.writeFrom [] 0 x, inLen := BitVec.ofNat 32 x.length }

theorem loadedBig_input (x : Bytes) (h : x.length < 2 ^ 32) : (loadedBig x).input = x := by
  have hn : (BitVec.ofNat 32 x.length).toNat = x.length := by
    rw [BitVec.toNat_ofNat, Nat.mod_eq_of_lt h]
  have hi : (loadedBig x).input = (List.range' 0 (BitVec.ofNat 32 x.length).toNat).map fun a =>
      (Store.read (Store.writeFrom [] 0 x) a).getD (Config.ibufAtReset 0 a) := rfl
  rw [hi, hn, ← List.range_eq_range']
  exact Store.map_read_writeFrom [] x (Config.ibufAtReset 0)

/-- 256 lines `a 0`, the most a table takes. -/
def lines256 : List Bytes := List.replicate 256 [0x61, 0x20, 0x30]

/-- A stream with a 257th entry line `b 1`. -/
def stream257 : Bytes :=
  marker ++ 0x0A :: (lines256.flatMap fun l => l ++ [0x0A]) ++ ([0x62, 0x20, 0x31] ++ 0x0A :: [])

/-- (a) nothing after the marker, (b) an empty line, (c) a 257th entry. -/
theorem witness_MalformedTableRaisesBadTable :
    ((loadedBig (marker ++ [0x0A])).ready .empty ∧ (loadedBig (marker ++ [0x0A])).inputFits ∧
      (loadedBig (marker ++ [0x0A])).input =
        marker ++ 0x0A :: (([] : List Bytes).flatMap fun l => l ++ [0x0A]) ++ [] ∧ (0x0A : Byte) ∉ ([] : Bytes)) ∧
    ((loadedBig (marker ++ [0x0A, 0x0A])).ready .empty ∧ (loadedBig (marker ++ [0x0A, 0x0A])).inputFits ∧
      (loadedBig (marker ++ [0x0A, 0x0A])).input =
        marker ++ 0x0A :: (([] : List Bytes).flatMap fun l => l ++ [0x0A]) ++ ([] ++ 0x0A :: []) ∧
      (0x0A : Byte) ∉ ([] : Bytes) ∧ ([] : Bytes) ≠ marker ∧ parseEntry [] = none) ∧
    ((loadedBig stream257).ready .empty ∧ (loadedBig stream257).inputFits ∧
      (∀ l ∈ lines256, (0x0A : Byte) ∉ l ∧ l ≠ marker) ∧
      lines256.map parseEntry = (List.replicate 256 (⟨0x61, [false]⟩ : CtabEntry)).map some ∧
      (List.replicate 256 (⟨0x61, [false]⟩ : CtabEntry)).length = 256 ∧
      (loadedBig stream257).input =
        marker ++ 0x0A :: (lines256.flatMap fun l => l ++ [0x0A]) ++ ([0x62, 0x20, 0x31] ++ 0x0A :: []) ∧
      (0x0A : Byte) ∉ ([0x62, 0x20, 0x31] : Bytes) ∧ ([0x62, 0x20, 0x31] : Bytes) ≠ marker) := by
  refine ⟨⟨⟨rfl, rfl⟩, ?_, loadedBig_input _ (by decide), by decide⟩,
    ⟨⟨rfl, rfl⟩, ?_, loadedBig_input _ (by decide), by decide, by decide, by decide⟩,
    ⟨rfl, rfl⟩, ?_, by decide +kernel, by decide +kernel, by decide +kernel,
    loadedBig_input stream257 (by decide +kernel), by decide, by decide⟩ <;>
    (unfold State.inputFits; decide +kernel)

theorem witness_UnpackFollowsTheMatchRule :
    ((parsed 8).ready .parsed ∧ (parsed 8).inputFits) ∧ ((parsed 7).ready .parsed ∧ (parsed 7).inputFits) ∧
    (after .unpack (parsed 8)).err = false ∧ (after .unpack (parsed 7)).err = true := by
  refine ⟨⟨⟨rfl, rfl⟩, ?_⟩, ⟨⟨rfl, rfl⟩, ?_⟩, by decide +kernel, by decide +kernel⟩ <;>
    (unfold State.inputFits; decide)

theorem witness_UnpackCompletesWithRoom :
    (parsed 8).ready .parsed ∧ (parsed 8).inputFits ∧
    8 * (parsed 8).payload.length = (parsed 8).params.outMax.toNat :=
  ⟨⟨rfl, rfl⟩, by unfold State.inputFits; decide, by decide +kernel⟩

theorem witness_UnpackIgnoresTheEntryOrder :
    ({ parsed 64 with ctab := [(0, ⟨0x62, [true]⟩), (1, ⟨0x61, [false]⟩)] }.ctabValid).Perm (parsed 64).ctabValid ∧
    ((parsed 64).ctabValid.map (·.code)).Nodup ∧ ∃ t, exec .unpack (parsed 64) = .next t :=
  ⟨by decide, by decide, _, rfl⟩

theorem witness_DecIsParseThenUnpack :
    (loaded 64 streamAB).ready .empty ∧ (after .parse (loaded 64 streamAB)).err = false ∧
    (loaded 64 []).ready .empty ∧ (after .parse (loaded 64 [])).err = true :=
  ⟨⟨rfl, rfl⟩, by decide +kernel, ⟨rfl, rfl⟩, by decide +kernel⟩

theorem witness_DecOfAnEncodedStream :
    (loaded 11 streamAB).ready .empty ∧ (loaded 11 streamAB).inputFits ∧ TableFits tableAB ∧ PrefixFree tableAB ∧
    hasUnknown tableAB aaab = false ∧ (loaded 11 streamAB).input = encodedStream tableAB aaab ∧
    aaab.length + 7 ≤ (loaded 11 streamAB).params.outMax.toNat ∧
    ({ sym := 0x61, code := [false] } : CtabEntry) ∈ tableAB ∧ (∀ b ∈ [false], b = false) ∧
    (∀ e ∈ ([⟨0x62, [true]⟩] : List CtabEntry), ∃ b ∈ e.code, b = true) := by
  refine ⟨⟨rfl, rfl⟩, ?_, tableAB_fits, ?_, by decide, by decide +kernel, by decide, by decide, by decide, by decide⟩
  · unfold State.inputFits; decide
  · unfold PrefixFree; decide

theorem witness_DecOfEncIsTheText :
    (loaded 64 aaab).ready .empty ∧ (loaded 64 aaab).inputFits ∧ (after .enc (loaded 64 aaab)).err = false ∧
    (loaded 64 streamAB).ready .empty ∧ (loaded 64 streamAB).inputFits ∧
    (loaded 64 streamAB).input = (after .enc (loaded 64 aaab)).output ∧
    (loaded 64 aaab).input.length + 7 ≤ (loaded 64 streamAB).params.outMax.toNat ∧ (loaded 64 aaab).input ≠ [] :=
  ⟨loaded_ready.1, loaded_ready.2, by decide +kernel, ⟨rfl, rfl⟩, by unfold State.inputFits; decide,
    by decide +kernel, by decide, by decide⟩

theorem witness_CommandsKeepTheInput :
    (∃ t, issueWord 0x0000000A (loaded 64 streamAB) = .next t) ∧ ∃ t, issueWord 0x0000000B (fresh 64) = .next t :=
  ⟨⟨_, rfl⟩, _, rfl⟩

theorem witness_OutputBeyondOutLenIsKept :
    ∃ t, exec .pack (coded 20) = .next t := ⟨_, rfl⟩

theorem witness_NfIsSticky :
    { coded 64 with nf := true }.nf = true ∧ (hostReset { coded 64 with nf := true }).nf = false ∧
    (after .clr { coded 64 with nf := true }).nf = false := by decide

theorem witness_TablesAreImmutableInASession :
    (coded 64).phase ≠ .empty ∧ HostAccess.regWrite 0 0x00000002 ≠ .reset ∧ decode 0x00000002 ≠ .command .clr ∧
    ∃ t, hostStep (.regWrite 0 0x00000002) (coded 64) = .next t :=
  ⟨by decide, by decide, by decide, _, rfl⟩

/-- In CODED, where every clause of the table invariants but `parsed` speaks. -/
theorem coded_tablesOk : (coded 64).tablesOk where
  ftab _ := counted_ftabOk
  tree _ := treed_treeOk
  codes _ := ⟨by decide, by unfold CodesBounded; decide, by unfold PrefixFree; decide⟩
  parsed h := absurd h (by decide)

theorem coded_inv : (coded 64).Inv where
  canonical := by decide
  inBounds := by decide
  keys := by decide
  idle := rfl
  outputFits := by decide
  flags := by unfold State.flagsMatch; decide
  session := by
    show (coded 64).nsym.toNat ≤ 256 ∧ (coded 64).nent = (coded 64).nsym ∧ State.treeCounts (coded 64)
    unfold State.treeCounts
    decide

theorem witness_StepKeepsTheInvariants :
    (coded 64).Inv ∧ ∃ t, step { coded 64 with hostQueue := [.regWrite 0 6] } = .next t :=
  ⟨coded_inv, _, rfl⟩

theorem witness_StepKeepsTheTables : (coded 64).Inv ∧ (coded 64).tablesOk ∧ ∃ t, step (coded 64) = .next t :=
  ⟨coded_inv, coded_tablesOk, _, rfl⟩

end Sys2Proof.Tests
end

