-- ==== Sys2Proof/Proofs/PriorityOrder.lean ====
section
/-! PROOFS. The key order and the priority order as the words of R11 and R12 say them. -/

namespace Sys2Proof.Machine

/-! ### The key order (R11) -/

@[simp] theorem keylt_nil_right (a : Bytes) : keylt a [] = false := by cases a <;> rfl

@[simp] theorem keylt_nil_left (b : Bytes) : keylt [] b = true ↔ b ≠ [] := by cases b <;> simp [keylt]

@[simp] theorem keylt_cons_same (x : Byte) (a b : Bytes) : keylt (x :: a) (x :: b) = keylt a b := by
  simp [keylt]

theorem keylt_cons_of_ne {x y : Byte} (h : x ≠ y) (a b : Bytes) :
    keylt (x :: a) (y :: b) = true ↔ x.toNat < y.toNat := by
  simp [keylt, h, BitVec.lt_def]

/-- Only what follows the common beginning counts. -/
@[simp] theorem keylt_append_left (p a b : Bytes) : keylt (p ++ a) (p ++ b) = keylt a b := by
  induction p with
  | nil => rfl
  | cons x p ih => simpa using ih

theorem keylt_of_properPrefix {a b : Bytes} (hp : a <+: b) (hne : a ≠ b) : keylt a b = true := by
  obtain ⟨c, rfl⟩ := hp
  have hc : c ≠ [] := fun h => hne (by simp [h])
  have hlt : keylt (a ++ []) (a ++ c) = true := by rwa [keylt_append_left, keylt_nil_left]
  rwa [List.append_nil] at hlt

theorem keylt_of_smallerByte (p a b : Bytes) {x y : Byte} (h : x.toNat < y.toNat) :
    keylt (p ++ x :: a) (p ++ y :: b) = true := by
  have hne : x ≠ y := fun hxy => by simp [hxy] at h
  rwa [keylt_append_left, keylt_cons_of_ne hne]

theorem properPrefix_or_smallerByte_of_keylt {a b : Bytes} (h : keylt a b = true) :
    (a <+: b ∧ a ≠ b) ∨
    (∃ (p a' b' : Bytes) (x y : Byte), a = p ++ x :: a' ∧ b = p ++ y :: b' ∧ x.toNat < y.toNat) := by
  induction a generalizing b with
  | nil => exact .inl ⟨List.nil_prefix, ((keylt_nil_left b).1 h).symm⟩
  | cons u a ih =>
    cases b with
    | nil => simp at h
    | cons v b =>
      by_cases huv : u = v
      · subst huv
        rw [keylt_cons_same] at h
        rcases ih h with ⟨hp, hne⟩ | ⟨p, a', b', x, y, rfl, rfl, hxy⟩
        · exact .inl ⟨List.cons_prefix_cons.2 ⟨rfl, hp⟩, by simpa using hne⟩
        · exact .inr ⟨u :: p, a', b', x, y, rfl, rfl, hxy⟩
      · exact .inr ⟨[], a, b, u, v, rfl, rfl, (keylt_cons_of_ne huv a b).1 h⟩

/-- R11 in its own words. -/
theorem keylt_iff (a b : Bytes) : keylt a b = true ↔
    (a <+: b ∧ a ≠ b) ∨
    (∃ (p a' b' : Bytes) (x y : Byte), a = p ++ x :: a' ∧ b = p ++ y :: b' ∧ x.toNat < y.toNat) := by
  refine ⟨properPrefix_or_smallerByte_of_keylt, ?_⟩
  rintro (⟨hp, hne⟩ | ⟨p, a', b', x, y, rfl, rfl, hxy⟩)
  · exact keylt_of_properPrefix hp hne
  · exact keylt_of_smallerByte p a' b' hxy

/-! ### The priority order (R12) -/

/-- R12 in its own words. -/
theorem before_iff (x y : Bytes × Word) : before x y = true ↔
    (y.2.toNat < x.2.toNat ∨ (x.2 = y.2 ∧ keylt y.1 x.1 = true)) := by
  simp [before, BitVec.lt_def]

theorem before_irrefl (x : Bytes × Word) : before x x = false := by
  simp [before, keylt_irrefl]

theorem before_trans {x y z : Bytes × Word} (hxy : before x y = true) (hyz : before y z = true) :
    before x z = true := by
  rw [before_iff] at *
  rcases hxy with hxy | ⟨exy, hxy⟩ <;> rcases hyz with hyz | ⟨eyz, hyz⟩
  · exact .inl (hyz.trans hxy)
  · exact .inl (eyz ▸ hxy)
  · exact .inl (exy ▸ hyz)
  · exact .inr ⟨exy.trans eyz, keylt_trans hyz hxy⟩

theorem before_asymm {x y : Bytes × Word} (hxy : before x y = true) : ¬ before y x = true := by
  intro hyx
  have hxx := before_trans hxy hyx
  simp [before_irrefl] at hxx

theorem before_total {x y : Bytes × Word} (h : x.1 ≠ y.1) : before x y = true ∨ before y x = true := by
  simp only [before_iff]
  rcases lt_trichotomy x.2.toNat y.2.toNat with hlt | heq | hgt
  · exact .inr (.inl hlt)
  · have hfreq : x.2 = y.2 := BitVec.eq_of_toNat_eq heq
    exact (keylt_total h).elim (fun hk => .inr (.inr ⟨hfreq.symm, hk⟩)) (fun hk => .inl (.inr ⟨hfreq, hk⟩))
  · exact .inl (.inl hgt)

/-- The priority-sorted arrangement is unique: an asymmetric order leaves one sorted permutation. -/
theorem eq_of_perm_of_pairwise_before {l m : List (Bytes × Word)} (hperm : l.Perm m)
    (hl : l.Pairwise fun x y => before x y = true) (hm : m.Pairwise fun x y => before x y = true) : l = m :=
  hperm.eq_of_pairwise (fun _ _ _ _ hxy hyx => absurd hyx (before_asymm hxy)) hl hm

/-- Settles O22: R11 and R12 in their words, the order laws of `before` from those of `keylt`, and the unique
arrangement from asymmetry. -/
theorem ordersAreStrictAndTotal : Obligations.OrdersAreStrictAndTotal :=
  ⟨keylt_iff, before_iff, before_irrefl, fun _ _ _ => before_trans, fun _ _ => before_total,
    fun _ _ => eq_of_perm_of_pairwise_before⟩

end Sys2Proof.Machine
end

