-- ==== Sys2Proof/Proofs/CommandFrame.lean ====
section
/-! PROOFS. What a command's pseudocode never writes, and what one host access can do: the frame that the
statements about single registers stand on. -/

namespace Sys2Proof.Machine

/-! ### The part of the state that pseudocode leaves alone -/

/-- The fields that no pseudocode but CLR's assigns: STATUS's command bits and ERRCODE belong to the issue
sequence (R15, R230), IN_LEN and IBUF to the host (R27, R41), the rest to the instance and the model. -/
structure Fixed where
  busy : Bool
  done : Bool
  err : Bool
  errcode : ErrCode
  inLen : Word
  ibuf : Memory
  params : Params
  epoch : Nat
  freeCount : Nat
  hostQueue : List HostAccess
  lastRead : HostData

/-- Those fields of a state. -/
def State.fixed (s : State) : Fixed where
  busy := s.busy
  done := s.done
  err := s.err
  errcode := s.errcode
  inLen := s.inLen
  ibuf := s.ibuf
  params := s.params
  epoch := s.epoch
  freeCount := s.freeCount
  hostQueue := s.hostQueue
  lastRead := s.lastRead

theorem Run.bind_fixed {α β : Type} {r : Run α} {f : α → State → Run β} {s : State}
    (hr : r.state.fixed = s.fixed) (hf : ∀ a t, (f a t).state.fixed = t.fixed) :
    (r.bind f).state.fixed = s.fixed :=
  Run.bind_state (P := fun t => t.fixed = s.fixed) hr fun a t ht => (hf a t).trans ht

theorem emit_fixed (b : Byte) (s : State) : (emit b s).state.fixed = s.fixed := by
  rcases emit_cases b s with ⟨-, h⟩ | ⟨-, h⟩ <;> rw [h] <;> rfl

theorem emitAll_fixed (bs : Bytes) (s : State) : (emitAll bs s).state.fixed = s.fixed := by
  induction bs generalizing s with
  | nil => rfl
  | cons b bs ih => exact Run.bind_fixed (emit_fixed b s) fun _ => ih

theorem pushBits_fixed (bs : Bits) (p : Packer) (s : State) : (pushBits bs p s).state.fixed = s.fixed := by
  induction bs generalizing p s with
  | nil => rfl
  | cons b bs ih =>
    simp only [pushBits]
    split
    · exact Run.bind_fixed (emit_fixed _ s) fun _ => ih _
    · exact ih _ s

theorem pushSymbols_fixed (t : List CtabEntry) (x : Bytes) (p : Packer) (s : State) :
    (pushSymbols t x p s).state.fixed = s.fixed := by
  induction x generalizing p s with
  | nil => rfl
  | cons b x ih =>
    simp only [pushSymbols]
    cases findCode t b with
    | none => exact ih p { s with nf := true }
    | some c => exact Run.bind_fixed (pushBits_fixed c p s) ih

theorem flushBits_fixed (p : Packer) (s : State) : (flushBits p s).state.fixed = s.fixed := by
  unfold flushBits
  split
  · rfl
  · exact emit_fixed _ s

theorem packBody_fixed (s : State) : (packBody s).state.fixed = s.fixed := by
  unfold packBody
  split
  · rfl
  · refine Run.bind_fixed (emitAll_fixed _ (beginPack s)) fun _ s1 => ?_
    refine Run.bind_fixed (pushSymbols_fixed _ _ _ { s1 with hdrLen := s1.outLen }) fun p s2 => ?_
    exact Run.bind_fixed (flushBits_fixed p s2) fun _ _ => rfl

theorem freqBody_fixed (s : State) : (freqBody s).state.fixed = s.fixed := by
  unfold freqBody
  split <;> rfl

theorem treeBody_fixed (s : State) : (treeBody s).state.fixed = s.fixed := rfl

theorem codesBody_fixed (s : State) : (codesBody s).state.fixed = s.fixed := rfl

theorem lookupBody_fixed (sym : Byte) (s : State) : (lookupBody sym s).state.fixed = s.fixed := by
  unfold lookupBody
  split <;> rfl

theorem encBody_fixed (s : State) : (encBody s).state.fixed = s.fixed :=
  Run.bind_fixed (freqBody_fixed s) fun _ s1 =>
    Run.bind_fixed (treeBody_fixed s1) fun _ s2 =>
      Run.bind_fixed (codesBody_fixed s2) fun _ => packBody_fixed

theorem parseTable_fixed (ls : List Bytes) (pos : Nat) (s : State) :
    (parseTable ls pos s).state.fixed = s.fixed := by
  induction ls generalizing pos s with
  | nil => rfl
  | cons l ls ih =>
    simp only [parseTable]
    split
    · rfl
    · cases parseEntry l with
      | none => rfl
      | some e =>
        dsimp only
        split
        · rfl
        · exact ih _ _

theorem parseBody_fixed (s : State) : (parseBody s).state.fixed = s.fixed := by
  unfold parseBody
  split
  · rfl
  · cases terminatedLines s.input with
    | nil => rfl
    | cons l ls =>
      dsimp only
      split
      · exact Run.bind_fixed (parseTable_fixed ls _ { s with nent := 0, hdrLen := 0 }) fun _ _ => rfl
      · rfl

theorem scanBits_fixed (t : List CtabEntry) (bs cand : Bits) (s : State) :
    (scanBits t bs cand s).state.fixed = s.fixed := by
  induction bs generalizing cand s with
  | nil => rfl
  | cons b bs ih =>
    simp only [scanBits]
    cases matchCode t (cand ++ [b]) with
    | none => exact ih _ s
    | some sym => exact Run.bind_fixed (emit_fixed sym s) fun _ => ih []

theorem unpackBody_fixed (s : State) : (unpackBody s).state.fixed = s.fixed := by
  unfold unpackBody
  split
  · rfl
  · exact Run.bind_fixed (scanBits_fixed _ _ _ (beginUnpack s)) fun _ _ => rfl

theorem decBody_fixed (s : State) : (decBody s).state.fixed = s.fixed :=
  Run.bind_fixed (parseBody_fixed s) fun _ => unpackBody_fixed

/-! ### Commands by their pseudocode -/

/-- The pseudocode of a command (R131 to R210). -/
def bodyOf : Instr → State → Run Unit
  | .nop => .ok ()
  | .clr => fun s => .ok () (clearSession s)
  | .freq => freqBody
  | .tree => treeBody
  | .codes => codesBody
  | .lookup sym => lookupBody sym
  | .pack => packBody
  | .enc => encBody
  | .parse => parseBody
  | .unpack => unpackBody
  | .dec => decBody

theorem bodyOf_fixed {i : Instr} (hi : i ≠ .clr) (s : State) : (bodyOf i s).state.fixed = s.fixed := by
  cases i with
  | nop => rfl
  | clr => exact absurd rfl hi
  | freq => exact freqBody_fixed s
  | tree => exact treeBody_fixed s
  | codes => exact codesBody_fixed s
  | lookup sym => exact lookupBody_fixed sym s
  | pack => exact packBody_fixed s
  | enc => exact encBody_fixed s
  | parse => exact parseBody_fixed s
  | unpack => exact unpackBody_fixed s
  | dec => exact decBody_fixed s

/-- All a command can be: NOP or CLR, which run always, or one whose issue is checked (R230, R232). -/
theorem exec_cases (i : Instr) (s : State) :
    (i = .nop ∧ exec i s = .next (finishCommand (beginCommand s))) ∨
    (i = .clr ∧ exec i s = .next (finishCommand (clearSession (beginCommand s)))) ∨
    (i ≠ .nop ∧ i ≠ .clr ∧ exec i s = .next (issueChecked (legalIn i) (bodyOf i) s)) := by
  cases i with
  | nop => exact .inl ⟨rfl, rfl⟩
  | clr => exact .inr (.inl ⟨rfl, rfl⟩)
  | _ => exact .inr (.inr ⟨nofun, nofun, rfl⟩)

/-! ### Host accesses -/

/-- `t` is `s` but for IN_LEN, IBUF and the model's own record of reads: what the host's accesses other than
a write of CMD and a reset can reach (R62, R63, R64). -/
def HostTouches (s t : State) : Prop :=
  t = { s with inLen := t.inLen, ibuf := t.ibuf, lastRead := t.lastRead, freeCount := t.freeCount }

theorem HostTouches.ite {s t u : State} {p : Prop} [Decidable p] (ht : HostTouches s t) (hu : HostTouches s u) :
    HostTouches s (if p then t else u) := by
  split
  · exact ht
  · exact hu

theorem hostRegWrite_touches (n : Nat) (v : Word) (s : State) : HostTouches s (hostRegWrite n v s) :=
  .ite rfl (.ite rfl rfl)

/-- All an access can be: a reset, a write of CMD, or one of narrow reach. -/
theorem hostStep_cases (a : HostAccess) (s : State) :
    a = .reset ∨ (∃ w, a = .regWrite 0 w) ∨ ∃ t, hostStep a s = .next t ∧ HostTouches s t := by
  cases a with
  | reset => exact .inl rfl
  | regWrite n v =>
    by_cases hn : n = 0
    · exact .inr (.inl ⟨v, by rw [hn]⟩)
    · exact .inr (.inr ⟨hostRegWrite n v s, if_neg hn, hostRegWrite_touches n v s⟩)
  | regRead n => exact .inr (.inr ⟨_, rfl, .ite (.ite rfl rfl) rfl⟩)
  | ibufWrite b v => exact .inr (.inr ⟨_, rfl, .ite rfl (.ite rfl rfl)⟩)
  | ibufRead b => exact .inr (.inr ⟨_, rfl, .ite rfl rfl⟩)
  | obufRead b => exact .inr (.inr ⟨_, rfl, .ite rfl rfl⟩)
  | ftabRead i => exact .inr (.inr ⟨_, rfl, .ite rfl rfl⟩)
  | ctabRead i => exact .inr (.inr ⟨_, rfl, .ite rfl rfl⟩)
  | nodeRead i => exact .inr (.inr ⟨_, rfl, .ite rfl rfl⟩)

theorem hostStep_regRead_idle {s : State} (h : s.busy = false) (n : Nat) :
    hostStep (.regRead n) s = .next { s with lastRead := .reg (s.regValue n) } := by
  simp [hostStep, hostRegRead, h, readsAs]

/-- Of the registers with numbers other than CMD's only IN_LEN is writable (R45). -/
theorem hostStep_regWrite_readOnly {n : Nat} (h0 : n ≠ 0) (h3 : n ≠ 3) (v : Word) (s : State) :
    hostStep (.regWrite n v) s = .next s := by
  simp [hostStep, hostRegWrite, h0, h3]

/-- A write of CMD is ignored while BUSY = 1, runs the command the word decodes to, or is ILLEGAL
(R22, R226, R262). -/
theorem hostCmdWrite_cases (w : Word) (s : State) :
    (s.busy = true ∧ hostCmdWrite w s = .next s) ∨
    (∃ i, decode w = .command i ∧ hostCmdWrite w s = exec i s) ∨
    (∃ why, decode w = .illegal why ∧ hostCmdWrite w s = .next (issueIllegal s)) := by
  unfold hostCmdWrite issueWord
  cases hb : s.busy with
  | true => exact .inl ⟨rfl, rfl⟩
  | false =>
    cases hd : decode w with
    | command i => exact .inr (.inl ⟨i, rfl, rfl⟩)
    | illegal why => exact .inr (.inr ⟨why, rfl, rfl⟩)

/-- A word that is no command is refused, or raises ILLEGAL_CMD (R226, R236). -/
theorem issueIllegal_cases (s : State) :
    (s.err = true ∧ issueIllegal s = finishCommand (beginCommand s)) ∨
    (s.err = false ∧ issueIllegal s = raiseError .illegalCmd (beginCommand s)) := by
  unfold issueIllegal
  cases h : s.err with
  | true => exact .inl ⟨rfl, by simp [h]⟩
  | false => exact .inr ⟨rfl, by simp [h]⟩

end Sys2Proof.Machine
end

