-- ==== Sys2Proof/Proofs/StateRegisters.lean ====
section
/-! PROOFS. ERRCODE (R24), and the reserved numbers and bits of the register map (R45). -/

namespace Sys2Proof.Machine

/-! ### Who writes ERRCODE (R24) -/

/-- ERRCODE is as it was, or the step was a raise that found ERR = 0. -/
def ErrcodeKeptOrRaised (s t : State) : Prop := t.errcode = s.errcode ∨ (s.err = false ∧ t.err = true)

theorem endCommand_errcode {r : Run Unit} {s : State} (hs : s.err = false) (h : r.state.fixed = s.fixed) :
    ErrcodeKeptOrRaised s (endCommand r) := by
  cases r with
  | ok _ t => exact .inl (congrArg Fixed.errcode h)
  | raised e t => exact .inr ⟨hs, raiseError_err t e⟩

theorem issueChecked_errcode {legal : Phase → Bool} {body : State → Run Unit}
    (hbody : ∀ t, (body t).state.fixed = t.fixed) (s : State) :
    ErrcodeKeptOrRaised s (issueChecked legal body s) := by
  rcases issueChecked_cases legal body s with ⟨-, hi⟩ | ⟨hs, -, hi⟩ | ⟨hs, -, hi⟩
  · rw [hi]
    exact .inl rfl
  · rw [hi]
    exact .inr ⟨hs, raiseError_err _ _⟩
  · rw [hi]
    exact endCommand_errcode (s := beginCommand s) hs (hbody _)

theorem issueIllegal_errcode (s : State) : ErrcodeKeptOrRaised s (issueIllegal s) := by
  rcases issueIllegal_cases s with ⟨-, hi⟩ | ⟨hs, hi⟩
  · rw [hi]
    exact .inl rfl
  · rw [hi]
    exact .inr ⟨hs, raiseError_err _ _⟩

theorem exec_errcode {i : Instr} {s t : State} (h : exec i s = .next t) (hclr : i ≠ .clr) :
    ErrcodeKeptOrRaised s t := by
  rcases exec_cases i s with ⟨-, hx⟩ | ⟨hi, -⟩ | ⟨-, -, hx⟩
  · cases hx.symm.trans h
    exact .inl rfl
  · exact absurd hi hclr
  · cases hx.symm.trans h
    exact issueChecked_errcode (bodyOf_fixed hclr) s

theorem hostCmdWrite_errcode {w : Word} {s t : State} (h : hostCmdWrite w s = .next t)
    (hclr : decode w ≠ .command .clr) : ErrcodeKeptOrRaised s t := by
  rcases hostCmdWrite_cases w s with ⟨-, hx⟩ | ⟨i, hd, hx⟩ | ⟨-, -, hx⟩
  · cases hx.symm.trans h
    exact .inl rfl
  · exact exec_errcode (hx.symm.trans h) fun hi => hclr (by rw [hd, hi])
  · cases hx.symm.trans h
    exact issueIllegal_errcode s

theorem hostStep_errcode_changed {a : HostAccess} {s t : State} (h : hostStep a s = .next t)
    (hne : t.errcode ≠ s.errcode) :
    a = .reset ∨ (∃ w, a = .regWrite 0 w ∧ decode w = .command .clr) ∨
      ∃ w, a = .regWrite 0 w ∧ s.err = false ∧ t.err = true := by
  rcases hostStep_cases a s with hr | ⟨w, rfl⟩ | ⟨u, hx, hu⟩
  · exact .inl hr
  · by_cases hclr : decode w = .command .clr
    · exact .inr (.inl ⟨w, rfl, hclr⟩)
    · have hkept := hostCmdWrite_errcode h hclr
      exact .inr (.inr ⟨w, rfl, hkept.resolve_left hne⟩)
  · cases hx.symm.trans h
    exact absurd (congrArg State.errcode hu) hne

theorem exec_clr_errcode {s t : State} (h : exec .clr s = .next t) : t.errcode = .none := by
  cases h
  rfl

/-! ### Reserved numbers and bits (R45) -/

theorem regValue_reserved (s : State) {n : Nat} (h : n = 14 ∨ n = 15 ∨ 24 ≤ n) : s.regValue n = 0 := by
  rcases h with rfl | rfl | h
  · rfl
  · rfl
  · obtain ⟨m, rfl⟩ := Nat.exists_eq_add_of_le' h
    rfl

/-- A number of `j` bits leaves the bits of its word from `j` on at 0. -/
theorem getLsbD_ofNat_of_lt {n j k : Nat} (hn : n < 2 ^ j) (hk : j ≤ k) :
    (BitVec.ofNat 32 n).getLsbD k = false := by
  simp [BitVec.getLsbD_ofNat, Nat.testBit_lt_two_pow (hn.trans_le (Nat.pow_le_pow_right Nat.two_pos hk))]

theorem getLsbD_flagAt_of_ne {n k : Nat} (b : Bool) (h : k ≠ n) : (flagAt n b).getLsbD k = false := by
  cases b with
  | false => simp [flagAt]
  | true =>
    show (BitVec.ofNat 32 (1 <<< n)).getLsbD k = false
    rw [BitVec.getLsbD_ofNat, Nat.one_shiftLeft, Nat.testBit_two_pow_of_ne h.symm, Bool.and_false]

theorem Phase.code_lt (p : Phase) : p.code < 2 ^ 3 := by cases p <;> decide

theorem ErrCode.code_lt (e : ErrCode) : e.code < 2 ^ 3 := by cases e <;> decide

/-- STATUS has fields in bits 5:0 and 10:8 only (R23). -/
theorem statusWord_reserved (s : State) {k : Nat} (h : k = 6 ∨ k = 7 ∨ 11 ≤ k) :
    s.statusWord.getLsbD k = false := by
  have hflag {n : Nat} (b : Bool) (hn : n ≤ 5) : (flagAt n b).getLsbD k = false :=
    getLsbD_flagAt_of_ne b (by omega)
  have hphase : (BitVec.ofNat 32 s.phase.code <<< 8).getLsbD k = false := by
    rw [BitVec.getLsbD_shiftLeft]
    by_cases hk : k < 8
    · simp [hk]
    · rw [getLsbD_ofNat_of_lt s.phase.code_lt (by omega), Bool.and_false]
  simp [State.statusWord, hflag, hphase]

/-- ERRCODE has its code in bits 2:0 only (R24). -/
theorem errcodeWord_reserved (s : State) {k : Nat} (h : 3 ≤ k) : s.errcodeWord.getLsbD k = false :=
  getLsbD_ofNat_of_lt s.errcode.code_lt h

/-- ROOT is a node index of 9 bits (R29). -/
theorem rootWord_reserved (s : State) {k : Nat} (h : 9 ≤ k) : (s.regValue 8).getLsbD k = false := by
  show (s.root.zeroExtend 32).getLsbD k = false
  simp [h]

/-- RES has nothing between FOUND and SYM (R31). -/
theorem resWord_reserved (s : State) {k : Nat} (h16 : 16 ≤ k) (h30 : k ≤ 30) :
    s.resWord.getLsbD k = false := by
  have hfound : (flagAt 31 s.resFound).getLsbD k = false := getLsbD_flagAt_of_ne _ (by omega)
  have hsym : (s.resSym.zeroExtend 32 <<< 8).getLsbD k = false := by
    rw [BitVec.getLsbD_shiftLeft]
    simp [BitVec.getLsbD_of_ge s.resSym (k - 8) (by omega)]
  have hlen : (s.resLen.zeroExtend 32).getLsbD k = false := by
    simp [BitVec.getLsbD_of_ge s.resLen k (by omega)]
  simp [State.resWord, hfound, hsym, hlen]

/-! ### The statements -/

/-- Settles O10: pseudocode other than CLR's never writes ERRCODE, so it changes by a raise or a clear alone. -/
theorem firstErrorIsKept : Obligations.FirstErrorIsKept :=
  ⟨fun _ _ _ => hostStep_errcode_changed, fun _ _ => rfl, fun _ _ => exec_clr_errcode, fun _ => rfl,
    fun s => ⟨rfl, s.errcode.code_lt, fun _ => errcodeWord_reserved s⟩⟩

/-- Settles O14: no field covers a reserved number or bit, and only CMD and IN_LEN are writable. -/
theorem reservedReadZeroIgnoreWrites : Obligations.ReservedReadZeroIgnoreWrites := by
  intro s v hidle
  refine ⟨fun n hn => ?_, fun n h0 h3 => hostStep_regWrite_readOnly h0 h3 v s, fun _ => statusWord_reserved s,
    fun _ => errcodeWord_reserved s, fun _ => rootWord_reserved s, fun _ => resWord_reserved s⟩
  rw [hostStep_regRead_idle hidle, regValue_reserved s hn]

end Sys2Proof.Machine
end

