-- ==== Sys2Proof/Proofs/StreamBytes.lean ====
section
/-! PROOFS. The parts of the stream format: symbol tokens (R106), and bytes as bits and back (R112). -/

namespace Sys2Proof.Machine

/-! ### Tokens (R106) -/

theorem tok_eq_self {s : Byte} (hNL : s ≠ byteNL) (hCR : s ≠ byteCR) (hSP : s ≠ byteSP) : tok s = [s] := by
  simp [tok, hNL, hCR, hSP]

/-! ### A byte and its eight bits (R112) -/

theorem bitsOfByte_eq_map (b : Byte) : bitsOfByte b = (List.range 8).map fun j => b.getLsbD (7 - j) := rfl

theorem bitsOfByte_getElem? (b : Byte) {j : Nat} (h : j < 8) : (bitsOfByte b)[j]? = some (b.getLsbD (7 - j)) := by
  rw [bitsOfByte_eq_map, List.getElem?_map, List.getElem?_range h, Option.map_some]

theorem bitsOfByte_byteOfBits_of_length {w : Bits} (h : w.length = 8) : bitsOfByte (byteOfBits w) = w := by
  match w, h with
  | [a, b, c, d, e, f, g, i], _ => exact bitsOfByte_byteOfBits a b c d e f g i

@[simp] theorem bitsToNat_concat (w : Bits) (b : Bool) : bitsToNat (w ++ [b]) = 2 * bitsToNat w + b.toNat := by
  simp [bitsToNat]

theorem bitsToNat_lt (w : Bits) : bitsToNat w < 2 ^ w.length := by
  induction w using List.reverseRecOn with
  | nil => decide
  | append_singleton w b ih =>
    have hb := b.toNat_le
    rw [bitsToNat_concat, List.length_append, List.length_singleton, Nat.pow_succ]
    omega

/-- A bit string read as a number is the sum of its weighted bits, the first bit weighing most: one more bit
at the end doubles the weights before it. -/
theorem bitsToNat_eq_sum (w : Bits) :
    bitsToNat w = ((List.range w.length).map fun j => (w.getD j false).toNat * 2 ^ (w.length - 1 - j)).sum := by
  induction w using List.reverseRecOn with
  | nil => rfl
  | append_singleton w b ih =>
    have hdouble : ∀ j ∈ List.range w.length,
        ((w ++ [b]).getD j false).toNat * 2 ^ (w.length - j) =
          2 * ((w.getD j false).toNat * 2 ^ (w.length - 1 - j)) := by
      intro j hj
      have hj := List.mem_range.1 hj
      rw [List.getD_append _ _ _ _ hj, show w.length - j = w.length - 1 - j + 1 by omega, Nat.pow_succ]
      ring
    rw [bitsToNat_concat, ih, ← List.sum_map_mul_left, ← List.map_congr_left hdouble]
    simp [List.range_succ]

/-- Eight bits fit a byte, so nothing of their number is lost. -/
theorem byteOfBits_toNat {w : Bits} (h : w.length = 8) : (byteOfBits w).toNat = bitsToNat w := by
  have hlt := bitsToNat_lt w
  rw [h] at hlt
  rw [byteOfBits, BitVec.toNat_ofNat, Nat.mod_eq_of_lt hlt]

/-! ### Byte by byte (R112) -/

/-- The bits of byte `k` stand at `8 * k`. -/
theorem unpackBytes_block {p : Bytes} {k : Nat} {b : Byte} (h : p[k]? = some b) :
    ((unpackBytes p).drop (8 * k)).take 8 = bitsOfByte b := by
  induction p generalizing k with
  | nil => simp at h
  | cons c p ih =>
    cases k with
    | zero =>
      obtain rfl : c = b := by simpa using h
      exact List.take_left' (bitsOfByte_length c)
    | succ k =>
      have hdrop : (unpackBytes (c :: p)).drop (8 * (k + 1)) = (unpackBytes p).drop (8 * k) := by
        rw [unpackBytes_cons, Nat.mul_succ, Nat.add_comm, ← List.drop_drop,
          List.drop_left' (bitsOfByte_length c)]
      rw [hdrop]
      exact ih (by simpa using h)

theorem packBits_of_eight_le {w : Bits} (h : 8 ≤ w.length) :
    packBits w = byteOfBits (w.take 8) :: packBits (w.drop 8) := by
  have hsplit := packBits_eight (w.take 8) (w.drop 8) (List.length_take_of_le h)
  rwa [List.take_append_drop] at hsplit

theorem packBits_getElem? {w : Bits} {k : Nat} (h : k < w.length / 8) :
    (packBits w)[k]? = some (byteOfBits ((w.drop (8 * k)).take 8)) := by
  induction k generalizing w with
  | zero => rw [packBits_of_eight_le (by omega)]; rfl
  | succ k ih =>
    have hrest : k < (w.drop 8).length / 8 := by rw [List.length_drop]; omega
    rw [packBits_of_eight_le (by omega), List.getElem?_cons_succ, ih hrest, List.drop_drop, Nat.mul_succ,
      Nat.add_comm]

/-! ### The statements -/

/-- Settles O35: the three tokens by computation, any other byte by `tok_eq_self`. -/
theorem tokensAreSwapped : Obligations.TokensAreSwapped :=
  ⟨rfl, rfl, rfl, fun _ => tok_eq_self⟩

/-- Settles O37: the bits of a byte by position, the byte as the number its bits spell, and both directions
eight bits at a time. -/
theorem bitsAndBytesAreInverse : Obligations.BitsAndBytesAreInverse := by
  refine ⟨fun b _ => bitsOfByte_getElem? b, fun b => ⟨bitsOfByte_length b, byteOfBits_bitsOfByte b⟩,
    fun w hw => ⟨bitsOfByte_byteOfBits_of_length hw, ?_⟩,
    fun p => ⟨unpackBytes_length p, fun _ _ => unpackBytes_block⟩,
    fun w _ => ⟨packBits_length w, fun _ => packBits_getElem?⟩, by decide⟩
  rw [byteOfBits_toNat hw, bitsToNat_eq_sum, hw]

end Sys2Proof.Machine
end

