-- ==== Sys2Proof/Proofs/CommandWord.lean ====
section
/-! PROOFS. The decoder of R91: its tests one by one, in their order. -/

namespace Sys2Proof

/-! ### The opcode map (R92, R94) -/

/-- Exactly the opcodes past 0x0A have no command. -/
theorem commandOf_eq_none_iff (opc sym : Byte) : commandOf opc sym = none ↔ 0x0A < opc.toNat := by
  unfold commandOf
  generalize opc.toNat = n
  match n with
  | 0 | 1 | 2 | 3 | 4 | 5 | 6 | 7 | 8 | 9 | 10 => simp
  | n + 11 => exact iff_of_true rfl (by omega)

theorem opcodeOf_of_commandOf {opc sym : Byte} {i : Instr} (h : commandOf opc sym = some i) :
    opcodeOf i = opc := by
  unfold commandOf at h
  split at h <;> cases h <;> exact BitVec.eq_of_toNat_eq (Eq.symm ‹_›)

/-- Where R91 lets SYM through, the command's operand is SYM. -/
theorem operandOf_of_commandOf {opc sym : Byte} {i : Instr} (h : commandOf opc sym = some i)
    (hsym : opc = 0x05 ∨ sym = 0) : operandOf i = sym := by
  obtain rfl := opcodeOf_of_commandOf h
  cases i with
  | lookup s => cases h; rfl
  | _ => exact (hsym.resolve_left (by decide)).symm

/-- Every opcode up to 0x0A has a command. -/
theorem exists_commandOf {opc : Byte} (h : opc.toNat ≤ 0x0A) (sym : Byte) : ∃ i, commandOf opc sym = some i :=
  Option.ne_none_iff_exists'.1 fun hnone => absurd ((commandOf_eq_none_iff opc sym).1 hnone) (by omega)

/-! ### The tests of `decode`, in their order (R91) -/

section
variable {w : Word}

theorem decode_of_reservedOf_ne (h : reservedOf w ≠ 0) : decode w = .illegal .reservedBits := if_pos h

theorem decode_of_opcOf_gt (hres : reservedOf w = 0) (h : 0x0A < (opcOf w).toNat) :
    decode w = .illegal .reservedOpcode := by
  rw [decode, if_neg (not_not.2 hres), (commandOf_eq_none_iff _ _).2 h]

/-- What is left to test of a word with clear bits 31:16 and an assigned opcode. -/
theorem decode_of_commandOf {i : Instr} (hres : reservedOf w = 0) (hi : commandOf (opcOf w) (symOf w) = some i) :
    decode w = if opcOf w ≠ 0x05 ∧ symOf w ≠ 0 then .illegal .symNotZero else .command i := by
  rw [decode, if_neg (not_not.2 hres), hi]

theorem decode_of_symOf_ne (hres : reservedOf w = 0) (hopc : (opcOf w).toNat ≤ 0x0A) (hlookup : opcOf w ≠ 0x05)
    (h : symOf w ≠ 0) : decode w = .illegal .symNotZero := by
  obtain ⟨i, hi⟩ := exists_commandOf hopc (symOf w)
  rw [decode_of_commandOf hres hi, if_pos ⟨hlookup, h⟩]

/-- A word that passes every test is the command of its two fields. -/
theorem exists_decode_command (hres : reservedOf w = 0) (hopc : (opcOf w).toNat ≤ 0x0A)
    (hsym : opcOf w = 0x05 ∨ symOf w = 0) :
    ∃ i, decode w = .command i ∧ opcodeOf i = opcOf w ∧ operandOf i = symOf w := by
  obtain ⟨i, hi⟩ := exists_commandOf hopc (symOf w)
  have hpass : ¬ (opcOf w ≠ 0x05 ∧ symOf w ≠ 0) := fun ⟨hlookup, hzero⟩ => hsym.elim hlookup hzero
  exact ⟨i, (decode_of_commandOf hres hi).trans (if_neg hpass), opcodeOf_of_commandOf hi, operandOf_of_commandOf hi hsym⟩

end

end Sys2Proof

namespace Sys2Proof.Machine

/-! ### Issuing an ILLEGAL word (R226) -/

theorem issueIllegal_eq_raiseError {s : State} (h : s.err = false) :
    issueIllegal s = raiseError .illegalCmd s := by
  rcases issueIllegal_cases s with ⟨herr, -⟩ | ⟨-, hraise⟩
  · simp [h] at herr
  · exact hraise

theorem issueWord_of_illegal {w : Word} {why : DecodeError} (h : decode w = .illegal why) (s : State) :
    issueWord w s = .next (issueIllegal s) := by
  simp [issueWord, h]

/-! ### The statement -/

/-- Settles O2: one lemma for each test of R91 in turn, and the raise of an ILLEGAL word. -/
theorem decodeTestsTheFieldsInOrder : Obligations.DecodeTestsTheFieldsInOrder := by
  refine fun w => ⟨decode_of_reservedOf_ne, decode_of_opcOf_gt, decode_of_symOf_ne, exists_decode_command,
    fun why s hw hs => ?_⟩
  rw [issueWord_of_illegal hw, issueIllegal_eq_raiseError hs]

end Sys2Proof.Machine
end

