-- ==== Sys2Proof/Proofs/Control.lean ====
section
/-! PROOFS. NOP (R131) and CLR (R132, R133): the state after each, and STATUS of a core at rest. -/

namespace Sys2Proof.Machine

/-! ### What NOP and CLR do -/

/-- NOP has no pseudocode between the two ends of the issue sequence (R131, R230). -/
theorem exec_nop (s : State) : exec .nop s = .next { s with busy := false, done := true } :=
  congrArg Host.Outcome.next (finish_begin s)

/-- CLR is its pseudocode between the two ends of the issue sequence (R132, R230). -/
theorem exec_clr (s : State) : exec .clr s = .next (finishCommand (clearSession (beginCommand s))) := rfl

/-! ### STATUS with nothing to report (R23) -/

/-- The command is done, no flag is set, and no session is open. -/
structure State.AtRest (s : State) : Prop where
  busy : s.busy = false
  done : s.done = true
  err : s.err = false
  nf : s.nf = false
  pad : s.pad = false
  trunc : s.trunc = false
  phase : s.phase = .empty

/-- Such a STATUS is the DONE bit alone. -/
theorem State.AtRest.regValue_status {s : State} (h : s.AtRest) : s.regValue 1 = 0x00000002 := by
  show s.statusWord = _
  rw [statusWord, h.busy, h.done, h.err, h.nf, h.pad, h.trunc, h.phase]
  rfl

theorem exec_nop_hostReset_atRest {s t : State} (h : exec .nop (hostReset s) = .next t) : t.AtRest := by
  rw [exec_nop] at h
  cases h
  exact ⟨rfl, rfl, rfl, rfl, rfl, rfl, rfl⟩

theorem exec_clr_atRest {s t : State} (h : exec .clr s = .next t) : t.AtRest := by
  rw [exec_clr] at h
  cases h
  constructor <;> simp

/-! ### What CLR keeps (R133) -/

/-- IBUF's content is the bytes written, and the reset's own bytes elsewhere. -/
theorem State.ibufByte_congr {s t : State} (hbuf : t.ibuf = s.ibuf) (hepoch : t.epoch = s.epoch) :
    t.ibufByte = s.ibufByte := by
  funext a
  simp only [ibufByte, hbuf, hepoch]

theorem State.obufByte_congr {s t : State} (hbuf : t.obuf = s.obuf) (hepoch : t.epoch = s.epoch) :
    t.obufByte = s.obufByte := by
  funext a
  simp only [obufByte, hbuf, hepoch]

theorem State.input_congr {s t : State} (hlen : t.inLen = s.inLen) (hbyte : t.ibufByte = s.ibufByte) :
    t.input = s.input := by
  simp only [input, ibufRange, hlen, hbyte]

/-- ROOT = NONE, IN_LEN and both buffers as they were: the text can be read again, and the result read out. -/
theorem exec_clr_keeps {s t : State} (h : exec .clr s = .next t) :
    t.root = Config.none9 ∧ t.inLen = s.inLen ∧ t.ibufByte = s.ibufByte ∧ t.obufByte = s.obufByte := by
  rw [exec_clr] at h
  cases h
  exact ⟨by simp, by simp, State.ibufByte_congr (by simp) (by simp), State.obufByte_congr (by simp) (by simp)⟩

/-! ### The statements -/

/-- Settles O20: NOP in every state by its equation, and the state of reset is at rest once DONE is set. -/
theorem nopOnlyCompletes : Obligations.NopOnlyCompletes :=
  ⟨rfl, exec_nop, fun _ _ h => (exec_nop_hostReset_atRest h).regValue_status⟩

/-- Settles O21: the next state is CLR's equation written out; STATUS from being at rest, the input from IN_LEN
and IBUF. -/
theorem clrEndsTheSession : Obligations.ClrEndsTheSession := by
  refine ⟨rfl, exec_clr, fun s t h => ?_⟩
  obtain ⟨hroot, hlen, hibuf, hobuf⟩ := exec_clr_keeps h
  have hrootWord : t.regValue 8 = 0x1FF := by
    show t.root.zeroExtend 32 = _
    rw [hroot]
    rfl
  exact ⟨(exec_clr_atRest h).regValue_status, hrootWord, hlen, State.input_congr hlen hibuf,
    fun a => ⟨congrFun hibuf a, congrFun hobuf a⟩⟩

end Sys2Proof.Machine
end

