-- ==== Sys2Proof/Proofs/Frequency.lean ====
section
/-! PROOFS. Sorting by priority (R144), and what FREQ writes into FTAB (R141, R143). -/

namespace Sys2Proof.Machine

/-! ### Sorting by priority (R144) -/

@[simp] theorem FtabEntry.rank_fst (e : FtabEntry) : (FtabEntry.rank e).1 = [e.sym] := rfl

@[simp] theorem FtabEntry.rank_snd (e : FtabEntry) : (FtabEntry.rank e).2 = e.freq := rfl

/-- On keys of one byte the key order is the order of the bytes (R11). -/
theorem keylt_singleton (x y : Byte) : keylt [x] [y] = true ↔ x.toNat < y.toNat := by
  by_cases hxy : x = y
  · simp [hxy, keylt_irrefl]
  · exact keylt_cons_of_ne hxy [] []

/-- The priority order on table entries, in numbers. -/
theorem before_rank_iff (x y : FtabEntry) : before (FtabEntry.rank x) (FtabEntry.rank y) = true ↔
    (y.freq.toNat < x.freq.toNat ∨ (x.freq = y.freq ∧ y.sym.toNat < x.sym.toNat)) := by
  rw [before_iff, FtabEntry.rank_fst, FtabEntry.rank_fst, keylt_singleton, FtabEntry.rank_snd, FtabEntry.rank_snd]

theorem sortPriority_perm (l : List FtabEntry) : (sortPriority l).Perm l := arrange_perm _ l

/-- Entries with different symbols have different keys, on which the priority order is total. -/
theorem sortPriority_prioritySorted {l : List FtabEntry} (h : (l.map (·.sym)).Nodup) :
    PrioritySorted (sortPriority l) := by
  have htotal : l.Pairwise fun x y => before (FtabEntry.rank x) (FtabEntry.rank y) = true ∨
      before (FtabEntry.rank y) (FtabEntry.rank x) = true :=
    (List.pairwise_map.1 h).imp fun hne => before_total (by simpa using hne)
  exact arrange_sorted (fun _ _ _ => before_trans) htotal

/-- One arrangement is in priority order: the order is asymmetric. -/
theorem PrioritySorted.eq_of_perm {l m : List FtabEntry} (hl : PrioritySorted l) (hm : PrioritySorted m)
    (hperm : l.Perm m) : l = m :=
  hperm.eq_of_pairwise (fun _ _ _ _ hxy hyx => absurd hyx (before_asymm hxy)) hl hm

/-- Settles O23: the insertion sort permutes, sorts entries with different keys, and asymmetry leaves no other
arrangement. -/
theorem sortGivesPriorityOrder : Obligations.SortGivesPriorityOrder := fun l hnodup =>
  have hsorted := sortPriority_prioritySorted hnodup
  ⟨sortPriority_perm l, hsorted,
    fun _ hperm hm => hm.eq_of_perm hsorted (hperm.trans (sortPriority_perm l).symm), before_rank_iff⟩

/-! ### Counting byte by byte (R141, R142) -/

theorem countBytes_append_singleton (x : Bytes) (b : Byte) :
    countBytes (x ++ [b]) = countByte b (countBytes x) := by
  simp [countBytes]

theorem countBytes_syms_nodup (x : Bytes) : ((countBytes x).map (·.sym)).Nodup := by
  induction x using List.reverseRecOn with
  | nil => exact .nil
  | append_singleton x b ih =>
    rw [countBytes_append_singleton]
    exact countByte_nodup ih

theorem mem_countByte_syms {b c : Byte} {l : List FtabEntry} :
    c ∈ (countByte b l).map (·.sym) ↔ c ∈ l.map (·.sym) ∨ c = b := by
  rw [countByte_syms]
  split
  · next hb => exact ⟨.inl, fun h => h.elim id fun hcb => hcb ▸ hb⟩
  · rw [List.mem_append, List.mem_singleton]

theorem mem_countBytes_syms {x : Bytes} {c : Byte} : c ∈ (countBytes x).map (·.sym) ↔ c ∈ x := by
  induction x using List.reverseRecOn with
  | nil => rfl
  | append_singleton x b ih =>
    rw [countBytes_append_singleton, mem_countByte_syms, ih, List.mem_append, List.mem_singleton]

/-- A 32-bit count does not wrap on fewer than 2^32 bytes (R141). -/
theorem countOf_countBytes {x : Bytes} (h : x.length < 2 ^ 32) (c : Byte) :
    countOf (countBytes x) c = x.count c := by
  induction x using List.reverseRecOn generalizing c with
  | nil => rfl
  | append_singleton x b ih =>
    rw [List.length_append, List.length_singleton] at h
    have hx := ih (Nat.lt_of_succ_lt h)
    have hmax : countOf (countBytes x) b + 1 < 2 ^ 32 := by
      have hcount : x.count b ≤ x.length := List.count_le_length
      rw [hx b]
      omega
    rw [countBytes_append_singleton, countByte_countOf hmax, hx, List.count_append, List.count_singleton]
    simp

/-- With different symbols the count of a symbol is the one its entry holds. -/
theorem countOf_eq_freq {l : List FtabEntry} (hnodup : (l.map (·.sym)).Nodup) {e : FtabEntry} (he : e ∈ l) :
    countOf l e.sym = e.freq.toNat := by
  induction l with
  | nil => cases he
  | cons d l ih =>
    obtain ⟨hd, hl⟩ := List.nodup_cons.1 hnodup
    rcases List.mem_cons.1 he with rfl | he
    · simp [countOf]
    · have hne : d.sym ≠ e.sym := fun h => hd (List.mem_map.2 ⟨e, he, h.symm⟩)
      simp [countOf, hne, ih hl he]

/-! ### Tables that count a byte string (R143) -/

/-- `f` has one entry for each byte of `x`, with the number of times it occurs. -/
structure CountsBytes (f : List FtabEntry) (x : Bytes) : Prop where
  nodup : (f.map (·.sym)).Nodup
  syms : ∀ b, b ∈ f.map (·.sym) ↔ b ∈ x
  freqs : ∀ e ∈ f, e.freq.toNat = x.count e.sym

theorem countBytes_countsBytes {x : Bytes} (h : x.length < 2 ^ 32) : CountsBytes (countBytes x) x where
  nodup := countBytes_syms_nodup x
  syms _ := mem_countBytes_syms
  freqs _ he := (countOf_eq_freq (countBytes_syms_nodup x) he).symm.trans (countOf_countBytes h _)

/-- The order of the entries does not matter. -/
theorem CountsBytes.of_perm {f g : List FtabEntry} {x : Bytes} (h : CountsBytes f x) (hperm : g.Perm f) :
    CountsBytes g x where
  nodup := (hperm.map (·.sym)).nodup_iff.2 h.nodup
  syms b := (hperm.map (·.sym)).mem_iff.trans (h.syms b)
  freqs e he := h.freqs e (hperm.mem_iff.1 he)

theorem freqTable_countsBytes {x : Bytes} (h : x.length < 2 ^ 32) : CountsBytes (freqTable x) x :=
  (countBytes_countsBytes h).of_perm (sortPriority_perm _)

theorem freqTable_prioritySorted (x : Bytes) : PrioritySorted (freqTable x) :=
  sortPriority_prioritySorted (countBytes_syms_nodup x)

section
variable {f : List FtabEntry} {x : Bytes}

theorem CountsBytes.one_le_freq (h : CountsBytes f x) {e : FtabEntry} (he : e ∈ f) : 1 ≤ e.freq.toNat := by
  rw [h.freqs e he, List.one_le_count_iff]
  exact (h.syms e.sym).1 (List.mem_map_of_mem he)

/-- Every byte of the string is counted in exactly one entry. -/
theorem CountsBytes.sum_freqs (h : CountsBytes f x) : (f.map (·.freq.toNat)).sum = x.length := by
  have hsyms : (f.map (·.sym)).Perm x.dedup :=
    (List.perm_ext_iff_of_nodup h.nodup x.nodup_dedup).2 fun b => (h.syms b).trans List.mem_dedup.symm
  calc (f.map (·.freq.toNat)).sum
      = ((f.map (·.sym)).map (x.count ·)).sum := by rw [List.map_map, List.map_congr_left h.freqs]; rfl
    _ = (x.dedup.map (x.count ·)).sum := (hsyms.map _).sum_eq
    _ = x.length := List.sum_map_count_dedup_eq_length x

/-- There are 256 bytes (R6, TBL_MAX). -/
theorem CountsBytes.length_le (h : CountsBytes f x) : f.length ≤ 256 := by
  have hcard := h.nodup.length_le_card
  rwa [List.length_map, ← FinEnum.card_eq_fintypeCard, FinEnum.card_bitVec] at hcard

theorem CountsBytes.ftabOk (h : CountsBytes f x) (hsorted : PrioritySorted f) (hx : x.length ≤ 2 ^ 24) :
    FtabOk f := by
  refine ⟨h.nodup, hsorted, fun e he hzero => ?_, h.sum_freqs.trans_le hx⟩
  have hpos := h.one_le_freq he
  simp [hzero] at hpos

end

/-! ### The command (R141) -/

theorem State.input_length (s : State) : s.input.length = s.inLen.toNat := by
  simp [input, ibufRange]

/-- IN_MAX is at most 2^24 (R6). -/
theorem State.inputFits.input_length_le {s : State} (h : s.inputFits) : s.input.length ≤ 2 ^ 24 :=
  s.input_length.trans_le (h.trans (Nat.le_of_lt_succ s.params.inMax.isLt))

theorem State.inputFits.inputTooLong_eq {s : State} (h : s.inputFits) : s.inputTooLong = false :=
  decide_eq_false (Nat.not_lt.2 h)

/-- `s` after FREQ has counted its input. -/
def State.afterFreq (s : State) : State :=
  { s with busy := false, done := true, ftab := Store.writeFrom s.ftab 0 (freqTable s.input),
           nsym := BitVec.ofNat 32 (freqTable s.input).length, phase := .counted }

/-- FREQ is its pseudocode inside the checked issue sequence (R230). -/
theorem exec_freq (s : State) : exec .freq s = .next (issueChecked (legalIn .freq) freqBody s) := rfl

theorem State.ready.freq_legal {s : State} (h : s.ready .empty) : legalIn .freq s.phase = true := by
  rw [h.2]
  rfl

/-- An error raised while ERR = 0 is the one reported (R24, R233). -/
theorem raiseError_beginCommand {s : State} (h : s.err = false) (e : ErrCode) :
    raiseError e (beginCommand s) = { s with busy := false, done := true, err := true, errcode := e } := by
  simp [raiseError, finishCommand, beginCommand, h]

theorem exec_freq_of_inputFits {s : State} (hready : s.ready .empty) (hfits : s.inputFits) :
    exec .freq s = .next s.afterFreq := by
  have hbody : freqBody (beginCommand s) = .ok () { beginCommand s with
      ftab := Store.writeFrom s.ftab 0 (freqTable s.input),
      nsym := BitVec.ofNat 32 (freqTable s.input).length, phase := .counted } :=
    if_neg (Bool.eq_false_iff.1 hfits.inputTooLong_eq)
  rw [exec_freq, issueChecked_run hready.1 hready.freq_legal, hbody]
  rfl

theorem exec_freq_of_inputTooLong {s : State} (hready : s.ready .empty)
    (hlong : s.params.inMax.val < s.inLen.toNat) :
    exec .freq s = .next { s with busy := false, done := true, err := true, errcode := .capacity } := by
  have hbody : freqBody (beginCommand s) = .raised .capacity (beginCommand s) := if_pos (decide_eq_true hlong)
  rw [exec_freq, issueChecked_run hready.1 hready.freq_legal, hbody, endCommand_raised,
    raiseError_beginCommand hready.1]

theorem exec_freq_of_phase_ne {s : State} (herr : s.err = false) (hphase : s.phase ≠ .empty) :
    exec .freq s = .next { s with busy := false, done := true, err := true, errcode := .sequence } := by
  rw [exec_freq, issueChecked_sequence herr (by simpa [legalIn] using hphase), raiseError_beginCommand herr]

/-! ### FTAB after the command -/

theorem State.inputFits.freqTable_countsBytes {s : State} (h : s.inputFits) :
    CountsBytes (freqTable s.input) s.input :=
  Machine.freqTable_countsBytes (h.input_length_le.trans_lt (by decide))

theorem State.afterFreq_nsym_toNat {s : State} (h : s.inputFits) :
    s.afterFreq.nsym.toNat = (freqTable s.input).length := by
  have hlen := h.freqTable_countsBytes.length_le
  exact (BitVec.toNat_ofNat ..).trans (Nat.mod_eq_of_lt (by omega))

/-- The valid entries are the table of the input. -/
theorem State.afterFreq_ftabValid {s : State} (h : s.inputFits) : s.afterFreq.ftabValid = freqTable s.input := by
  rw [ftabValid, afterFreq_nsym_toNat h]
  exact Store.map_read_writeFrom ..

/-- The slots beyond them are not written. -/
theorem State.afterFreq_ftabSlot_of_le {s : State} {i : Nat} (h : (freqTable s.input).length ≤ i) :
    s.afterFreq.ftabSlot i = s.ftabSlot i := by
  have hread : Store.read s.afterFreq.ftab i = Store.read s.ftab i :=
    (Store.read_writeFrom ..).trans (dif_neg (by omega))
  simp only [ftabSlot, hread]
  rfl

/-- Settles O24: the table of an input that fits counts it, is sorted, and is what FTAB reads back; the two
errors by the issue sequence. -/
theorem freqCountsTheInput : Obligations.FreqCountsTheInput := by
  refine ⟨rfl, fun s hready hfits => ?_, fun _ => exec_freq_of_inputTooLong, fun _ => exec_freq_of_phase_ne⟩
  have hcounts := hfits.freqTable_countsBytes
  refine ⟨s.afterFreq, exec_freq_of_inputFits hready hfits, rfl, ?_⟩
  rw [State.afterFreq_ftabValid hfits, State.afterFreq_nsym_toNat hfits]
  exact ⟨hcounts.ftabOk (freqTable_prioritySorted _) hfits.input_length_le, hcounts.length_le, hcounts.syms,
    fun e he => ⟨hcounts.one_le_freq he, hcounts.freqs e he⟩, hcounts.sum_freqs.trans s.input_length,
    fun _ => State.afterFreq_ftabSlot_of_le⟩

end Sys2Proof.Machine
end

