-- ==== Sys2Proof/Proofs/Tree.lean ====
section
/-! PROOFS. What TREE writes into NODE (R151), and the tables of one symbol and of none (R159, R160). -/

namespace Sys2Proof.Machine

/-! ### The command (R151) -/

/-- `s` after TREE has made the tree of its frequency table. -/
def State.afterTree (s : State) : State :=
  { s with busy := false, done := true, node := Store.writeFrom s.node 0 (buildTree s.ftabValid).1,
           nnode := BitVec.ofNat 32 (buildTree s.ftabValid).1.length, root := (buildTree s.ftabValid).2,
           phase := .treed }

/-- TREE is its pseudocode inside the checked issue sequence (R230). -/
theorem exec_tree (s : State) : exec .tree s = .next (issueChecked (legalIn .tree) treeBody s) := rfl

theorem State.ready.tree_legal {s : State} (h : s.ready .counted) : legalIn .tree s.phase = true := by
  rw [h.2]
  rfl

theorem exec_tree_of_ready {s : State} (h : s.ready .counted) : exec .tree s = .next s.afterTree := by
  rw [exec_tree, issueChecked_run h.1 h.tree_legal]
  rfl

/-! ### NODE after the command -/

theorem State.afterTree_nodeSlot_of_getElem? {s : State} {i : Nat} {e : NodeEntry}
    (h : (buildTree s.ftabValid).1[i]? = some e) : s.afterTree.nodeSlot i = e := by
  obtain ⟨hi, he⟩ := List.getElem?_eq_some_iff.1 h
  have hread : Store.read s.afterTree.node i = some e := by
    rw [afterTree, Store.read_writeFrom, dif_pos ⟨Nat.zero_le i, hi⟩]
    exact congrArg some he
  rw [nodeSlot, hread, Option.getD_some]

/-- The slots beyond the nodes made are not written. -/
theorem State.afterTree_nodeSlot_of_le {s : State} {i : Nat} (h : (buildTree s.ftabValid).1.length ≤ i) :
    s.afterTree.nodeSlot i = s.nodeSlot i := by
  have hread : Store.read s.afterTree.node i = Store.read s.node i :=
    (Store.read_writeFrom ..).trans (dif_neg (by omega))
  simp only [nodeSlot, hread]
  rfl

/-! ### One symbol and none (R159, R160) -/

theorem State.ftabValid_of_nsym_zero {s : State} (h : s.nsym = 0) : s.ftabValid = [] := by
  rw [ftabValid, h]
  rfl

theorem State.ftabValid_of_nsym_one {s : State} (h : s.nsym = 1) : s.ftabValid = [s.ftabSlot 0] := by
  rw [ftabValid, h]
  rfl

/-- No symbol leaves WL empty, which names no root. -/
theorem buildTree_nil : buildTree [] = ([], Config.none9) := rfl

/-- With one symbol nothing is merged: its leaf is the root. -/
theorem buildTree_singleton (e : FtabEntry) : buildTree [e] = ([leafOf e], 0) := rfl

theorem State.afterTree_of_nsym_zero {s : State} (h : s.nsym = 0) : s.afterTree =
    { s with busy := false, done := true, nnode := 0, root := Config.none9, phase := .treed } := by
  rw [afterTree, ftabValid_of_nsym_zero h, buildTree_nil]
  rfl

theorem State.afterTree_of_nsym_one {s : State} (h : s.nsym = 1) : s.afterTree =
    { s with busy := false, done := true, node := s.afterTree.node, nnode := 1, root := 0,
             phase := .treed } := by
  rw [afterTree, ftabValid_of_nsym_one h, buildTree_singleton]
  rfl

/-- Settles O28: TREE from a ready state writes the nodes of the table's tree, which for one symbol is its leaf
and for none is empty. -/
theorem treeOfOneSymbolAndOfNone : Obligations.TreeOfOneSymbolAndOfNone := by
  refine ⟨fun s hready hone => ?one, fun s hready hnone => ?none⟩
  case one =>
    have htree : (buildTree s.ftabValid).1 = [leafOf (s.ftabSlot 0)] := by
      rw [State.ftabValid_of_nsym_one hone, buildTree_singleton]
    refine ⟨s.afterTree, exec_tree_of_ready hready, State.afterTree_of_nsym_one hone, ?_, fun i hi => ?_⟩
    · exact State.afterTree_nodeSlot_of_getElem? (by rw [htree]; rfl)
    · exact State.afterTree_nodeSlot_of_le (by rwa [htree])
  case none =>
    rw [exec_tree_of_ready hready, State.afterTree_of_nsym_zero hnone]

end Sys2Proof.Machine
end

