-- ==== Sys2Proof/Proofs/Codes.lean ====
section
/-! PROOFS. What CODES writes into CTAB (R166), and why the codes of a tree of TREE depend on its frequency
table alone: the descent of `derive` never leaves the valid nodes (R169). -/

namespace Sys2Proof.Machine

/-! ### The command (R166) -/

/-- `s` after CODES has made the code table of its tree. -/
def State.afterCodes (s : State) : State :=
  { s with busy := false, done := true, ctab := Store.writeFrom s.ctab 0 (codeTable s), nent := s.nsym,
           phase := .coded }

theorem State.ftabValid_length (s : State) : s.ftabValid.length = s.nsym.toNat := by simp [ftabValid]

theorem codeTable_length (s : State) : (codeTable s).length = s.nsym.toNat := by
  rw [codeTable, List.length_map, s.ftabValid_length]

/-- The valid entries are the table made. -/
theorem State.afterCodes_ctabValid (s : State) : s.afterCodes.ctabValid = codeTable s := by
  show (List.range s.nsym.toNat).map s.afterCodes.ctabSlot = _
  rw [← codeTable_length s]
  exact Store.map_read_writeFrom ..

/-! ### The descent of `derive` (R167, R169) -/

/-- One byte is a substring of every string that has it. -/
theorem contains_singleton {h : Bytes} {b : Byte} : contains h [b] = true ↔ b ∈ h := by
  induction h with
  | nil => simp [contains]
  | cons c h ih => simp [contains, ih]

/-- `node` answers the nodes of the list at their indices, and anything beyond them. -/
def Reads (node : NodeIndex → NodeEntry) (nodes : List NodeEntry) : Prop :=
  ∀ i e, nodes[i.toNat]? = some e → node i = e

/-- A node whose key holds a byte, but not that byte alone, is no leaf. -/
theorem MergeInv.isParent_of_mem_key {f : List FtabEntry} {nodes : List NodeEntry} {wl : List WorkItem}
    (h : MergeInv f nodes wl) {p : Nat} {e : NodeEntry} {b : Byte} (he : nodes[p]? = some e) (hb : b ∈ e.key)
    (hne : e.key ≠ [b]) : IsParent nodes p e := by
  by_cases hp : f.length ≤ p
  · exact h.parents p e hp he
  · have hleaf : (f.map leafOf)[p]? = some e := by
      rw [← h.leaves, List.getElem?_take_of_lt (Nat.lt_of_not_le hp), he]
    obtain ⟨x, -, rfl⟩ := List.mem_map.1 (List.mem_of_getElem? hleaf)
    exact absurd (congrArg (fun c => [c]) (List.mem_singleton.1 hb).symm) hne

/-- From a node whose key holds the byte, the descent visits nodes of the list only: a child's key holds it
again. -/
theorem MergeInv.deriveFrom_congr {f : List FtabEntry} {nodes : List NodeEntry} {wl : List WorkItem}
    (h : MergeInv f nodes wl) {node node' : NodeIndex → NodeEntry} (hnode : Reads node nodes)
    (hnode' : Reads node' nodes) {b : Byte} (n : Nat) {i : NodeIndex} {e : NodeEntry}
    (he : nodes[i.toNat]? = some e) (hb : b ∈ e.key) : deriveFrom node [b] n i = deriveFrom node' [b] n i := by
  induction n generalizing i e with
  | zero => rfl
  | succ n ih =>
    simp only [deriveFrom, hnode i e he, hnode' i e he]
    by_cases hkey : e.key = [b]
    · simp only [if_pos hkey]
    · obtain ⟨l, r, hl, hr, -, -, hlr, -⟩ := h.isParent_of_mem_key he hb hkey
      simp only [if_neg hkey, hnode _ l hl, hnode' _ l hl, contains_singleton]
      by_cases hbl : b ∈ l.key
      · simp only [if_pos hbl, ih hl hbl]
      · have hbr : b ∈ r.key := (List.mem_append.1 (hlr ▸ hb)).resolve_left hbl
        simp only [if_neg hbl, ih hr hbr]

section
variable {f : List FtabEntry}

/-- There are 256 bytes (R6, TBL_MAX). -/
theorem FtabOk.length_le (hf : FtabOk f) : f.length ≤ 256 := by
  have hcard := hf.1.length_le_card
  rwa [List.length_map, ← FinEnum.card_eq_fintypeCard, FinEnum.card_bitVec] at hcard

theorem FtabOk.buildTree_inv (hf : FtabOk f) :
    ∃ wl, MergeInv f (buildTree f).1 wl ∧ wl.length ≤ 1 ∧
      (buildTree f).2 = (match wl with | [x] => BitVec.ofNat 9 x.2 | _ => Config.none9) := by
  have hlen := hf.length_le
  obtain ⟨hnodup, -, -, hsum⟩ := hf
  exact Machine.buildTree_inv hlen hnodup (hsum.trans_lt (by decide))

theorem FtabOk.buildTree_length_le (hf : FtabOk f) : (buildTree f).1.length ≤ 512 := by
  obtain ⟨wl, hinv, -, -⟩ := hf.buildTree_inv
  have hcount := hinv.count
  have hlen := hf.length_le
  omega

/-- The root's key holds every symbol (R156, R157). -/
theorem FtabOk.exists_root (hf : FtabOk f) {b : Byte} (hb : b ∈ f.map (·.sym)) :
    ∃ e, (buildTree f).1[(buildTree f).2.toNat]? = some e ∧ b ∈ e.key := by
  obtain ⟨wl, hinv, hwl, hroot⟩ := hf.buildTree_inv
  obtain ⟨x, hx, hbx⟩ := List.mem_flatMap.1 (hinv.symbols.mem_iff.2 hb)
  obtain ⟨y, rfl⟩ := List.length_eq_one_iff.1 (Nat.le_antisymm hwl (List.length_pos_of_mem hx))
  obtain rfl := List.mem_singleton.1 hx
  have hnode := hinv.named x hx
  have hroot : (buildTree f).2.toNat = x.2 := by
    have hlt := (List.getElem?_eq_some_iff.1 hnode).1
    rw [hroot, BitVec.toNat_ofNat, Nat.mod_eq_of_lt (hlt.trans_le hf.buildTree_length_le)]
  exact ⟨x.1, hroot ▸ hnode, hbx⟩

/-- The code of a symbol is the same for every reading of the tree's nodes. -/
theorem FtabOk.deriveFrom_congr (hf : FtabOk f) {node node' : NodeIndex → NodeEntry}
    (hnode : Reads node (buildTree f).1) (hnode' : Reads node' (buildTree f).1) {b : Byte}
    (hb : b ∈ f.map (·.sym)) (n : Nat) :
    deriveFrom node [b] n (buildTree f).2 = deriveFrom node' [b] n (buildTree f).2 := by
  obtain ⟨wl, hinv, -, -⟩ := hf.buildTree_inv
  obtain ⟨e, he, hbe⟩ := hf.exists_root hb
  exact hinv.deriveFrom_congr hnode hnode' n he hbe

end

/-! ### The code table of a frequency table -/

/-- The nodes of the tree of a table, by index. -/
def treeNode (f : List FtabEntry) (i : NodeIndex) : NodeEntry := (buildTree f).1.getD i.toNat default

theorem reads_treeNode (f : List FtabEntry) : Reads (treeNode f) (buildTree f).1 := by
  intro i e he
  simp [treeNode, he]

/-- The code table of a frequency table, with no machine state in it (R166, R168). -/
def codesOf (f : List FtabEntry) : List CtabEntry :=
  f.map fun e =>
    { sym := e.sym
      code := if f.length = 1 then [false]
        else deriveFrom (treeNode f) [e.sym] (buildTree f).1.length (buildTree f).2 }

theorem codesOf_syms (f : List FtabEntry) : (codesOf f).map (·.sym) = f.map (·.sym) := by
  simp [codesOf]

theorem State.reads_afterTree (s : State) :
    Reads (fun i => s.afterTree.nodeSlot i.toNat) (buildTree s.ftabValid).1 :=
  fun _ _ => afterTree_nodeSlot_of_getElem?

theorem State.nsym_eq_one_iff (s : State) : s.nsym = 1 ↔ s.ftabValid.length = 1 := by
  rw [s.ftabValid_length]
  exact BitVec.toNat_inj.symm

theorem State.afterTree_nnode_toNat {s : State} (hf : FtabOk s.ftabValid) :
    s.afterTree.nnode.toNat = (buildTree s.ftabValid).1.length :=
  (BitVec.toNat_ofNat ..).trans (Nat.mod_eq_of_lt (hf.buildTree_length_le.trans_lt (by decide)))

/-- The valid nodes are those of the table's tree. -/
theorem State.afterTree_nodeValid {s : State} (hf : FtabOk s.ftabValid) :
    s.afterTree.nodeValid = (buildTree s.ftabValid).1 := by
  rw [nodeValid, afterTree_nnode_toNat hf]
  exact Store.map_read_writeFrom ..

/-- After TREE, CODES makes the code table of the frequency table, whatever else the state holds. -/
theorem codeTable_afterTree {s : State} (hf : FtabOk s.ftabValid) :
    codeTable s.afterTree = codesOf s.ftabValid := by
  refine List.map_congr_left fun e he => congrArg (CtabEntry.mk e.sym) ?_
  have hderive : deriveCode s.afterTree [e.sym] =
      deriveFrom (treeNode s.ftabValid) [e.sym] (buildTree s.ftabValid).1.length (buildTree s.ftabValid).2 := by
    rw [deriveCode, State.afterTree_nnode_toNat hf]
    exact hf.deriveFrom_congr s.reads_afterTree (reads_treeNode _) (List.mem_map_of_mem he) _
  rw [codeOfSymbol, hderive]
  exact if_congr s.nsym_eq_one_iff rfl rfl

end Sys2Proof.Machine
end

