-- ==== Sys2Proof/Proofs/Encode.lean ====
section
/-! PROOFS. ENC as PACK of a table that knows every byte of the input (R188, R189), and its output as a
function of the input (R190). -/

namespace Sys2Proof.Machine

/-! ### PACK of a text whose bytes all have codes (R181, R184) -/

theorem pushBits_append (bs cs : Bits) (p : Packer) (s : State) :
    pushBits (bs ++ cs) p s = (pushBits bs p s).bind fun q u => pushBits cs q u := by
  induction bs generalizing p s with
  | nil => rfl
  | cons b bs ih =>
    simp only [List.cons_append, pushBits]
    split
    · rw [Run.bind_assoc]
      exact congrArg _ (funext fun _ => funext fun t => ih _ t)
    · exact ih _ s

/-- With a code for every byte, encoding is pushing the text's bits, and NF is not touched. -/
theorem pushSymbols_of_known {t : List CtabEntry} {x : Bytes} (h : ∀ b ∈ x, findCode t b ≠ none) (p : Packer)
    (s : State) : pushSymbols t x p s = pushBits (encodedBits t x) p s := by
  induction x generalizing p s with
  | nil => rfl
  | cons b x ih =>
    obtain ⟨hb, hx⟩ := List.forall_mem_cons.1 h
    obtain ⟨c, hc⟩ := Option.ne_none_iff_exists'.1 hb
    have hbits : encodedBits t (b :: x) = c ++ encodedBits t x := by simp [encodedBits, hc]
    rw [hbits, pushBits_append]
    simp only [pushSymbols, hc, ih hx]

theorem flushBits_eq_emitAll (p : Packer) (s : State) :
    flushBits p s =
      emitAll (if p.acc.length = 0 then [] else [byteOfBits (p.acc ++ zeroBits (padCount p.nbits))]) s := by
  unfold flushBits
  split
  · rfl
  · exact emit_eq_emitAll _ s

/-- Such a text is packed by emitting its payload. -/
theorem pushSymbols_flushBits_of_known {t : List CtabEntry} {x : Bytes} (h : ∀ b ∈ x, findCode t b ≠ none)
    (s : State) :
    ((pushSymbols t x { acc := [], nbits := 0 } s).bind fun p u =>
        (flushBits p u).bind fun _ v => .ok () (setPackCounts p.nbits v)) =
      (emitAll (encodedPayload t x) s).bind fun _ v => .ok () (setPackCounts (encodedBits t x).length v) := by
  have hpayload := gather_packBits [] (encodedBits t x) (by decide)
  simp only [List.length_nil, Nat.zero_add, List.nil_append] at hpayload
  rw [pushSymbols_of_known h, pushBits_eq, Run.bind_assoc, encodedPayload, ← hpayload, emitAll_append,
    Run.bind_assoc]
  simp only [Run.bind_ok, flushBits_eq_emitAll, Nat.zero_add]

theorem packBody_of_known {s : State} (hfits : s.inputFits) (h : ∀ b ∈ s.input, findCode s.ctabValid b ≠ none) :
    packBody s =
      (emitAll (header s.ctabValid) (beginPack s)).bind fun _ s1 =>
        (emitAll (encodedPayload s.ctabValid s.input) { s1 with hdrLen := s1.outLen }).bind fun _ s2 =>
          .ok () (setPackCounts (encodedBits s.ctabValid s.input).length s2) := by
  rw [packBody, if_neg (Bool.eq_false_iff.1 hfits.inputTooLong_eq)]
  simp only [pushSymbols_flushBits_of_known h]

/-! ### The output stream (R16, R42) -/

theorem State.output_length (s : State) : s.output.length = s.outLen.toNat := by simp [output]

/-- Appended bytes that fit come after the output so far. -/
theorem State.output_appendOut {s : State} {bs : Bytes} (hle : s.outLen.toNat ≤ s.params.outMax.toNat)
    (h : bs.length ≤ s.room) : (s.appendOut bs).output = s.output ++ bs := by
  have hold : ∀ a ∈ List.range s.outLen.toNat, (s.appendOut bs).obufByte a = s.obufByte a := fun a ha => by
    have hlt := List.mem_range.1 ha
    rw [obufByte_appendOut, dif_neg (by omega)]
  have hnew : (List.range bs.length).map (fun a => (s.appendOut bs).obufByte (s.outLen.toNat + a)) = bs := by
    apply List.ext_getElem
    · simp
    · intro a _ ha
      simp [obufByte_appendOut, ha]
  rw [output, appendOut_outLen hle h, List.range_add, List.map_append, List.map_congr_left hold, List.map_map]
  exact congrArg (s.output ++ ·) hnew

/-- The valid parts of the tables, with ROOT. -/
structure Tables where
  ftab : List FtabEntry
  node : List NodeEntry
  root : NodeIndex
  ctab : List CtabEntry

/-- Those of a state. -/
def State.tables (s : State) : Tables where
  ftab := s.ftabValid
  node := s.nodeValid
  root := s.root
  ctab := s.ctabValid

/-- `t` is a state that packing from `s` reaches with `out` as its output: NF, the tables and the capacities
are those of `s`. -/
structure HasOutput (s : State) (out : Bytes) (t : State) : Prop where
  nf : t.nf = s.nf
  tables : t.tables = s.tables
  params : t.params = s.params
  output : t.output = out
  outLen_le : t.outLen.toNat ≤ t.params.outMax.toNat

/-- Packing begins with no output. -/
theorem hasOutput_beginPack (s : State) : HasOutput s [] (beginPack s) where
  nf := rfl
  tables := rfl
  params := rfl
  output := rfl
  outLen_le := Nat.zero_le _

section
variable {s t : State} {out : Bytes}

theorem HasOutput.appendOut (h : HasOutput s out t) {bs : Bytes} (hbs : bs.length ≤ t.room) :
    HasOutput s (out ++ bs) (t.appendOut bs) where
  nf := h.nf
  tables := h.tables
  params := h.params
  output := by rw [State.output_appendOut h.outLen_le hbs, h.output]
  outLen_le := by
    have hle := h.outLen_le
    rw [State.appendOut_outLen h.outLen_le hbs]
    show _ ≤ t.params.outMax.toNat
    rw [State.room] at hbs
    omega

/-- Only NF, the tables, the capacities and the output matter. -/
theorem HasOutput.congr (h : HasOutput s out t) {u : State} (hnf : u.nf = t.nf) (htables : u.tables = t.tables)
    (hparams : u.params = t.params) (houtput : u.output = t.output) : HasOutput s out u where
  nf := hnf.trans h.nf
  tables := htables.trans h.tables
  params := hparams.trans h.params
  output := houtput.trans h.output
  outLen_le := by
    rw [← u.output_length, houtput, t.output_length, hparams]
    exact h.outLen_le

/-- BUSY and DONE do not matter either. -/
theorem HasOutput.of_beginCommand (h : HasOutput (beginCommand s) out t) : HasOutput s out t :=
  ⟨h.nf, h.tables, h.params, h.output, h.outLen_le⟩

/-- `EmitAll` appends all of its bytes, or fills OBUF with the first of them and raises CAPACITY (R16). -/
theorem HasOutput.emitAll_cases (h : HasOutput s out t) (bs : Bytes) :
    (∃ u, emitAll bs t = .ok () u ∧ HasOutput s (out ++ bs) u) ∨
    (∃ u, emitAll bs t = .raised .capacity u ∧ s.params.outMax.toNat ≤ (out ++ bs).length ∧
      HasOutput s ((out ++ bs).take s.params.outMax.toNat) u) := by
  by_cases hroom : bs.length ≤ t.room
  · exact .inl ⟨_, emitAll_fits h.outLen_le hroom, h.appendOut hroom⟩
  · have hlt : t.room < bs.length := Nat.lt_of_not_le hroom
    have hle := h.outLen_le
    have hlen := t.output_length
    rw [h.output] at hlen
    have hroom_eq : t.room = s.params.outMax.toNat - out.length := by rw [State.room, h.params, hlen]
    have htake : (out ++ bs).take s.params.outMax.toNat = out ++ bs.take t.room := by
      rw [List.take_append, List.take_of_length_le (by rw [hlen, ← h.params]; exact hle), hroom_eq]
    refine .inr ⟨_, emitAll_overflows h.outLen_le hlt, ?_, ?_⟩
    · rw [List.length_append]
      omega
    · rw [htake]
      exact h.appendOut (List.length_take_le _ _)

end

/-- PACK of a text whose bytes all have codes: the whole stream, or CAPACITY with as much of it as OBUF takes
(R181, R186). -/
theorem packBody_cases_of_known {s : State} (hfits : s.inputFits)
    (h : ∀ b ∈ s.input, findCode s.ctabValid b ≠ none) :
    (∃ u, packBody s = .ok () u ∧ HasOutput s (encodedStream s.ctabValid s.input) u) ∨
    (∃ u, packBody s = .raised .capacity u ∧
      HasOutput s ((encodedStream s.ctabValid s.input).take s.params.outMax.toNat) u) := by
  rw [packBody_of_known hfits h]
  rcases (hasOutput_beginPack s).emitAll_cases (header s.ctabValid) with ⟨s1, hs1, h1⟩ | ⟨s1, hs1, hlen, h1⟩
  · have h1' : HasOutput s (header s.ctabValid) { s1 with hdrLen := s1.outLen } := h1.congr rfl rfl rfl rfl
    rw [hs1, Run.bind_ok]
    rcases h1'.emitAll_cases (encodedPayload s.ctabValid s.input) with ⟨s2, hs2, h2⟩ | ⟨s2, hs2, -, h2⟩
    · rw [hs2]
      exact .inl ⟨_, rfl, h2.congr rfl rfl rfl rfl⟩
    · rw [hs2]
      exact .inr ⟨s2, rfl, h2⟩
  · rw [List.nil_append] at hlen h1
    rw [hs1, encodedStream, List.take_append_of_le_length hlen]
    exact .inr ⟨s1, rfl, h1⟩

/-- The same of the command. -/
theorem exec_pack_cases_of_known {s : State} (hready : s.ready .coded) (hfits : s.inputFits)
    (h : ∀ b ∈ s.input, findCode s.ctabValid b ≠ none) :
    ∃ t, exec .pack s = .next t ∧
      (HasOutput s (encodedStream s.ctabValid s.input) t ∨
        t.err = true ∧ HasOutput s ((encodedStream s.ctabValid s.input).take s.params.outMax.toNat) t) := by
  have hlegal : legalIn .pack s.phase = true := by rw [hready.2]; rfl
  refine ⟨_, congrArg Host.Outcome.next (issueChecked_run hready.1 hlegal), ?_⟩
  rcases packBody_cases_of_known (s := beginCommand s) hfits h with ⟨u, hu, hout⟩ | ⟨u, hu, hout⟩
  · rw [hu]
    exact .inl (hout.of_beginCommand.congr (u := finishCommand u) rfl rfl rfl rfl)
  · rw [hu]
    exact .inr ⟨rfl, hout.of_beginCommand.congr (u := raiseError .capacity u) rfl rfl rfl rfl⟩

/-! ### ENC as PACK after the tables (R188) -/

/-- `s` with the tables that ENC builds of its input. -/
def State.built (s : State) : State := s.afterFreq.afterTree.afterCodes

/-- The tables of an input, with no machine state in them. -/
def tablesOf (x : Bytes) : Tables where
  ftab := freqTable x
  node := (buildTree (freqTable x)).1
  root := (buildTree (freqTable x)).2
  ctab := codesOf (freqTable x)

theorem State.inputFits.freqTable_ftabOk {s : State} (h : s.inputFits) : FtabOk (freqTable s.input) :=
  h.freqTable_countsBytes.ftabOk (freqTable_prioritySorted _) h.input_length_le

theorem State.built_tables {s : State} (h : s.inputFits) : s.built.tables = tablesOf s.input := by
  have hftab := afterFreq_ftabValid h
  have hok : FtabOk s.afterFreq.ftabValid := hftab ▸ h.freqTable_ftabOk
  have hnode : s.built.nodeValid = _ := afterTree_nodeValid hok
  have hctab : s.built.ctabValid = _ := (afterCodes_ctabValid _).trans (codeTable_afterTree hok)
  have hbuilt : s.built.ftabValid = s.afterFreq.ftabValid := rfl
  have hroot : s.built.root = (buildTree s.afterFreq.ftabValid).2 := rfl
  rw [tables, hbuilt, hnode, hroot, hctab, hftab]
  rfl

/-- The table ENC builds has an entry for every byte of the input (R189). -/
theorem State.findCode_built {s : State} (h : s.inputFits) {b : Byte} (hb : b ∈ s.input) :
    findCode s.built.ctabValid b ≠ none := by
  have hctab : s.built.ctabValid = codesOf (freqTable s.input) := congrArg Tables.ctab (built_tables h)
  rw [← Option.isSome_iff_ne_none, findCode_isSome, hctab, codesOf_syms]
  exact (h.freqTable_countsBytes.syms b).2 hb

theorem encBody_beginCommand {s : State} (h : s.inputFits) :
    encBody (beginCommand s) = packBody (beginCommand s.built) := by
  have hfreq : freqBody (beginCommand s) = .ok () { s.afterFreq with busy := true, done := false } :=
    if_neg (Bool.eq_false_iff.1 h.inputTooLong_eq)
  rw [encBody, hfreq]
  rfl

theorem exec_enc (s : State) : exec .enc s = .next (issueChecked (legalIn .enc) encBody s) := rfl

theorem State.ready.enc_legal {s : State} (h : s.ready .empty) : legalIn .enc s.phase = true := by
  rw [h.2]
  rfl

/-- ENC of an input that fits is PACK with the tables built (R188). -/
theorem exec_enc_of_inputFits {s : State} (hready : s.ready .empty) (hfits : s.inputFits) :
    exec .enc s = exec .pack s.built := by
  have hpack : exec .pack s.built = .next (endCommand (packBody (beginCommand s.built))) :=
    congrArg Host.Outcome.next (issueChecked_run hready.1 rfl)
  rw [exec_enc, issueChecked_run hready.1 hready.enc_legal, encBody_beginCommand hfits, hpack]

/-- An accepted ENC keeps NF, builds the tables of its input and writes a beginning of its stream, all of it
unless it raises an error (R189, R190). -/
theorem exec_enc_of_input {s t : State} (hready : s.ready .empty) (hfits : s.inputFits)
    (h : exec .enc s = .next t) :
    t.nf = s.nf ∧ t.tables = tablesOf s.input ∧
      t.output <+: encodedStream (tablesOf s.input).ctab s.input ∧
      (t.err = false → t.output = encodedStream (tablesOf s.input).ctab s.input) := by
  obtain ⟨u, hu, hcases⟩ := exec_pack_cases_of_known (s := s.built) ⟨hready.1, rfl⟩ hfits
    fun _ => State.findCode_built hfits
  obtain rfl : u = t := Host.Outcome.next.inj (hu.symm.trans (exec_enc_of_inputFits hready hfits ▸ h))
  rw [← State.built_tables hfits]
  rcases hcases with hall | ⟨herr, hpart⟩
  · exact ⟨hall.nf, hall.tables, hall.output ▸ List.prefix_rfl, fun _ => hall.output⟩
  · exact ⟨hpart.nf, hpart.tables, hpart.output ▸ List.take_prefix _ _, fun hok => by simp [herr] at hok⟩

theorem exec_enc_nf_of_not_fits {s t : State} (hready : s.ready .empty) (hfits : ¬ s.inputFits)
    (h : exec .enc s = .next t) : t.nf = s.nf := by
  have hfreq : freqBody (beginCommand s) = .raised .capacity (beginCommand s) :=
    if_pos (decide_eq_true (Nat.lt_of_not_le hfits))
  rw [exec_enc, issueChecked_run hready.1 hready.enc_legal, encBody, hfreq] at h
  cases h
  rfl

theorem exec_enc_nf_of_not_ready {s t : State} (hready : ¬ s.ready .empty) (h : exec .enc s = .next t) :
    t.nf = s.nf := by
  rw [exec_enc] at h
  cases h
  rcases issueChecked_cases (legalIn .enc) encBody s with ⟨-, hi⟩ | ⟨-, -, hi⟩ | ⟨herr, hlegal, -⟩
  · rw [hi]
    rfl
  · rw [hi]
    rfl
  · exact absurd ⟨herr, by simpa [legalIn] using hlegal⟩ hready

/-! ### The statements -/

/-- Settles O42: ENC that is refused, or whose input is longer than IN_MAX, does not write NF; otherwise it is
PACK with a table that has every byte of the input, and such a PACK keeps NF. -/
theorem encNeverMeetsUnknown : Obligations.EncNeverMeetsUnknown := by
  intro s t h
  by_cases hready : s.ready .empty
  · by_cases hfits : s.inputFits
    · obtain ⟨hnf, htables, -, -⟩ := exec_enc_of_input hready hfits h
      have hctab : t.ctabValid = s.built.ctabValid :=
        congrArg Tables.ctab (htables.trans (State.built_tables hfits).symm)
      exact ⟨hnf, fun _ _ b hb => hctab ▸ State.findCode_built hfits hb⟩
    · exact ⟨exec_enc_nf_of_not_fits hready hfits h, fun _ hf => absurd hf hfits⟩
  · exact ⟨exec_enc_nf_of_not_ready hready h, fun hr => absurd hr hready⟩

/-- Settles O43: both runs are compared with the same function of the input. -/
theorem encDependsOnTheInputAlone : Obligations.EncDependsOnTheInputAlone := by
  intro s s' t t' hready hready' hfits hfits' hinput h h'
  obtain ⟨-, htables, hprefix, hwhole⟩ := exec_enc_of_input hready hfits h
  obtain ⟨-, htables', hprefix', hwhole'⟩ := exec_enc_of_input hready' hfits' h'
  rw [hinput] at htables hprefix hwhole
  have heq : t.tables = t'.tables := htables.trans htables'.symm
  exact ⟨congrArg Tables.ftab heq, congrArg Tables.node heq, congrArg Tables.root heq, congrArg Tables.ctab heq,
    List.prefix_or_prefix_of_prefix hprefix hprefix', fun he he' => (hwhole he).trans (hwhole' he').symm⟩

end Sys2Proof.Machine
end

