-- ==== Sys2Proof/Proofs/Parse.lean ====
section
/-! PROOFS. PARSE (R196) of a stream whose table is written in well-formed lines: the encoder's header (R202),
no start marker (R197), no end marker or a bad line (R199). DEC stops at the same errors (R210). -/

namespace Sys2Proof.Machine

/-! ### Lines (R198) -/

theorem terminatedLines_append_of_lines {ls : List Bytes} (h : ∀ l ∈ ls, byteNL ∉ l) (r : Bytes) :
    terminatedLines ((ls.flatMap fun l => l ++ [byteNL]) ++ r) = ls ++ terminatedLines r := by
  induction ls with
  | nil => rfl
  | cons l ls ih =>
    obtain ⟨hl, hls⟩ := List.forall_mem_cons.1 h
    simp [terminatedLines_line _ _ hl, ih hls]

/-- The first line is what stands before the first terminator. -/
theorem exists_eq_append_of_terminatedLines_cons {x l : Bytes} {ls : List Bytes}
    (h : terminatedLines x = l :: ls) : ∃ r, x = l ++ byteNL :: r := by
  obtain ⟨r, -, hx, -⟩ := terminatedLines_cut x
  rw [h] at hx
  exact ⟨(ls.flatMap fun m => m ++ [byteNL]) ++ r, by simpa using hx⟩

/-! ### Entry lines (R102, R107) -/

/-- Lines that stand for the entries of a table that fits CTAB, none of them a marker (R196). -/
structure EntryLines (ls : List Bytes) (T : List CtabEntry) : Prop where
  plain : ∀ l ∈ ls, byteNL ∉ l ∧ l ≠ marker
  entries : ls.map parseEntry = T.map some
  length_le : T.length ≤ 256

theorem parseEntry_entryLine {e : CtabEntry} (h : 1 ≤ e.code.length ∧ e.code.length ≤ 255) :
    parseEntry (entryLine e) = some e := by
  have hne : e.code ≠ [] := List.ne_nil_of_length_pos h.1
  have hlen : ¬ ((codeText e.code).length = 0 ∨ Config.codeMax < (codeText e.code).length) := by
    simp only [codeText_length, Config.codeMax]
    omega
  simp only [parseEntry, splitEntry_entryLine e hne]
  rw [if_neg hlen, readCodeText_codeText]
  rfl

/-- An entry line has a space, the marker has none. -/
theorem entryLine_ne_marker (e : CtabEntry) : entryLine e ≠ marker := by
  intro h
  have hmem : byteSP ∈ entryLine e := List.mem_append_right _ List.mem_cons_self
  rw [h] at hmem
  exact absurd hmem (by decide)

/-- The lines the encoder writes (R109). -/
theorem TableFits.entryLines {T : List CtabEntry} (h : TableFits T) : EntryLines (T.map entryLine) T where
  plain := List.forall_mem_map.2 fun e _ => ⟨entryLine_noNL e, entryLine_ne_marker e⟩
  entries := by
    rw [List.map_map]
    exact List.map_congr_left fun e he => parseEntry_entryLine (h.2 e he)
  length_le := h.1

theorem header_eq_lines (T : List CtabEntry) :
    header T = marker ++ byteNL :: ((T.map entryLine).flatMap fun l => l ++ [byteNL]) ++ marker ++ [byteNL] := by
  simp [header, List.flatMap_map]

theorem header_length_eq_lines (T : List CtabEntry) :
    (header T).length = 6 + linesLength (T.map entryLine) + 6 := by
  simp [header, marker, linesLength, List.length_flatMap, Function.comp_def]
  omega

/-! ### CTAB after the parser's loop (R196, R199) -/

/-- `s` with the table `T` in CTAB. -/
def State.withTable (s : State) (T : List CtabEntry) : State :=
  { s with ctab := Store.writeFrom s.ctab 0 T, nent := BitVec.ofNat 32 T.length }

theorem State.withTable_ctabValid (s : State) {T : List CtabEntry} (h : T.length ≤ 256) :
    (s.withTable T).ctabValid = T := by
  have hlen : (s.withTable T).nent.toNat = T.length :=
    (BitVec.toNat_ofNat ..).trans (Nat.mod_eq_of_lt (by omega))
  rw [ctabValid, hlen]
  exact Store.map_read_writeFrom ..

theorem State.withTable_ctabSlot_of_le (s : State) {T : List CtabEntry} {i : Nat} (h : T.length ≤ i) :
    (s.withTable T).ctabSlot i = s.ctabSlot i := by
  have hread : Store.read (s.withTable T).ctab i = Store.read s.ctab i :=
    (Store.read_writeFrom ..).trans (dif_neg (by omega))
  simp only [ctabSlot, hread]
  rfl

/-- Well-formed entry lines, whoever wrote them, go into CTAB in order; `parseTable_entries` says it of the
encoder's lines. -/
theorem parseTable_append_of_parseEntry {ls : List Bytes} {T : List CtabEntry} (rest : List Bytes) (pos : Nat)
    (s : State) (hmarker : ∀ l ∈ ls, l ≠ marker) (hparse : ls.map parseEntry = T.map some)
    (hcap : s.nent.toNat + T.length ≤ 256) :
    parseTable (ls ++ rest) pos s = parseTable rest (pos + linesLength ls)
      { s with ctab := Store.writeFrom s.ctab s.nent.toNat T, nent := s.nent + BitVec.ofNat 32 T.length } := by
  induction T generalizing ls pos s with
  | nil =>
    obtain rfl : ls = [] := by simpa using hparse
    simp [linesLength, Store.writeFrom]
  | cons e T ih =>
    obtain ⟨l, ls, rfl, hl, hls⟩ := List.map_eq_cons_iff.1 hparse
    obtain ⟨hm, hms⟩ := List.forall_mem_cons.1 hmarker
    rw [List.length_cons] at hcap
    have hn : (s.nent + 1).toNat = s.nent.toNat + 1 := toNat_add_one (by omega)
    have hroom : s.nent.toNat ≠ Config.tblMax := by
      rw [Config.tblMax]
      omega
    have hpos : pos + l.length + 1 + linesLength ls = pos + linesLength (l :: ls) := by
      simp only [linesLength, List.map_cons, List.sum_cons]
      omega
    have hnent : s.nent + 1 + BitVec.ofNat 32 T.length = s.nent + BitVec.ofNat 32 (T.length + 1) := by
      rw [Nat.add_comm, BitVec.ofNat_add, BitVec.add_assoc]
      rfl
    simp only [List.cons_append, parseTable, hm, hl, hroom, if_false]
    rw [ih _ _ hms hls (by simp only [hn]; omega), hpos]
    simp only [hn, hnent, Store.writeFrom, List.length_cons]

/-- BAD_TABLE at the next line (R199): (b) it is no entry, (c) CTAB is full. -/
theorem parseTable_cons_of_bad {l : Bytes} (ls : List Bytes) (pos : Nat) {s : State} (hmarker : l ≠ marker)
    (h : parseEntry l = none ∨ s.nent.toNat = Config.tblMax) :
    parseTable (l :: ls) pos s = .raised .badTable s := by
  rw [parseTable, if_neg hmarker]
  cases hl : parseEntry l with
  | none => rfl
  | some e => exact if_pos (h.resolve_left (by simp [hl]))

/-! ### The pseudocode of PARSE by its first line (R196, R197) -/

section
variable {s : State}

/-- `s` after the parser's first writes. -/
def State.beginParse (s : State) : State := { s with nent := 0, hdrLen := 0 }

theorem parseBody_of_marker {x : Bytes} (hfits : s.inputFits) (h : s.input = marker ++ byteNL :: x) :
    parseBody s = (parseTable (terminatedLines x) 6 s.beginParse).bind fun pos t =>
      .ok () { t with hdrLen := BitVec.ofNat 32 pos, phase := .parsed } := by
  have hlines : terminatedLines s.input = marker :: terminatedLines x := by
    rw [h, terminatedLines_line _ _ marker_noNL]
  rw [parseBody, if_neg (Bool.eq_false_iff.1 hfits.inputTooLong_eq), hlines]
  rfl

theorem parseBody_of_no_marker (hfits : s.inputFits) (h : ¬ ∃ x, s.input = marker ++ byteNL :: x) :
    parseBody s = .raised .missingTable s.beginParse := by
  rw [parseBody, if_neg (Bool.eq_false_iff.1 hfits.inputTooLong_eq)]
  cases hlines : terminatedLines s.input with
  | nil => rfl
  | cons l ls =>
    refine if_neg fun hl => h ?_
    rw [← hl]
    exact exists_eq_append_of_terminatedLines_cons hlines

/-- After the marker and the lines of a table the parser stands at the rest with the table in CTAB. -/
theorem parseBody_of_entryLines {ls : List Bytes} {T : List CtabEntry} {r : Bytes} (hfits : s.inputFits)
    (hls : EntryLines ls T) (h : s.input = marker ++ byteNL :: (ls.flatMap fun l => l ++ [byteNL]) ++ r) :
    parseBody s = (parseTable (terminatedLines r) (6 + linesLength ls) (s.beginParse.withTable T)).bind
      fun pos t => .ok () { t with hdrLen := BitVec.ofNat 32 pos, phase := .parsed } := by
  have hinput : s.input = marker ++ byteNL :: ((ls.flatMap fun l => l ++ [byteNL]) ++ r) := by simpa using h
  have hcap : s.beginParse.nent.toNat + T.length ≤ 256 := (Nat.zero_add _).trans_le hls.length_le
  have hnent : s.beginParse.nent + BitVec.ofNat 32 T.length = BitVec.ofNat 32 T.length := BitVec.zero_add _
  have htable : parseTable (ls ++ terminatedLines r) 6 s.beginParse =
      parseTable (terminatedLines r) (6 + linesLength ls) (s.beginParse.withTable T) := by
    rw [parseTable_append_of_parseEntry _ _ _ (fun l hl => (hls.plain l hl).2) hls.entries hcap,
      hnent]
    rfl
  rw [parseBody_of_marker hfits hinput,
    terminatedLines_append_of_lines fun l hl => (hls.plain l hl).1, htable]

/-- The pseudocode of PARSE accepts a table that ends in the end marker (R196). -/
theorem parseBody_of_endMarker {ls : List Bytes} {T : List CtabEntry} {p : Bytes} (hfits : s.inputFits)
    (hls : EntryLines ls T)
    (h : s.input = marker ++ byteNL :: (ls.flatMap fun l => l ++ [byteNL]) ++ (marker ++ byteNL :: p)) :
    parseBody s = .ok () { s.withTable T with
      hdrLen := BitVec.ofNat 32 (6 + linesLength ls + 6), phase := .parsed } := by
  rw [parseBody_of_entryLines hfits hls h, terminatedLines_line _ _ marker_noNL]
  rfl

/-- It rejects one that does not, at its first bad line (R199). -/
theorem parseBody_of_malformed {ls : List Bytes} {T : List CtabEntry} {r : Bytes} (hfits : s.inputFits)
    (hls : EntryLines ls T) (h : s.input = marker ++ byteNL :: (ls.flatMap fun l => l ++ [byteNL]) ++ r)
    (hbad : byteNL ∉ r ∨ ∃ l r', r = l ++ byteNL :: r' ∧ byteNL ∉ l ∧ l ≠ marker ∧
      (parseEntry l = none ∨ T.length = 256)) :
    parseBody s = .raised .badTable (s.beginParse.withTable T) := by
  rw [parseBody_of_entryLines hfits hls h]
  rcases hbad with hnone | ⟨l, r', rfl, hline, hmarker, hentry⟩
  · rw [terminatedLines_none r hnone]
    rfl
  · have hfull : T.length = 256 → (s.beginParse.withTable T).nent.toNat = Config.tblMax := fun hT => by
      simp [State.withTable, hT, Config.tblMax]
    rw [terminatedLines_line _ _ hline, parseTable_cons_of_bad _ _ hmarker (hentry.imp_right hfull)]
    rfl

end

/-! ### The commands PARSE and DEC (R196, R210) -/

section
variable {s : State}

theorem exec_parse_of_ready (h : s.ready .empty) :
    exec .parse s = .next (endCommand (parseBody (beginCommand s))) := by
  have hlegal : legalIn .parse s.phase = true := by rw [h.2]; rfl
  exact congrArg Host.Outcome.next (issueChecked_run h.1 hlegal)

theorem exec_dec_of_ready (h : s.ready .empty) :
    exec .dec s = .next (endCommand (decBody (beginCommand s))) := by
  have hlegal : legalIn .dec s.phase = true := by rw [h.2]; rfl
  exact congrArg Host.Outcome.next (issueChecked_run h.1 hlegal)

/-- An error entered while ERR = 0 is the one reported (R24, R233). -/
theorem raiseError_of_err_false (h : s.err = false) (e : ErrCode) :
    raiseError e s = { s with busy := false, done := true, err := true, errcode := e } := by
  simp [raiseError, finishCommand, h]

/-- An error of PARSE ends DEC too (R210). -/
theorem exec_of_parseBody_raised {i : Instr} (hi : i = .parse ∨ i = .dec) (hready : s.ready .empty)
    {e : ErrCode} {u : State} (h : parseBody (beginCommand s) = .raised e u) :
    exec i s = .next { u with busy := false, done := true, err := true, errcode := e } := by
  have hfixed : u.fixed = (beginCommand s).fixed := by
    rw [← parseBody_fixed (beginCommand s), h]
    rfl
  have herr : u.err = false := (congrArg Fixed.err hfixed).trans hready.1
  rcases hi with rfl | rfl
  · rw [exec_parse_of_ready hready, h, endCommand_raised, raiseError_of_err_false herr]
  · rw [exec_dec_of_ready hready, decBody, h, Run.bind_raised, endCommand_raised, raiseError_of_err_false herr]

end

/-! ### HDR_LEN and the payload (R204) -/

/-- The payload is the input without its first HDR_LEN bytes. -/
theorem State.payload_eq_drop (s : State) : s.payload = s.input.drop s.hdrLen.toNat := by
  rw [payload, input, ibufRange, ibufRange, ← List.map_drop, List.drop_range']
  simp

/-- `s` after PARSE has accepted the table `T`, written in `n` bytes. -/
def State.afterParse (s : State) (T : List CtabEntry) (n : Nat) : State :=
  { s.withTable T with busy := false, done := true, hdrLen := BitVec.ofNat 32 n, phase := .parsed }

/-- PARSE accepts a table that ends in the end marker, whoever wrote its lines (R196). -/
theorem exec_parse_of_endMarker {s : State} {ls : List Bytes} {T : List CtabEntry} {p : Bytes}
    (hready : s.ready .empty) (hfits : s.inputFits) (hls : EntryLines ls T)
    (h : s.input = marker ++ byteNL :: (ls.flatMap fun l => l ++ [byteNL]) ++ (marker ++ byteNL :: p)) :
    exec .parse s = .next (s.afterParse T (6 + linesLength ls + 6)) := by
  rw [exec_parse_of_ready hready, parseBody_of_endMarker (s := beginCommand s) hfits hls h]
  rfl

/-- PARSE inverts the encoder's header (R202). -/
theorem exec_parse_of_header {s : State} {T : List CtabEntry} {p : Bytes} (hready : s.ready .empty)
    (hfits : s.inputFits) (hT : TableFits T) (h : s.input = header T ++ p) :
    exec .parse s = .next (s.afterParse T (header T).length) := by
  rw [header_length_eq_lines]
  exact exec_parse_of_endMarker hready hfits hT.entryLines (by simpa [header_eq_lines] using h)

/-! ### Which errors the pseudocode can raise (R221) -/

/-- A stretch of pseudocode that does not raise `e`. -/
def Run.NeverRaises {α : Type} (e : ErrCode) : Run α → Prop
  | .ok _ _ => True
  | .raised e' _ => e' ≠ e

theorem Run.NeverRaises.bind {α β : Type} {r : Run α} {f : α → State → Run β} {e : ErrCode}
    (hr : r.NeverRaises e) (hf : ∀ a s, (f a s).NeverRaises e) : (r.bind f).NeverRaises e := by
  cases r with
  | ok a s => exact hf a s
  | raised e' s => exact hr

theorem emitAll_neverRaises {e : ErrCode} (he : .capacity ≠ e) (bs : Bytes) (s : State) :
    (emitAll bs s).NeverRaises e := by
  induction bs generalizing s with
  | nil => trivial
  | cons b bs ih =>
    refine Run.NeverRaises.bind ?_ fun _ => ih
    rcases emit_cases b s with ⟨-, hb⟩ | ⟨-, hb⟩
    · rw [hb]
      exact he
    · rw [hb]
      trivial

/-- UNPACK raises nothing but CAPACITY (R204). -/
theorem unpackBody_neverRaises {e : ErrCode} (he : .capacity ≠ e) (s : State) :
    (unpackBody s).NeverRaises e := by
  rw [unpackBody]
  split
  · exact he
  · dsimp only
    rw [scanBits_eq, Run.bind_assoc]
    exact (emitAll_neverRaises he _ _).bind fun _ _ => trivial

/-- With the start marker PARSE raises nothing but BAD_TABLE (R197, R199). -/
theorem parseBody_neverRaises_of_marker {s : State} {x : Bytes} {e : ErrCode} (he : .badTable ≠ e)
    (hfits : s.inputFits) (h : s.input = marker ++ byteNL :: x) : (parseBody s).NeverRaises e := by
  rw [parseBody_of_marker hfits h]
  refine Run.NeverRaises.bind ?_ fun _ _ => trivial
  rcases parseTable_frame (terminatedLines x) 6 s.beginParse (Nat.zero_le _) with ⟨_, _, hok, -⟩ | ⟨_, hbad, -⟩
  · rw [hok]
    trivial
  · rw [hbad]
    exact he

/-- ERRCODE at the end of a command is an error its pseudocode raises (R24, R233). -/
theorem Run.NeverRaises.endCommand_errcode_ne {r : Run Unit} {e : ErrCode} (h : r.NeverRaises e)
    (hok : r.state.err = false) (herr : (endCommand r).err = true) : (endCommand r).errcode ≠ e := by
  cases r with
  | ok _ s => exact absurd (hok.symm.trans herr) Bool.false_ne_true
  | raised e' s =>
    have hs : s.err = false := hok
    rw [endCommand_raised, raiseError_of_err_false hs]
    exact h

theorem exec_errcode_ne_missingTable_of_marker {s : State} {x : Bytes} {i : Instr} (hi : i = .parse ∨ i = .dec)
    (hready : s.ready .empty) (hfits : s.inputFits) (h : s.input = marker ++ byteNL :: x) :
    ∃ t, exec i s = .next t ∧ (t.err = true → t.errcode ≠ .missingTable) := by
  have hparse : (parseBody (beginCommand s)).NeverRaises .missingTable :=
    parseBody_neverRaises_of_marker nofun hfits h
  rcases hi with rfl | rfl
  · exact ⟨_, exec_parse_of_ready hready, hparse.endCommand_errcode_ne
      ((congrArg Fixed.err (parseBody_fixed _)).trans hready.1)⟩
  · have hdec : (decBody (beginCommand s)).NeverRaises .missingTable :=
      hparse.bind fun _ => unpackBody_neverRaises nofun
    exact ⟨_, exec_dec_of_ready hready, hdec.endCommand_errcode_ne
      ((congrArg Fixed.err (decBody_fixed _)).trans hready.1)⟩

/-! ### The statements -/

/-- Settles O44: the header is the marker, the entry lines of the table and the marker, which PARSE reads back;
HDR_LEN does not wrap, because the header lies in an input of at most 2^24 bytes. -/
theorem parseRecoversTheTable : Obligations.ParseRecoversTheTable := by
  intro s T p hready hfits hT hinput
  have hlen : (s.afterParse T (header T).length).hdrLen.toNat = (header T).length := by
    have hle := hfits.input_length_le
    rw [hinput, List.length_append] at hle
    exact (BitVec.toNat_ofNat ..).trans (Nat.mod_eq_of_lt (by omega))
  refine ⟨s.afterParse T (header T).length, exec_parse_of_header hready hfits hT hinput, rfl,
    s.withTable_ctabValid hT.1, hlen, ?_, fun _ => s.withTable_ctabSlot_of_le⟩
  have hsame : (s.afterParse T (header T).length).input = header T ++ p := hinput
  rw [State.payload_eq_drop, hsame, hlen, List.drop_left]

/-- Settles O46: PARSE looks at the first line, and DEC begins with PARSE; after the marker PARSE raises only
BAD_TABLE and the UNPACK of DEC only CAPACITY. -/
theorem parseWithoutMarkerRaisesMissingTable : Obligations.ParseWithoutMarkerRaisesMissingTable := by
  intro s i hi hready hfits
  refine ⟨fun hnone => ?_, fun ⟨_, hmarker⟩ =>
    exec_errcode_ne_missingTable_of_marker hi hready hfits hmarker⟩
  rw [exec_of_parseBody_raised hi hready (parseBody_of_no_marker (s := beginCommand s) hfits hnone)]
  rfl

/-- Settles O47: the lines of the table go into CTAB, and the parser's loop raises at what follows them. -/
theorem malformedTableRaisesBadTable : Obligations.MalformedTableRaisesBadTable := by
  intro s i ls T r hi hready hfits hplain hentries hlen hinput hbad
  have hraised := parseBody_of_malformed (s := beginCommand s) hfits ⟨hplain, hentries, hlen⟩ hinput hbad
  exact ⟨_, exec_of_parseBody_raised hi hready hraised, rfl, s.withTable_ctabValid hlen,
    fun _ => s.withTable_ctabSlot_of_le⟩

end Sys2Proof.Machine
end

