-- ==== Sys2Proof/Proofs/Unpack.lean ====
section
/-! PROOFS. UNPACK (R204) reads of the code table nothing but which symbol each code has: two tables with the
same pairwise different codes decode alike, whatever their order (R206). -/

namespace Sys2Proof.Machine

/-! ### The match rule without an order (R205, R206) -/

/-- With pairwise different codes, the first entry with a code is the only one. -/
theorem matchCode_eq_some_iff {t : List CtabEntry} (hnodup : (t.map (·.code)).Nodup) {c : Bits} {sym : Byte} :
    matchCode t c = some sym ↔ { sym := sym, code := c } ∈ t := by
  refine ⟨matchCode_mem, fun hmem => ?_⟩
  cases hmatch : matchCode t c with
  | none => exact absurd rfl (matchCode_none.1 hmatch _ hmem)
  | some sym' =>
    have heq := List.inj_on_of_nodup_map hnodup (matchCode_mem hmatch) hmem rfl
    exact congrArg (some ·.sym) heq

theorem matchCode_eq_of_perm {t t' : List CtabEntry} (hperm : t'.Perm t) (hnodup : (t.map (·.code)).Nodup) :
    matchCode t' = matchCode t := by
  have hnodup' : (t'.map (·.code)).Nodup := (hperm.map _).nodup_iff.2 hnodup
  funext c
  refine Option.ext fun sym => ?_
  rw [matchCode_eq_some_iff hnodup, matchCode_eq_some_iff hnodup', hperm.mem_iff]

/-- The scan asks the table only for matches. -/
theorem scanBits_congr {t t' : List CtabEntry} (h : matchCode t' = matchCode t) : scanBits t' = scanBits t := by
  funext bs cand s
  induction bs generalizing cand s with
  | nil => rfl
  | cons b bs ih => simp only [scanBits, h, ih]

/-! ### The stored table only goes along (R204) -/

/-- `s` with another content of CTAB. -/
def State.withCtab (s : State) (c : Store CtabEntry) : State := { s with ctab := c }

/-- The same end with another content of CTAB. -/
def Run.withCtab {α : Type} (c : Store CtabEntry) : Run α → Run α
  | .ok a s => .ok a (s.withCtab c)
  | .raised e s => .raised e (s.withCtab c)

section
variable (c : Store CtabEntry)

theorem Run.withCtab_bind {α β : Type} (r : Run α) {f g : α → State → Run β}
    (h : ∀ a s, g a (s.withCtab c) = (f a s).withCtab c) : (r.withCtab c).bind g = (r.bind f).withCtab c := by
  cases r with
  | ok a s => exact h a s
  | raised e s => rfl

theorem emit_withCtab (b : Byte) (s : State) : emit b (s.withCtab c) = (emit b s).withCtab c := by
  rw [emit, emit, apply_ite (Run.withCtab c)]
  rfl

theorem scanBits_withCtab (t : List CtabEntry) (bs cand : Bits) (s : State) :
    scanBits t bs cand (s.withCtab c) = (scanBits t bs cand s).withCtab c := by
  induction bs generalizing cand s with
  | nil => rfl
  | cons b bs ih =>
    rw [scanBits, scanBits]
    cases matchCode t (cand ++ [b]) with
    | none => exact ih _ s
    | some sym =>
      dsimp only
      rw [emit_withCtab]
      exact Run.withCtab_bind c _ fun _ => ih []

/-- The pseudocode of UNPACK reads the table only for matches, and keeps it. -/
theorem unpackBody_withCtab {s : State} (h : matchCode (s.withCtab c).ctabValid = matchCode s.ctabValid) :
    unpackBody (s.withCtab c) = (unpackBody s).withCtab c := by
  have hscan : scanBits (s.withCtab c).ctabValid (unpackBytes s.payload) [] ((beginUnpack s).withCtab c) =
      (scanBits s.ctabValid (unpackBytes s.payload) [] (beginUnpack s)).withCtab c := by
    rw [scanBits_congr h, scanBits_withCtab]
  rw [unpackBody, unpackBody, apply_ite (Run.withCtab c)]
  refine if_congr Iff.rfl rfl ?_
  exact (congrArg (Run.bind · _) hscan).trans (Run.withCtab_bind c _ fun _ _ => rfl)

theorem endCommand_withCtab (r : Run Unit) : endCommand (r.withCtab c) = (endCommand r).withCtab c := by
  cases r <;> rfl

/-- The same of the command, accepted or not. -/
theorem exec_unpack_withCtab {s : State} (h : matchCode (s.withCtab c).ctabValid = matchCode s.ctabValid)
    {t : State} (ht : exec .unpack s = .next t) : exec .unpack (s.withCtab c) = .next (t.withCtab c) := by
  have hbody : unpackBody ((beginCommand s).withCtab c) = (unpackBody (beginCommand s)).withCtab c :=
    unpackBody_withCtab c h
  obtain rfl : issueChecked (legalIn .unpack) unpackBody s = t := Host.Outcome.next.inj ht
  refine congrArg Host.Outcome.next ?_
  rcases issueChecked_cases (legalIn .unpack) unpackBody s with ⟨herr, hs⟩ | ⟨herr, hlegal, hs⟩ | ⟨herr, hlegal, hs⟩
  · rw [hs]
    exact issueChecked_err (s := s.withCtab c) herr
  · rw [hs]
    exact issueChecked_sequence (s := s.withCtab c) herr hlegal
  · rw [hs, ← endCommand_withCtab, ← hbody]
    exact issueChecked_run (s := s.withCtab c) herr hlegal

end

/-- Settles O50: the permuted table has the same matches, so UNPACK ends in the same state but for CTAB. -/
theorem unpackIgnoresTheEntryOrder : Obligations.UnpackIgnoresTheEntryOrder := by
  intro s s' t t' hs' hperm hnodup ht ht'
  have hsame : s.withCtab s'.ctab = s' := hs'.symm
  have hmatch : matchCode (s.withCtab s'.ctab).ctabValid = matchCode s.ctabValid := by
    rw [hsame]
    exact matchCode_eq_of_perm hperm hnodup
  have hexec := exec_unpack_withCtab s'.ctab hmatch ht
  rw [hsame, ht'] at hexec
  obtain rfl : t' = t.withCtab s'.ctab := Host.Outcome.next.inj hexec
  exact ⟨rfl, rfl⟩

end Sys2Proof.Machine
end

