-- ==== Sys2Proof/Proofs/Exceptions.lean ====
section
/-! PROOFS. What the issue sequence raises before any pseudocode runs: ILLEGAL_CMD (R226) and SEQUENCE (R227);
and the error state, which refuses every word but NOP and CLR (R236). -/

namespace Sys2Proof

/-! ### ILLEGAL words (R91) -/

/-- A word that fails some test of R91, whichever comes first. -/
theorem exists_decode_illegal {w : Word}
    (h : 0x0A < (opcOf w).toNat ∨ reservedOf w ≠ 0 ∨ (symOf w ≠ 0 ∧ opcOf w ≠ 0x05)) :
    ∃ why, decode w = .illegal why := by
  by_cases hres : reservedOf w = 0
  · by_cases hopc : 0x0A < (opcOf w).toNat
    · exact ⟨_, decode_of_opcOf_gt hres hopc⟩
    · obtain ⟨hsym, hlookup⟩ := (h.resolve_left hopc).resolve_left (not_not.2 hres)
      exact ⟨_, decode_of_symOf_ne hres (not_lt.1 hopc) hlookup hsym⟩
  · exact ⟨_, decode_of_reservedOf_ne hres⟩

end Sys2Proof

namespace Sys2Proof.Machine

/-! ### A phase that does not allow the command (R227, R231) -/

/-- SEQUENCE is raised before the pseudocode runs, whichever command it is. -/
theorem exec_of_legalIn_false {i : Instr} {s : State} (herr : s.err = false) (h : legalIn i s.phase = false) :
    exec i s = .next { s with busy := false, done := true, err := true, errcode := .sequence } := by
  rcases exec_cases i s with ⟨rfl, -⟩ | ⟨rfl, -⟩ | ⟨-, -, hexec⟩
  · exact Bool.noConfusion h
  · exact Bool.noConfusion h
  · rw [hexec, issueChecked_sequence herr h, raiseError_beginCommand herr]

/-! ### The error state (R236) -/

theorem HostTouches.err {s t : State} (h : HostTouches s t) : t.err = s.err := by
  rw [HostTouches] at h
  rw [h]

theorem HostTouches.errcode {s t : State} (h : HostTouches s t) : t.errcode = s.errcode := by
  rw [HostTouches] at h
  rw [h]

section
variable {s : State} (herr : s.err = true)
include herr

/-- NOP does in the error state what a refusal does: it completes. -/
theorem exec_of_err {i : Instr} (hclr : i ≠ .clr) : exec i s = .next { s with busy := false, done := true } := by
  rcases exec_cases i s with ⟨-, hexec⟩ | ⟨hi, -⟩ | ⟨-, -, hexec⟩
  · exact hexec
  · exact absurd hi hclr
  · rw [hexec, issueChecked_err herr, finish_begin]

theorem issueIllegal_of_err : issueIllegal s = { s with busy := false, done := true } := by
  rcases issueIllegal_cases s with ⟨-, hissue⟩ | ⟨hfalse, -⟩
  · exact hissue
  · exact absurd (hfalse.symm.trans herr) Bool.false_ne_true

theorem issueWord_of_err {w : Word} (hclr : decode w ≠ .command .clr) :
    issueWord w s = .next { s with busy := false, done := true } := by
  cases hdecode : decode w with
  | command i =>
    have hissue : issueWord w s = exec i s := by rw [issueWord, hdecode]
    rw [hissue, exec_of_err herr fun hi => hclr (hi ▸ hdecode)]
  | illegal why => rw [issueWord_of_illegal hdecode, issueIllegal_of_err herr]

/-- Only CLR and reset leave the error state or change its code (R24, R235). -/
theorem hostStep_of_err {a : HostAccess} {t : State} (hreset : a ≠ .reset)
    (hclr : ∀ w, a = .regWrite 0 w → decode w ≠ .command .clr) (h : hostStep a s = .next t) :
    t.err = true ∧ t.errcode = s.errcode := by
  rcases hostStep_cases a s with ha | ⟨w, rfl⟩ | ⟨u, hu, htouches⟩
  · exact absurd ha hreset
  · have hwrite : hostCmdWrite w s = .next t := h
    rw [hostCmdWrite, issueWord_of_err herr (hclr w rfl)] at hwrite
    split at hwrite <;> cases hwrite <;> exact ⟨herr, rfl⟩
  · cases hu.symm.trans h
    exact ⟨htouches.err.trans herr, htouches.errcode⟩

end

/-! ### The statements -/

/-- Settles O7: the three causes are the tests of R91, and issuing a word that fails one of them is a raise. -/
theorem illegalWordRaisesIllegalCmd : Obligations.IllegalWordRaisesIllegalCmd := by
  intro w s herr hcause
  obtain ⟨why, hdecode⟩ := exists_decode_illegal (w := w) hcause
  rw [issueWord_of_illegal hdecode, issueIllegal_eq_raiseError herr, raiseError_of_err_false herr]

/-- Settles O8: each dash of the table of R231 is a phase where `legalIn` is false. -/
theorem wrongPhaseRaisesSequence : Obligations.WrongPhaseRaisesSequence := by
  intro s sym herr i hdash
  refine exec_of_legalIn_false herr ?_
  rcases hdash with ⟨hi, hphase⟩ | ⟨rfl, hphase⟩ | ⟨rfl, hphase⟩ | ⟨rfl, hcoded, hparsed⟩ | ⟨rfl, hphase⟩ |
    ⟨rfl, hphase⟩
  · rcases hi with rfl | rfl | rfl | rfl <;> exact beq_false_of_ne hphase
  · exact beq_false_of_ne hphase
  · exact beq_false_of_ne hphase
  · exact Bool.or_eq_false_iff.2 ⟨beq_false_of_ne hcoded, beq_false_of_ne hparsed⟩
  · exact beq_false_of_ne hphase
  · exact beq_false_of_ne hphase

/-- Settles O9: the error state completes every word but CLR without effect, and no other access reaches ERR or
ERRCODE. -/
theorem refusedWhileError : Obligations.RefusedWhileError := fun _ herr =>
  ⟨fun _ _ => issueWord_of_err herr, fun _ _ => hostStep_of_err herr⟩

end Sys2Proof.Machine
end

