-- ==== Sys2Proof/Proofs/CommandEncoding.lean ====
section
/-! PROOFS. Decoding and encoding command words are inverse (R90 to R93). -/

namespace Sys2Proof

/-- The fields of a command's word, for every command: `Laws.WordFields` says it of each. -/
theorem wordFields (i : Instr) : Laws.WordFields.Statement i := by
  cases i with
  | nop => exact Laws.WordFields.nop
  | clr => exact Laws.WordFields.clr
  | freq => exact Laws.WordFields.freq
  | tree => exact Laws.WordFields.tree
  | codes => exact Laws.WordFields.codes
  | lookup sym => exact Laws.WordFields.lookup sym
  | pack => exact Laws.WordFields.pack
  | enc => exact Laws.WordFields.enc
  | parse => exact Laws.WordFields.parse
  | unpack => exact Laws.WordFields.unpack
  | dec => exact Laws.WordFields.dec

/-- The opcode map inverts the fields of a command. -/
theorem commandOf_fields (i : Instr) : commandOf (opcodeOf i) (operandOf i) = some i := by cases i <;> rfl

/-- Only LOOKUP has an operand (R93). -/
theorem operandOf_eq_zero {i : Instr} (h : opcodeOf i ≠ 0x05) : operandOf i = 0 := by
  cases i with
  | lookup sym => exact absurd rfl h
  | _ => rfl

theorem decode_encode (i : Instr) : decode (encode i) = .command i := by
  obtain ⟨-, hopc, hsym, hres, -⟩ := wordFields i
  have hi : commandOf (opcOf (encode i)) (symOf (encode i)) = some i := by rw [hopc, hsym, commandOf_fields]
  rw [decode_of_commandOf hres hi, hopc, hsym]
  exact if_neg fun ⟨hlookup, hzero⟩ => hzero (operandOf_eq_zero hlookup)

/-- A word is its three fields side by side (R90). -/
theorem word_eq_fields (w : Word) : reservedOf w ++ symOf w ++ opcOf w = w := by
  rw [reservedOf, symOf, opcOf]
  refine BitVec.eq_of_getLsbD_eq fun k hk => ?_
  rw [BitVec.getLsbD_append, BitVec.getLsbD_append]
  simp only [BitVec.getLsbD_extractLsb']
  by_cases h8 : k < 8
  · simp [h8]
  · by_cases h16 : k - 8 < 8
    · simp [h8, h16, show 8 + (k - 8) = k by omega]
    · simp [h8, h16, show k - 8 - 8 < 16 by omega, show 16 + (k - 8 - 8) = k by omega]

/-- What passes the tests of R91 is the word of the command found. -/
theorem encode_of_decode {w : Word} {i : Instr} (h : decode w = .command i) : encode i = w := by
  have hres : reservedOf w = 0 := by
    by_contra hne
    cases (decode_of_reservedOf_ne hne).symm.trans h
  have hopc : (opcOf w).toNat ≤ 0x0A := by
    by_contra hgt
    cases (decode_of_opcOf_gt hres (not_le.1 hgt)).symm.trans h
  have hsym : opcOf w = 0x05 ∨ symOf w = 0 := by
    by_contra hne
    obtain ⟨hlookup, hzero⟩ := not_or.1 hne
    cases (decode_of_symOf_ne hres hopc hlookup hzero).symm.trans h
  obtain ⟨j, hj, hjopc, hjsym⟩ := exists_decode_command hres hopc hsym
  obtain rfl : j = i := by cases hj.symm.trans h; rfl
  calc encode j = reservedOf w ++ symOf w ++ opcOf w := by rw [encode, hjopc, hjsym, hres]
    _ = w := word_eq_fields w

theorem decode_eq_command_iff {w : Word} {i : Instr} : decode w = .command i ↔ encode i = w :=
  ⟨encode_of_decode, fun h => h ▸ decode_encode i⟩

theorem decode?_eq_some_iff {w : Word} {i : Instr} : decode? w = some i ↔ decode w = .command i := by
  rw [decode?]
  cases decode w <;> simp

/-- The opcode table numbers a word by its value (R95). -/
theorem decodeTableWord_toNat (w : Word) : decodeTableWord 32 w.toNat = decode? w := by
  have hlt := w.isLt
  rw [decodeTableWord, Nat.mod_eq_of_lt hlt, if_pos hlt, BitVec.ofNat_toNat, BitVec.setWidth_eq]

/-- Settles O1: encoding is a right inverse of decoding on commands, and a left inverse on the words that pass
the tests, because a word is its fields. -/
theorem decodeAndEncodeAgree : Obligations.DecodeAndEncodeAgree := by
  refine fun w i => ⟨?_, ?_⟩
  · rw [decode_eq_command_iff]
    exact (and_iff_right (wordFields i).1).symm
  · rw [decodeTableWord_toNat, decode?_eq_some_iff, decode_eq_command_iff]

/-- Settles O3: each word of the table is the word of its command. -/
theorem opcodeTableWordsDecode : Obligations.OpcodeTableWordsDecode :=
  ⟨decode_encode .nop, decode_encode .clr, decode_encode .freq, decode_encode .tree, decode_encode .codes,
    decode_encode (.lookup 0x61), decode_encode .pack, decode_encode .enc, decode_encode .parse,
    decode_encode .unpack, decode_encode .dec⟩

end Sys2Proof
end

