-- ==== Sys2Proof/Proofs/Pack.lean ====
section
/-! PROOFS. PACK (R181 to R186): the state after a stream that fits, and after one that does not. -/

namespace Sys2Proof.Machine

/-! ### A new output (R16, R42) -/

/-- In `t` the output is `out`, written over what OBUF held in `s`. -/
structure WritesOutput (s : State) (out : Bytes) (t : State) : Prop where
  fits : out.length ≤ s.params.outMax.toNat
  obuf : t.obuf = Store.writeFrom s.obuf 0 out
  outLen : t.outLen = BitVec.ofNat 32 out.length
  epoch : t.epoch = s.epoch

section
variable {s t : State} {out : Bytes}

theorem WritesOutput.outLen_toNat (h : WritesOutput s out t) : t.outLen.toNat = out.length := by
  have hle := h.fits
  have hlt := s.params.outMax.isLt
  rw [h.outLen]
  exact (BitVec.toNat_ofNat ..).trans (Nat.mod_eq_of_lt (by omega))

theorem WritesOutput.output (h : WritesOutput s out t) : t.output = out := by
  have hbyte : t.obufByte = fun a => (Store.read (Store.writeFrom s.obuf 0 out) a).getD
      (Config.obufAtReset t.epoch a) := by
    funext a
    rw [State.obufByte, h.obuf]
  rw [State.output, h.outLen_toNat, hbyte]
  exact Store.map_read_writeFrom ..

/-- The bytes beyond the output are not written (R42). -/
theorem WritesOutput.obufByte_of_le (h : WritesOutput s out t) {a : Nat} (ha : out.length ≤ a) :
    t.obufByte a = s.obufByte a := by
  have hread : Store.read (Store.writeFrom s.obuf 0 out) a = Store.read s.obuf a :=
    (Store.read_writeFrom ..).trans (dif_neg (by omega))
  rw [State.obufByte, State.obufByte, h.obuf, h.epoch, hread]

end

/-! ### How many bytes the packer emits (R184) -/

theorem gather_fst_length (acc bs : Bits) (h : acc.length < 8) :
    (gather acc bs).1.length = (acc.length + bs.length) / 8 := by
  induction bs generalizing acc with
  | nil =>
    rw [gather, List.length_nil, List.length_nil]
    omega
  | cons b bs ih =>
    simp only [gather]
    split
    · next hfull =>
      rw [List.length_append, List.length_singleton] at hfull
      rw [List.length_cons, ih [] (by decide), List.length_nil, List.length_cons]
      omega
    · next hpart =>
      rw [List.length_append, List.length_singleton] at hpart
      rw [ih (acc ++ [b]) (by rw [List.length_append, List.length_singleton]; omega), List.length_append,
        List.length_singleton, List.length_cons]
      congr 1
      omega

theorem gather_nil_fst_length (bs : Bits) : (gather [] bs).1.length = bs.length / 8 := by
  rw [gather_fst_length [] bs (by decide), List.length_nil, Nat.zero_add]

theorem encodedPayload_length (t : List CtabEntry) (x : Bytes) :
    (encodedPayload t x).length = ((encodedBits t x).length + 7) / 8 := by
  rw [encodedPayload, packBits_length, List.length_append, zeroBits, List.length_replicate, padCount]
  omega

theorem encodedStream_length (t : List CtabEntry) (x : Bytes) :
    (encodedStream t x).length = (header t).length + ((encodedBits t x).length + 7) / 8 := by
  rw [encodedStream, List.length_append, encodedPayload_length]

/-- What PACK emits after the whole bytes: the rest of the bits, padded, if there is a rest (R184). -/
def lastByte (bs : Bits) : Bytes :=
  if (gather [] bs).2.length = 0 then []
  else [byteOfBits ((gather [] bs).2 ++ zeroBits (padCount bs.length))]

theorem encodedPayload_eq_gather (t : List CtabEntry) (x : Bytes) :
    encodedPayload t x = (gather [] (encodedBits t x)).1 ++ lastByte (encodedBits t x) := by
  have hpack := gather_packBits [] (encodedBits t x) (by decide)
  simp only [List.length_nil, Nat.zero_add, List.nil_append] at hpack
  exact hpack.symm

/-! ### Encoding in two parts (R181) -/

theorem encodedBits_append (t : List CtabEntry) (x y : Bytes) :
    encodedBits t (x ++ y) = encodedBits t x ++ encodedBits t y := List.flatMap_append ..

theorem pushSymbols_append (t : List CtabEntry) (x y : Bytes) (p : Packer) (s : State) :
    pushSymbols t (x ++ y) p s = (pushSymbols t x p s).bind fun q u => pushSymbols t y q u := by
  induction x generalizing p s with
  | nil => rfl
  | cons b x ih =>
    simp only [List.cons_append, pushSymbols]
    cases findCode t b with
    | none => exact ih p { s with nf := true }
    | some c =>
      dsimp only
      rw [Run.bind_assoc]
      exact congrArg _ (funext fun q => funext fun u => ih q u)

/-- The first byte of a text whose code does not fit any more, with the bytes before it (R186). -/
theorem exists_overflowing_byte {t : List CtabEntry} {x : Bytes} {n : Nat}
    (h : n < (encodedBits t x).length / 8) :
    ∃ (k : Nat) (b : Byte) (c : Bits) (y : Bytes), x = x.take k ++ b :: y ∧ findCode t b = some c ∧
      k < x.length ∧ (encodedBits t (x.take k)).length / 8 ≤ n ∧
      encodedBits t (x.take (k + 1)) = encodedBits t (x.take k) ++ c ∧
      n < (encodedBits t (x.take (k + 1))).length / 8 := by
  have hex : ∃ k, n < (encodedBits t (x.take k)).length / 8 := ⟨x.length, by rwa [List.take_length]⟩
  have hover := Nat.find_spec hex
  obtain ⟨k, hk⟩ : ∃ k, Nat.find hex = k + 1 := by
    refine Nat.exists_eq_succ_of_ne_zero fun hzero => ?_
    rw [hzero] at hover
    simp [encodedBits] at hover
  have hfits := not_lt.1 (Nat.find_min hex (m := k) (by omega))
  rw [hk] at hover
  have hlt : k < x.length := by
    by_contra hge
    rw [List.take_of_length_le (by omega), ← List.take_of_length_le (not_lt.1 hge)] at hover
    omega
  have hbits : encodedBits t (x.take (k + 1)) = encodedBits t (x.take k) ++ (findCode t x[k]).getD [] := by
    rw [List.take_succ_eq_append_getElem hlt, encodedBits_append]
    simp [encodedBits]
  cases hc : findCode t x[k] with
  | none =>
    rw [hc, Option.getD_none, List.append_nil] at hbits
    rw [hbits] at hover
    omega
  | some c =>
    rw [hc, Option.getD_some] at hbits
    exact ⟨k, x[k], c, x.drop (k + 1), by rw [List.cons_getElem_drop_succ, List.take_append_drop], hc, hlt, hfits,
      hbits, hover⟩

/-- Gathering up to the byte that overflows, and the part of its code that still fits. -/
theorem take_gather_of_overflow {as c : Bits} {n : Nat} (ds : Bits) (hfits : as.length / 8 ≤ n)
    (hover : n < (as ++ c).length / 8) :
    n - (gather [] as).1.length < (gather (gather [] as).2 c).1.length ∧
    (gather [] (as ++ (c ++ ds))).1.take n =
      (gather [] as).1 ++ (gather (gather [] as).2 c).1.take (n - (gather [] as).1.length) := by
  have has := gather_nil_fst_length as
  have hall := gather_nil_fst_length (as ++ c)
  rw [gather_append, List.length_append] at hall
  have hlt : n - (gather [] as).1.length < (gather (gather [] as).2 c).1.length := by omega
  refine ⟨hlt, ?_⟩
  rw [gather_append, gather_append, List.take_append, List.take_of_length_le (has.trans_le hfits),
    List.take_append_of_le_length (Nat.le_of_lt hlt)]

/-- `s` with NF set where the text packed so far has a byte with no code. -/
def State.orNf (s : State) (unknown : Bool) : State := { s with nf := s.nf || unknown }

@[simp] theorem State.orNf_room (s : State) (b : Bool) : (s.orNf b).room = s.room := rfl
@[simp] theorem State.orNf_outLen (s : State) (b : Bool) : (s.orNf b).outLen = s.outLen := rfl
@[simp] theorem State.orNf_params (s : State) (b : Bool) : (s.orNf b).params = s.params := rfl

theorem State.appendOut_outLen_le {s : State} {bs : Bytes} (hle : s.outLen.toNat ≤ s.params.outMax.toNat)
    (h : bs.length ≤ s.room) : (s.appendOut bs).outLen.toNat ≤ (s.appendOut bs).params.outMax.toNat := by
  rw [appendOut_outLen hle h]
  show _ ≤ s.params.outMax.toNat
  rw [room] at h
  omega

/-- A text whose whole bytes fit (`pushSymbols_fits`), from an empty accumulator. -/
theorem pushSymbols_of_fits {t : List CtabEntry} {x : Bytes} {s : State}
    (hle : s.outLen.toNat ≤ s.params.outMax.toNat) (h : (encodedBits t x).length / 8 ≤ s.room) :
    pushSymbols t x { acc := [], nbits := 0 } s =
      .ok { acc := (gather [] (encodedBits t x)).2, nbits := 0 + (encodedBits t x).length }
        ((s.orNf (hasUnknown t x)).appendOut (gather [] (encodedBits t x)).1) :=
  pushSymbols_fits t x _ s hle ((gather_nil_fst_length _).trans_le h)

theorem pushSymbols_cons_overflows {t : List CtabEntry} {b : Byte} {c : Bits} (y : Bytes) {p : Packer} {s : State}
    (hle : s.outLen.toNat ≤ s.params.outMax.toNat) (hc : findCode t b = some c)
    (h : s.room < (gather p.acc c).1.length) : pushSymbols t (b :: y) p s =
      .raised .capacity (s.appendOut ((gather p.acc c).1.take s.room)) := by
  simp only [pushSymbols, hc, pushBits_eq, emitAll_overflows hle h, Run.bind_raised]

/-- A text whose whole bytes do not fit: CAPACITY with as many of them as there is room for, and NF told by the
bytes before the first whose code does not fit (R186). -/
theorem pushSymbols_overflows_at {t : List CtabEntry} {x : Bytes} {s : State}
    (hle : s.outLen.toNat ≤ s.params.outMax.toNat) (h : s.room < (encodedBits t x).length / 8) :
    ∃ k, k < x.length ∧ pushSymbols t x { acc := [], nbits := 0 } s = .raised .capacity
        ((s.orNf (hasUnknown t (x.take k))).appendOut ((gather [] (encodedBits t x)).1.take s.room)) ∧
      (encodedBits t (x.take k)).length / 8 ≤ s.room ∧
      s.room < (encodedBits t (x.take (k + 1))).length / 8 := by
  obtain ⟨k, b, c, y, hx, hc, hlt, hfits, hbits, hover⟩ := exists_overflowing_byte h
  refine ⟨k, hlt, ?_, hfits, hover⟩
  obtain ⟨hcode, htake⟩ := take_gather_of_overflow (encodedBits t y) hfits (hbits ▸ hover)
  have hsplit : encodedBits t x = encodedBits t (x.take k) ++ (c ++ encodedBits t y) := by
    conv_lhs => rw [hx, encodedBits_append]
    simp [encodedBits, hc]
  have hg : (gather [] (encodedBits t (x.take k))).1.length ≤ (s.orNf (hasUnknown t (x.take k))).room :=
    (gather_nil_fst_length _).trans_le hfits
  have hle' : (s.orNf (hasUnknown t (x.take k))).outLen.toNat ≤
      (s.orNf (hasUnknown t (x.take k))).params.outMax.toNat := hle
  have hroom := State.room_appendOut hle' hg
  conv_lhs => rw [hx]
  rw [pushSymbols_append, pushSymbols_of_fits hle hfits, Run.bind_ok,
    pushSymbols_cons_overflows y (State.appendOut_outLen_le hle' hg) hc (hroom ▸ hcode), hroom,
    State.appendOut_append hle' hg, hsplit, htake]
  rfl

/-! ### The pseudocode of PACK (R181, R186) -/

section
variable {s : State}

/-- `s` with PACK's first writes made, the header's length noted and NF told of the text so far: what the
output of PACK goes into once the header is out. -/
def State.packing (s : State) (unknown : Bool) : State :=
  { beginPack s with hdrLen := BitVec.ofNat 32 (header s.ctabValid).length, nf := s.nf || unknown }

theorem State.packing_outLen_le (s : State) (unknown : Bool) :
    (s.packing unknown).outLen.toNat ≤ (s.packing unknown).params.outMax.toNat := Nat.zero_le _

theorem State.packing_room (s : State) (unknown : Bool) : (s.packing unknown).room = s.params.outMax.toNat := rfl

theorem packBody_of_inputFits (hfits : s.inputFits) : packBody s =
    (emitAll (header s.ctabValid) (beginPack s)).bind fun _ s1 =>
      (pushSymbols s.ctabValid s.input { acc := [], nbits := 0 } { s1 with hdrLen := s1.outLen }).bind
        fun p s2 => (flushBits p s2).bind fun _ s3 => .ok () (setPackCounts p.nbits s3) :=
  if_neg (Bool.eq_false_iff.1 hfits.inputTooLong_eq)

/-- A header that fits is out, and its length noted, when the first byte is packed. -/
theorem packBody_of_header_fits (hfits : s.inputFits)
    (h : (header s.ctabValid).length ≤ s.params.outMax.toNat) : packBody s =
      (pushSymbols s.ctabValid s.input { acc := [], nbits := 0 }
        ((s.packing false).appendOut (header s.ctabValid))).bind
          fun p s2 => (flushBits p s2).bind fun _ s3 => .ok () (setPackCounts p.nbits s3) := by
  have hnf : (s.packing false).nf = s.nf := Bool.or_false _
  have hout : (beginPack s).outLen + BitVec.ofNat 32 (header s.ctabValid).length =
      BitVec.ofNat 32 (header s.ctabValid).length := BitVec.zero_add _
  have hstate : ({ (beginPack s).appendOut (header s.ctabValid) with
      hdrLen := ((beginPack s).appendOut (header s.ctabValid)).outLen } : State) =
      (s.packing false).appendOut (header s.ctabValid) := by
    simp only [State.appendOut, State.packing, hout, Bool.or_false]
    rfl
  rw [packBody_of_inputFits hfits, emitAll_fits (Nat.zero_le _) h, Run.bind_ok, hstate]

/-- A header that does not fit fills OBUF (R186). -/
theorem packBody_of_header_overflows (hfits : s.inputFits)
    (h : s.params.outMax.toNat < (header s.ctabValid).length) : packBody s =
      .raised .capacity ((beginPack s).appendOut ((header s.ctabValid).take s.params.outMax.toNat)) := by
  have hroom : (beginPack s).room < (header s.ctabValid).length := h
  rw [packBody_of_inputFits hfits, emitAll_overflows (Nat.zero_le _) hroom, Run.bind_raised]
  rfl

/-- Output after the header is output of the stream. -/
theorem State.packing_appendOut_header {unknown : Bool} (h : (header s.ctabValid).length ≤ s.params.outMax.toNat)
    (bs : Bytes) : (((s.packing false).appendOut (header s.ctabValid)).orNf unknown).appendOut bs =
      (s.packing unknown).appendOut (header s.ctabValid ++ bs) := by
  rw [← State.appendOut_append (s.packing_outLen_le unknown) h]
  simp only [State.appendOut, State.packing, State.orNf, Bool.or_false]

/-- The room left after the header. -/
theorem State.room_after_header (h : (header s.ctabValid).length ≤ s.params.outMax.toNat) :
    ((s.packing false).appendOut (header s.ctabValid)).room =
      s.params.outMax.toNat - (header s.ctabValid).length :=
  State.room_appendOut (s.packing_outLen_le false) h

/-- PACK of a stream whose whole bytes fit has only the last byte still to emit. -/
theorem packBody_of_bytes_fit (hfits : s.inputFits)
    (h : (header s.ctabValid).length + (encodedBits s.ctabValid s.input).length / 8 ≤ s.params.outMax.toNat) :
    packBody s =
      (emitAll (lastByte (encodedBits s.ctabValid s.input))
        ((s.packing (hasUnknown s.ctabValid s.input)).appendOut
          (header s.ctabValid ++ (gather [] (encodedBits s.ctabValid s.input)).1))).bind
        fun _ u => .ok () (setPackCounts (encodedBits s.ctabValid s.input).length u) := by
  have hheader : (header s.ctabValid).length ≤ s.params.outMax.toNat := by omega
  have hroom := State.room_after_header hheader
  rw [packBody_of_header_fits hfits hheader, pushSymbols_of_fits
    (State.appendOut_outLen_le (s.packing_outLen_le false) hheader) (by omega), Run.bind_ok,
    flushBits_eq_emitAll, State.packing_appendOut_header hheader]
  simp only [Nat.zero_add]
  rfl

/-- The stream: header, whole bytes, last byte. -/
theorem encodedStream_eq_gather (t : List CtabEntry) (x : Bytes) : encodedStream t x =
    (header t ++ (gather [] (encodedBits t x)).1) ++ lastByte (encodedBits t x) := by
  rw [encodedStream, encodedPayload_eq_gather, List.append_assoc]

theorem header_gather_length (t : List CtabEntry) (x : Bytes) :
    (header t ++ (gather [] (encodedBits t x)).1).length = (header t).length + (encodedBits t x).length / 8 := by
  rw [List.length_append, gather_nil_fst_length]

/-- PACK of a stream that fits (R181). -/
theorem packBody_of_stream_fits (hfits : s.inputFits)
    (h : (encodedStream s.ctabValid s.input).length ≤ s.params.outMax.toNat) : packBody s =
      .ok () (setPackCounts (encodedBits s.ctabValid s.input).length
        ((s.packing (hasUnknown s.ctabValid s.input)).appendOut (encodedStream s.ctabValid s.input))) := by
  rw [encodedStream_eq_gather] at h ⊢
  have hlen := header_gather_length s.ctabValid s.input
  rw [List.length_append] at h
  have hbytes : (header s.ctabValid ++ (gather [] (encodedBits s.ctabValid s.input)).1).length ≤
      (s.packing (hasUnknown s.ctabValid s.input)).room := by rw [State.packing_room]; omega
  have hle := s.packing_outLen_le (hasUnknown s.ctabValid s.input)
  have hroom := State.room_appendOut hle hbytes
  rw [State.packing_room] at hroom
  rw [packBody_of_bytes_fit hfits (by omega), emitAll_fits (State.appendOut_outLen_le hle hbytes) (by omega),
    Run.bind_ok, State.appendOut_append hle hbytes]

/-- PACK of a stream of which only the last byte does not fit (R186). -/
theorem packBody_of_lastByte_overflows (hfits : s.inputFits)
    (hbytes : (header s.ctabValid).length + (encodedBits s.ctabValid s.input).length / 8 ≤ s.params.outMax.toNat)
    (h : s.params.outMax.toNat < (encodedStream s.ctabValid s.input).length) :
    packBody s = .raised .capacity ((s.packing (hasUnknown s.ctabValid s.input)).appendOut
      ((encodedStream s.ctabValid s.input).take s.params.outMax.toNat)) := by
  have hle := s.packing_outLen_le (hasUnknown s.ctabValid s.input)
  have hlen := header_gather_length s.ctabValid s.input
  have hwhole := hlen.trans_le hbytes
  have hroom := State.room_appendOut hle hwhole
  rw [State.packing_room] at hroom
  rw [encodedStream_eq_gather] at h ⊢
  rw [List.length_append] at h
  rw [packBody_of_bytes_fit hfits hbytes,
    emitAll_overflows (State.appendOut_outLen_le hle hwhole) (by rw [hroom]; omega), Run.bind_raised,
    State.appendOut_append hle hwhole, hroom, List.take_append,
    List.take_of_length_le (i := s.params.outMax.toNat) hwhole]

/-- PACK of a stream that does not fit, though its header does (R186). -/
theorem packBody_of_payload_overflows (hfits : s.inputFits)
    (hheader : (header s.ctabValid).length ≤ s.params.outMax.toNat)
    (h : s.params.outMax.toNat < (encodedStream s.ctabValid s.input).length) :
    ∃ k, k ≤ s.input.length ∧ packBody s = .raised .capacity
        ((s.packing (hasUnknown s.ctabValid (s.input.take k))).appendOut
          ((encodedStream s.ctabValid s.input).take s.params.outMax.toNat)) ∧
      (header s.ctabValid).length + (encodedBits s.ctabValid (s.input.take k)).length / 8
        ≤ s.params.outMax.toNat ∧
      (k < s.input.length → s.params.outMax.toNat <
        (header s.ctabValid).length + (encodedBits s.ctabValid (s.input.take (k + 1))).length / 8) := by
  by_cases hbytes :
      (header s.ctabValid).length + (encodedBits s.ctabValid s.input).length / 8 ≤ s.params.outMax.toNat
  · refine ⟨s.input.length, le_rfl, ?_, by rwa [List.take_length], fun hlt => absurd hlt (lt_irrefl _)⟩
    rw [List.take_length, packBody_of_lastByte_overflows hfits hbytes h]
  · have hroom := State.room_after_header hheader
    have hlen := header_gather_length s.ctabValid s.input
    obtain ⟨k, hk, hpush, hbefore, hafter⟩ := pushSymbols_overflows_at (t := s.ctabValid) (x := s.input)
      (State.appendOut_outLen_le (s.packing_outLen_le false) hheader) (by rw [hroom]; omega)
    rw [hroom] at hpush hbefore hafter
    refine ⟨k, Nat.le_of_lt hk, ?_, by omega, fun _ => by omega⟩
    rw [packBody_of_header_fits hfits hheader, hpush, Run.bind_raised, State.packing_appendOut_header hheader,
      encodedStream_eq_gather, List.take_append_of_le_length (by omega), List.take_append,
      List.take_of_length_le hheader]

end

/-! ### The command (R181, R186) -/

section
variable {s : State}

theorem exec_pack_of_ready (h : s.ready .coded) :
    exec .pack s = .next (endCommand (packBody (beginCommand s))) := by
  have hlegal : legalIn .pack s.phase = true := by rw [h.2]; rfl
  exact congrArg Host.Outcome.next (issueChecked_run h.1 hlegal)

/-- `s` after PACK of a stream that fits. -/
def State.afterPack (s : State) : State :=
  { s with
    busy := false, done := true, obuf := Store.writeFrom s.obuf 0 (encodedStream s.ctabValid s.input),
    outLen := BitVec.ofNat 32 (encodedStream s.ctabValid s.input).length,
    hdrLen := BitVec.ofNat 32 (header s.ctabValid).length,
    bitLen := BitVec.ofNat 32 (encodedBits s.ctabValid s.input).length,
    padBits := BitVec.ofNat 32 (padCount (encodedBits s.ctabValid s.input).length),
    pad := padCount (encodedBits s.ctabValid s.input).length != 0,
    nf := s.nf || hasUnknown s.ctabValid s.input }

/-- `s` after PACK of a stream that does not fit. -/
def State.afterPackOverflow (s : State) (nf : Bool) : State :=
  { s with
    busy := false, done := true, err := true, errcode := .capacity,
    obuf := Store.writeFrom s.obuf 0 ((encodedStream s.ctabValid s.input).take s.params.outMax.toNat),
    outLen := s.params.outMax,
    hdrLen := if (header s.ctabValid).length ≤ s.params.outMax.toNat
      then BitVec.ofNat 32 (header s.ctabValid).length else 0,
    bitLen := 0, padBits := 0, pad := false, nf := nf }

/-- What NF tells after a stream that does not fit: the bytes processed so far (R186). -/
structure OverflowNf (s : State) (nf : Bool) : Prop where
  inHeader : s.params.outMax.toNat < (header s.ctabValid).length → nf = s.nf
  inPayload : (header s.ctabValid).length ≤ s.params.outMax.toNat →
    ∃ k, k ≤ s.input.length ∧ nf = (s.nf || hasUnknown s.ctabValid (s.input.take k)) ∧
      (header s.ctabValid).length + (encodedBits s.ctabValid (s.input.take k)).length / 8
        ≤ s.params.outMax.toNat ∧
      (k < s.input.length → s.params.outMax.toNat <
        (header s.ctabValid).length + (encodedBits s.ctabValid (s.input.take (k + 1))).length / 8)

theorem exec_pack_of_stream_fits (hready : s.ready .coded) (hfits : s.inputFits)
    (h : (encodedStream s.ctabValid s.input).length ≤ s.params.outMax.toNat) :
    exec .pack s = .next s.afterPack := by
  have hbody := packBody_of_stream_fits (s := beginCommand s) hfits h
  have hout : (0 : Word) + BitVec.ofNat 32 (encodedStream s.ctabValid s.input).length =
      BitVec.ofNat 32 (encodedStream s.ctabValid s.input).length := BitVec.zero_add _
  rw [exec_pack_of_ready hready, hbody, endCommand_ok, State.afterPack, ← hout]
  rfl

/-- OUT_LEN of a full OBUF. -/
theorem State.outMax_eq_take_length {out : Bytes} (h : s.params.outMax.toNat ≤ out.length) :
    (0 : Word) + BitVec.ofNat 32 (out.take s.params.outMax.toNat).length = s.params.outMax := by
  rw [List.length_take_of_le h, BitVec.ofNat_toNat, BitVec.setWidth_eq]
  exact BitVec.zero_add _

theorem exec_pack_of_stream_overflows (hready : s.ready .coded) (hfits : s.inputFits)
    (h : s.params.outMax.toNat < (encodedStream s.ctabValid s.input).length) :
    ∃ nf, exec .pack s = .next (s.afterPackOverflow nf) ∧ OverflowNf s nf := by
  have hout := s.outMax_eq_take_length (Nat.le_of_lt h)
  by_cases hheader : (header s.ctabValid).length ≤ s.params.outMax.toNat
  · obtain ⟨k, hk, hbody, hbefore, hafter⟩ :=
      packBody_of_payload_overflows (s := beginCommand s) hfits hheader h
    refine ⟨s.nf || hasUnknown s.ctabValid (s.input.take k), ?_, fun hlt => absurd hheader (not_le.2 hlt),
      fun _ => ⟨k, hk, rfl, hbefore, hafter⟩⟩
    rw [exec_pack_of_ready hready, hbody, endCommand_raised, State.afterPackOverflow, if_pos hheader]
    refine (congrArg Host.Outcome.next (raiseError_of_err_false (by exact hready.1) _)).trans ?_
    exact congrArg (fun n => Host.Outcome.next { s.afterPackOverflow _ with
      hdrLen := BitVec.ofNat 32 (header s.ctabValid).length, outLen := n }) hout
  · have hlt := not_le.1 hheader
    have hbody := packBody_of_header_overflows (s := beginCommand s) hfits hlt
    have htake : (encodedStream s.ctabValid s.input).take s.params.outMax.toNat =
        (header s.ctabValid).take s.params.outMax.toNat := List.take_append_of_le_length (Nat.le_of_lt hlt)
    refine ⟨s.nf, ?_, fun _ => rfl, fun hle => absurd hle hheader⟩
    rw [exec_pack_of_ready hready, hbody, endCommand_raised, State.afterPackOverflow, if_neg hheader]
    rw [htake] at hout ⊢
    refine (congrArg Host.Outcome.next (raiseError_of_err_false (by exact hready.1) _)).trans ?_
    exact congrArg (fun n => Host.Outcome.next { s.afterPackOverflow s.nf with
      hdrLen := 0, obuf := Store.writeFrom s.obuf 0 ((header s.ctabValid).take s.params.outMax.toNat),
      outLen := n }) hout

theorem writesOutput_afterPack (h : (encodedStream s.ctabValid s.input).length ≤ s.params.outMax.toNat) :
    WritesOutput s (encodedStream s.ctabValid s.input) s.afterPack := ⟨h, rfl, rfl, rfl⟩

theorem writesOutput_afterPackOverflow {nf : Bool}
    (h : s.params.outMax.toNat ≤ (encodedStream s.ctabValid s.input).length) :
    WritesOutput s ((encodedStream s.ctabValid s.input).take s.params.outMax.toNat) (s.afterPackOverflow nf) :=
  ⟨List.length_take_le _ _, rfl, ((BitVec.zero_add _).symm.trans (s.outMax_eq_take_length h)).symm, rfl⟩

end

/-! ### Code bits of a text (R30, R184) -/

theorem encodedBits_length_le {t : List CtabEntry} (h : CodesBounded t) (x : Bytes) :
    (encodedBits t x).length ≤ 255 * x.length := by
  induction x with
  | nil => exact Nat.zero_le _
  | cons b x ih =>
    have hcode : ((findCode t b).getD []).length ≤ 255 := by
      cases hc : findCode t b with
      | none => exact Nat.zero_le _
      | some c => exact (h _ (findCode_mem hc)).2
    rw [encodedBits, List.flatMap_cons, List.length_append, List.length_cons]
    change _ + (encodedBits t x).length ≤ _
    omega

/-- BITLEN does not wrap: an input has at most 2^24 bytes. -/
theorem State.inputFits.encodedBits_length_lt {s : State} (h : s.inputFits) {t : List CtabEntry}
    (ht : CodesBounded t) : (encodedBits t s.input).length < 2 ^ 32 := by
  have hbits := encodedBits_length_le ht s.input
  have hlen := h.input_length_le
  omega

/-! ### The statements -/

/-- Settles O38: the stream is emitted as header, whole bytes and last byte, all appended from index 0. -/
theorem packWritesTheStream : Obligations.PackWritesTheStream := by
  intro s hready hfits hroom
  have hwrites := writesOutput_afterPack hroom
  refine ⟨s.afterPack, exec_pack_of_stream_fits hready hfits hroom, rfl, hwrites.output, ?_, fun hcodes => ?_,
    fun a ha => hwrites.obufByte_of_le (hwrites.outLen_toNat ▸ ha)⟩
  · rw [hwrites.outLen_toNat, encodedStream_length]
  · exact (BitVec.toNat_ofNat ..).trans (Nat.mod_eq_of_lt (hfits.encodedBits_length_lt hcodes))

/-- Settles O39: the first emission that does not fit is in the header, in the code of byte `k`, or is the last
byte; what fits of it fills OBUF. -/
theorem packOverflowKeepsTheFirstBytes : Obligations.PackOverflowKeepsTheFirstBytes := by
  intro s hready hfits hover
  obtain ⟨nf, hexec, hheader, hpayload⟩ := exec_pack_of_stream_overflows hready hfits hover
  have hwrites := writesOutput_afterPackOverflow (nf := nf) (Nat.le_of_lt hover)
  exact ⟨s.afterPackOverflow nf, hexec, rfl, hwrites.output,
    fun a ha => hwrites.obufByte_of_le ((List.length_take_le _ _).trans ha), hheader, hpayload⟩

end Sys2Proof.Machine
end

