-- ==== Sys2Proof/Proofs/TreeInvariants.lean ====
section
/-! PROOFS. TREE builds a tree of the frequency table (R37, R157), whatever the table it completes with the
counts of R157, and every merge takes the two lowest of the working list (R153, R155). -/

namespace Sys2Proof.Machine

/-! ### The counts (R157), whatever the table holds -/

section
variable {f : List FtabEntry}

theorem zipIdx_eq_singleton {nodes : List NodeEntry} {x : WorkItem} (h : nodes.zipIdx = [x]) :
    x.2 + 1 = nodes.length := by
  obtain ⟨e, rfl⟩ : ∃ e, nodes = [e] := List.length_eq_one_iff.1 (by simpa using congrArg List.length h)
  cases h
  rfl

/-- With a symbol or more, WL ends as one item, the newest node, which is ROOT. -/
theorem buildTree_counts (hne : f ≠ []) : (buildTree f).1.length + 1 = 2 * f.length ∧
    (buildTree f).2 = BitVec.ofNat 9 ((buildTree f).1.length - 1) := by
  obtain ⟨hsum, hle, hnonempty, hlast⟩ := mergeLoop_counts (f.map leafOf).length (f.map leafOf)
    (f.map leafOf).zipIdx (by simp) fun _ => zipIdx_eq_singleton
  have hwl := hnonempty (by simpa using hne)
  obtain ⟨x, hx⟩ := List.length_eq_one_iff.1 (Nat.le_antisymm hle (List.length_pos_iff.2 hwl))
  have hroot : (buildTree f).2 = BitVec.ofNat 9 x.2 := by simp only [buildTree, hx]
  rw [hx] at hsum
  refine ⟨by simpa [buildTree, Nat.two_mul] using hsum, ?_⟩
  rw [hroot, buildTree, ← hlast x hx]
  rfl

theorem buildTree_length_le (hlen : f.length ≤ 256) : (buildTree f).1.length ≤ 511 := by
  by_cases hne : f = []
  · rw [hne, buildTree_nil]
    exact Nat.zero_le _
  · have hcount := (buildTree_counts hne).1
    omega

theorem buildTree_root_toNat (hne : f ≠ []) (hlen : f.length ≤ 256) :
    (buildTree f).2.toNat = (buildTree f).1.length - 1 := by
  have hle := buildTree_length_le hlen
  rw [(buildTree_counts hne).2]
  exact (BitVec.toNat_ofNat ..).trans (Nat.mod_eq_of_lt (by omega))

/-! ### The tree (R37) -/

/-- The tree of an empty table (R160). -/
theorem treeOk_nil : TreeOk [] [] Config.none9 where
  noSymbol _ := ⟨rfl, rfl⟩
  count h := absurd rfl h
  rootIndex h := absurd rfl h
  leaves := rfl
  parents _ _ _ h := nomatch h
  ownership := .nil
  keys _ h := nomatch h
  keyLengths _ h := nomatch h
  total _ h := nomatch h

/-- At the end of the merges WL holds one node, the newest, and every other node is the child of one. -/
theorem FtabOk.exists_last (hf : FtabOk f) (hne : f ≠ []) : ∃ x : WorkItem,
    MergeInv f (buildTree f).1 [x] ∧ x.2 = (buildTree f).1.length - 1 := by
  obtain ⟨wl, hinv, hwl, hroot⟩ := hf.buildTree_inv
  obtain ⟨x, rfl⟩ := List.length_eq_one_iff.1 (Nat.le_antisymm hwl (List.length_pos_iff.2 (hinv.nonempty hne)))
  have hlt := (List.getElem?_eq_some_iff.1 (hinv.named x List.mem_cons_self)).1
  have hle := Machine.buildTree_length_le hf.length_le
  have hidx := congrArg BitVec.toNat hroot
  rw [buildTree_root_toNat hne hf.length_le] at hidx
  simp only [BitVec.toNat_ofNat, Nat.mod_eq_of_lt (show x.2 < 2 ^ 9 by omega)] at hidx
  exact ⟨x, hinv, hidx.symm⟩

theorem FtabOk.treeOk (hf : FtabOk f) : TreeOk f (buildTree f).1 (buildTree f).2 := by
  by_cases hne : f = []
  · rw [hne]
    exact treeOk_nil
  · obtain ⟨x, hinv, hx⟩ := hf.exists_last hne
    have hcount := (buildTree_counts hne).1
    have hroot := buildTree_root_toNat hne hf.length_le
    refine ⟨fun h => absurd h hne, fun _ => by omega, fun _ => hroot, hinv.leaves, hinv.parents, ?_, hinv.keys,
      buildTree_keyLengths hf.length_le, fun e he => ?_⟩
    · have howned := hinv.owned
      obtain ⟨m, hm⟩ : ∃ m, (buildTree f).1.length = m + 1 :=
        Nat.exists_eq_add_one.2 (Nat.zero_lt_of_lt (List.getElem?_eq_some_iff.1
          (hinv.named x List.mem_cons_self)).1)
      rw [List.map_singleton, hx, hm, List.range_succ] at howned
      rw [hm]
      exact (List.perm_append_right_iff _).1 howned
    · have htotal := hinv.total
      have hxe := hinv.named x List.mem_cons_self
      rw [hx, ← hroot, he] at hxe
      obtain rfl : e = x.1 := Option.some.inj hxe
      simpa using htotal

end

/-- Settles O26: the merge invariant, when one node is left in WL, is the tree. -/
theorem treeIsBuilt : Obligations.TreeIsBuilt := by
  intro s hready hlen hf
  refine ⟨s.afterTree, exec_tree_of_ready hready, rfl, ?_, fun i hi => ?_⟩
  · rw [State.afterTree_nodeValid hf]
    exact hf.treeOk
  · exact State.afterTree_nodeSlot_of_le (State.afterTree_nnode_toNat hf ▸ hi)

/-! ### Which nodes are merged (R153, R155) -/

section
variable {n : Nat} {nodes : List NodeEntry} {wl : List WorkItem}

/-- The nodes made later do not matter. -/
theorem inWorkingList_append_iff {p q : Nat} (ys : List NodeEntry) (hp : p ≤ nodes.length) :
    InWorkingList n (nodes ++ ys) p q ↔ InWorkingList n nodes p q := by
  refine and_congr_right fun _ => forall_congr' fun p' => forall_congr' fun e' => ?_
  refine forall_congr' fun _ => forall_congr' fun hlt => ?_
  rw [List.getElem?_append_left (hlt.trans_le hp)]

/-- One node more: it is in WL, and of the others those that it does not take as children. -/
theorem inWorkingList_succ_iff {q : Nat} {e : NodeEntry} (hn : n ≤ nodes.length)
    (hchildren : ∀ p e', n ≤ p → nodes[p]? = some e' → e'.left.toNat < p ∧ e'.right.toNat < p)
    (he : e.left.toNat < nodes.length ∧ e.right.toNat < nodes.length) :
    InWorkingList n (nodes ++ [e]) (nodes.length + 1) q ↔
      q = nodes.length ∨ (InWorkingList n nodes nodes.length q ∧ e.left.toNat ≠ q ∧ e.right.toNat ≠ q) := by
  have hnew : (nodes ++ [e])[nodes.length]? = some e := by simp
  constructor
  · rintro ⟨hq, hall⟩
    rcases Nat.lt_succ_iff_lt_or_eq.1 hq with hlt | heq
    · refine .inr ⟨⟨hlt, fun p' e' hp' hlt' he' => ?_⟩, hall _ e hn (Nat.lt_succ_self _) hnew⟩
      exact hall p' e' hp' (hlt'.trans (Nat.lt_succ_self _)) (by rwa [List.getElem?_append_left hlt'])
    · exact .inl heq
  · rintro (rfl | ⟨⟨hlt, hall⟩, hne⟩)
    · refine ⟨Nat.lt_succ_self _, fun p' e' hp' hlt' he' => ?_⟩
      rcases Nat.lt_succ_iff_lt_or_eq.1 hlt' with hlt | rfl
      · rw [List.getElem?_append_left hlt] at he'
        have := hchildren p' e' hp' he'
        omega
      · obtain rfl := Option.some.inj (hnew.symm.trans he')
        omega
    · refine ⟨hlt.trans (Nat.lt_succ_self _), fun p' e' hp' hlt' he' => ?_⟩
      rcases Nat.lt_succ_iff_lt_or_eq.1 hlt' with hlt' | rfl
      · exact hall p' e' hp' hlt' (by rwa [List.getElem?_append_left hlt'] at he')
      · obtain rfl := Option.some.inj (hnew.symm.trans he')
        exact hne

/-- What the merge order adds to `MergeInv`: WL is the working list of the statement, its keys are not empty,
and all merges so far took the lowest. -/
structure LowestMerged (n : Nat) (nodes : List NodeEntry) (wl : List WorkItem) : Prop where
  listed : ∀ q, InWorkingList n nodes nodes.length q ↔ q ∈ wl.map (·.2)
  keys : ∀ x ∈ wl, x.1.key ≠ []
  merges : MergesLowest n nodes

/-- Keys in WL have no byte in common, so the priority order is total on it (R154, R156). -/
theorem MergeInv.arrange_sorted {f : List FtabEntry} (h : MergeInv f nodes wl) (hnodup : (f.map (·.sym)).Nodup)
    (hkeys : ∀ x ∈ wl, x.1.key ≠ []) :
    (arrange itemBefore wl).Pairwise fun x y => itemBefore x y = true := by
  obtain ⟨-, hdisjoint⟩ := List.nodup_flatMap.1 (h.symbols.nodup_iff.2 hnodup)
  refine Machine.arrange_sorted (fun _ _ _ => before_trans) (hdisjoint.imp_of_mem fun {x y} hx _ hxy => ?_)
  refine before_total fun heq => ?_
  obtain ⟨b, hb⟩ := List.exists_mem_of_ne_nil _ (hkeys x hx)
  exact hxy hb (Eq.mp (congrArg (b ∈ ·) heq) hb)

theorem MergeInv.idx_nodup {f : List FtabEntry} (h : MergeInv f nodes wl) : (wl.map (·.2)).Nodup :=
  (List.nodup_append.1 (h.owned.nodup_iff.2 List.nodup_range)).2.1

theorem MergeInv.children_lt {f : List FtabEntry} (h : MergeInv f nodes wl) {p : Nat} {e : NodeEntry}
    (hp : f.length ≤ p) (he : nodes[p]? = some e) : e.left.toNat < p ∧ e.right.toNat < p := by
  obtain ⟨-, -, -, -, hl, hr, -, -⟩ := h.parents p e hp he
  exact ⟨hl, hr⟩

/-- An index of WL stands for a node (fewer than 2^9 of them, R6). -/
theorem MergeInv.idx_toNat {f : List FtabEntry} (h : MergeInv f nodes wl) (hn : f.length ≤ 256) {x : WorkItem}
    (hx : x ∈ wl) : x.2 < nodes.length ∧ (BitVec.ofNat 9 x.2).toNat = x.2 := by
  have hlt := (List.getElem?_eq_some_iff.1 (h.named x hx)).1
  have hcount := h.count
  exact ⟨hlt, (BitVec.toNat_ofNat ..).trans (Nat.mod_eq_of_lt (by omega))⟩

end

section
variable {f : List FtabEntry} {nodes : List NodeEntry} {wl rest : List WorkItem} {bottom top : WorkItem}

/-- The merges made so far stay what they are. -/
theorem MergesLowest.of_lt (h : MergeInv f nodes wl) (hm : MergesLowest f.length nodes) {p : Nat}
    (hp : p < nodes.length) (ys : List NodeEntry) {e b t : NodeEntry} (hn : f.length ≤ p)
    (he : (nodes ++ ys)[p]? = some e) (hb : (nodes ++ ys)[e.left.toNat]? = some b)
    (ht : (nodes ++ ys)[e.right.toNat]? = some t) :
    InWorkingList f.length (nodes ++ ys) p e.left.toNat ∧ InWorkingList f.length (nodes ++ ys) p e.right.toNat ∧
    ∀ q x, InWorkingList f.length (nodes ++ ys) p q → (nodes ++ ys)[q]? = some x →
      (q ≠ e.right.toNat → nodeBefore x t) ∧ (q ≠ e.right.toNat → q ≠ e.left.toNat → nodeBefore x b) := by
  rw [List.getElem?_append_left hp] at he
  obtain ⟨hl, hr⟩ := h.children_lt hn he
  rw [List.getElem?_append_left (hl.trans hp)] at hb
  rw [List.getElem?_append_left (hr.trans hp)] at ht
  obtain ⟨hinl, hinr, hall⟩ := hm p e b t hn he hb ht
  refine ⟨(inWorkingList_append_iff ys hp.le).2 hinl, (inWorkingList_append_iff ys hp.le).2 hinr,
    fun q x hq hx => ?_⟩
  have hq := (inWorkingList_append_iff ys hp.le).1 hq
  rw [List.getElem?_append_left (hq.1.trans hp)] at hx
  exact hall q x hq hx

/-- In an arranged WL everything comes before the last two. -/
theorem itemBefore_last_two (hsorted : (rest ++ [bottom, top]).Pairwise fun x y => itemBefore x y = true)
    {x : WorkItem} (hx : x ∈ rest ++ [bottom, top]) :
    (x ≠ top → itemBefore x top = true) ∧ (x ≠ top → x ≠ bottom → itemBefore x bottom = true) := by
  obtain ⟨-, hlast, hcross⟩ := List.pairwise_append.1 hsorted
  rcases List.mem_append.1 hx with hx | hx
  · exact ⟨fun _ => hcross x hx top (by simp), fun _ _ => hcross x hx bottom (by simp)⟩
  · rcases List.mem_cons.1 hx with rfl | hx
    · exact ⟨fun _ => List.rel_of_pairwise_cons hlast List.mem_cons_self, fun _ h => absurd rfl h⟩
    · exact ⟨fun h => absurd (List.mem_singleton.1 hx) h, fun h => absurd (List.mem_singleton.1 hx) h⟩

/-- One merge of the last two of an arranged WL keeps the merge order (R153). -/
theorem LowestMerged.merge (hl : LowestMerged f.length nodes wl) (h : MergeInv f nodes wl) (hn : f.length ≤ 256)
    (hperm : wl.Perm (rest ++ [bottom, top]))
    (hsorted : (rest ++ [bottom, top]).Pairwise fun x y => itemBefore x y = true) :
    LowestMerged f.length (nodes ++ [parentOf bottom top])
      (rest ++ [(parentOf bottom top, nodes.length)]) := by
  have hbwl : bottom ∈ wl := hperm.mem_iff.2 (by simp)
  have htwl : top ∈ wl := hperm.mem_iff.2 (by simp)
  obtain ⟨hblt, hb9⟩ := h.idx_toNat hn hbwl
  obtain ⟨htlt, ht9⟩ := h.idx_toNat hn htwl
  have hleft : (parentOf bottom top).left.toNat = bottom.2 := hb9
  have hright : (parentOf bottom top).right.toNat = top.2 := ht9
  have hidx := (hperm.map (·.2)).nodup_iff.1 h.idx_nodup
  refine ⟨fun q => ?_, fun x hx => ?_, fun p e b t hp he hb ht => ?_⟩
  · rw [List.length_append, List.length_singleton, inWorkingList_succ_iff h.le_length (fun _ _ => h.children_lt)
      ⟨by rwa [hleft], by rwa [hright]⟩, hl.listed, (hperm.map (·.2)).mem_iff, hleft, hright]
    simp only [List.map_append, List.map_cons, List.map_nil, List.mem_append, List.mem_cons, List.not_mem_nil,
      or_false] at hidx ⊢
    obtain ⟨-, -, hcross⟩ := List.nodup_append.1 hidx
    constructor
    · rintro (hq | ⟨hq | hq | hq, hqb, hqt⟩)
      · exact .inr hq
      · exact .inl hq
      · exact absurd hq.symm hqb
      · exact absurd hq.symm hqt
    · rintro (hq | hq)
      · exact .inr ⟨.inl hq, (hcross q hq _ (by simp)).symm, (hcross q hq _ (by simp)).symm⟩
      · exact .inl hq
  · rcases List.mem_append.1 hx with hx | hx
    · exact hl.keys x (hperm.mem_iff.2 (List.mem_append_left _ hx))
    · rw [List.mem_singleton.1 hx]
      exact List.append_ne_nil_of_left_ne_nil (hl.keys bottom hbwl) _
  · by_cases hlt : p < nodes.length
    · exact hl.merges.of_lt h hlt _ hp he hb ht
    · obtain rfl : p = nodes.length := by
        have := (List.getElem?_eq_some_iff.1 he).1
        rw [List.length_append, List.length_singleton] at this
        omega
      obtain rfl : parentOf bottom top = e := by simpa using he
      rw [hleft, List.getElem?_append_left hblt, h.named bottom hbwl] at hb
      rw [hright, List.getElem?_append_left htlt, h.named top htwl] at ht
      cases hb
      cases ht
      rw [hleft, hright]
      simp only [inWorkingList_append_iff _ le_rfl, hl.listed]
      refine ⟨List.mem_map_of_mem hbwl, List.mem_map_of_mem htwl, fun q x hq hx => ?_⟩
      obtain ⟨y, hy, rfl⟩ := List.mem_map.1 hq
      rw [List.getElem?_append_left (h.idx_toNat hn hy).1, h.named y hy] at hx
      cases hx
      obtain ⟨htop, hbottom⟩ := itemBefore_last_two hsorted (hperm.mem_iff.1 hy)
      exact ⟨fun ht => htop fun hyt => ht (hyt ▸ rfl),
        fun ht hb => hbottom (fun hyt => ht (hyt ▸ rfl)) fun hyb => hb (hyb ▸ rfl)⟩

theorem mergeLoop_lowest (hn : f.length ≤ 256) (hnodup : (f.map (·.sym)).Nodup)
    (hsum : (f.map (·.freq.toNat)).sum < 2 ^ 32) (m : Nat) {nodes : List NodeEntry} {wl : List WorkItem}
    (h : MergeInv f nodes wl) (hl : LowestMerged f.length nodes wl) :
    LowestMerged f.length (mergeLoop m nodes wl).1 (mergeLoop m nodes wl).2 := by
  induction m generalizing nodes wl with
  | zero => exact hl
  | succ m ih =>
    simp only [mergeLoop]
    split
    · next top bottom rest heq =>
      have harrange : arrange itemBefore wl = rest.reverse ++ [bottom, top] := by
        rw [← List.reverse_reverse (arrange itemBefore wl), heq]
        simp
      have hsorted := h.arrange_sorted hnodup hl.keys
      rw [harrange] at hsorted
      exact ih (h.merge (arrange_last_two heq) hn hnodup hsum)
        (hl.merge h hn (harrange ▸ (arrange_perm itemBefore wl).symm) hsorted)
    · exact hl

/-- Before the first merge every leaf is in WL. -/
theorem LowestMerged.start (f : List FtabEntry) : LowestMerged f.length (f.map leafOf) (f.map leafOf).zipIdx where
  listed q := by
    have hidx := List.zipIdx_map_snd 0 (f.map leafOf)
    rw [hidx, ← List.range_eq_range', List.mem_range, List.length_map]
    exact ⟨fun h => h.1, fun h => ⟨h, fun p' _ hp hlt _ => absurd hp (not_le.2 hlt)⟩⟩
  keys x hx := by
    obtain ⟨e, -, he⟩ := List.mem_map.1 (List.fst_mem_of_mem_zipIdx hx)
    rw [← he]
    exact List.cons_ne_nil _ _
  merges p e _ _ hp he := by
    have := (List.getElem?_eq_some_iff.1 he).1
    rw [List.length_map] at this
    omega

theorem FtabOk.mergesLowest (hf : FtabOk f) : MergesLowest f.length (buildTree f).1 := by
  have hlen := hf.length_le
  obtain ⟨hnodup, -, -, hsum⟩ := hf
  exact (mergeLoop_lowest hlen hnodup (hsum.trans_lt (by decide)) _ (.start f) (.start f)).merges

end

/-- Settles O27: WL, arranged by a priority order that is total on it, ends in the two nodes that are merged. -/
theorem treeMergesTheTwoLowest : Obligations.TreeMergesTheTwoLowest := by
  intro s t hready hlen hf ht
  obtain rfl : s.afterTree = t := Host.Outcome.next.inj ((exec_tree_of_ready hready).symm.trans ht)
  rw [State.afterTree_nodeValid hf, ← s.ftabValid_length]
  exact hf.mergesLowest

end Sys2Proof.Machine
end

