-- ==== Sys2Proof/Proofs/TreeCodes.lean ====
section
/-! PROOFS. The codes CODES reads off a tree: paths from ROOT to the leaves (R165 to R170), of one symbol and of
none (R168), and that TREE and CODES cannot fail (R151, R166). -/

namespace Sys2Proof.Machine

/-! ### The tree of a table, from any node down (R37) -/

section
variable {f : List FtabEntry} {nodes : List NodeEntry} {root : NodeIndex}

/-- The nodes before the frequency table's length are its leaves, the others parents. -/
theorem TreeOk.leaf_or_parent (h : TreeOk f nodes root) {p : Nat} {e : NodeEntry} (he : nodes[p]? = some e) :
    (∃ x, f[p]? = some x ∧ e = leafOf x) ∨ (f.length ≤ p ∧ IsParent nodes p e) := by
  by_cases hp : f.length ≤ p
  · exact .inr ⟨hp, h.parents p e hp he⟩
  · have hleaf : (f.map leafOf)[p]? = some e := by
      rw [← h.leaves, List.getElem?_take_of_lt (not_le.1 hp), he]
    rw [List.getElem?_map, Option.map_eq_some_iff] at hleaf
    obtain ⟨x, hx, rfl⟩ := hleaf
    exact .inl ⟨x, hx, rfl⟩

/-- Keys are not empty, so a parent's key has two bytes at least. -/
theorem TreeOk.sym_of_key (h : TreeOk f nodes root) {p : Nat} {e : NodeEntry} {b : Byte} (he : nodes[p]? = some e)
    (hkey : e.key = [b]) : (f.map (·.sym))[p]? = some b := by
  rcases h.leaf_or_parent he with ⟨x, hx, rfl⟩ | ⟨-, l, r, hl, hr, -, -, hk, -⟩
  · rw [List.getElem?_map, hx, Option.map_some, List.singleton_inj.1 hkey]
  · have hll := (h.keyLengths l (List.mem_of_getElem? hl)).1
    have hrl := (h.keyLengths r (List.mem_of_getElem? hr)).1
    have hlen := congrArg List.length (hk.symm.trans hkey)
    rw [List.length_append, List.length_singleton] at hlen
    omega

/-- The leaf of a symbol. -/
theorem TreeOk.leaf_getElem? (h : TreeOk f nodes root) {i : Nat} {x : FtabEntry} (hx : f[i]? = some x) :
    nodes[i]? = some (leafOf x) := by
  have hi := (List.getElem?_eq_some_iff.1 hx).1
  rw [← List.getElem?_take_of_lt hi, h.leaves, List.getElem?_map, hx, Option.map_some]

/-- Every byte of a key is a symbol. -/
theorem TreeOk.key_subset (h : TreeOk f nodes root) {p : Nat} {e : NodeEntry} (he : nodes[p]? = some e) :
    e.key ⊆ f.map (·.sym) := by
  induction p using Nat.strongRecOn generalizing e with
  | ind p ih =>
    rcases h.leaf_or_parent he with ⟨x, hx, rfl⟩ | ⟨-, l, r, hl, hr, hlp, hrp, hk, -⟩
    · exact List.cons_subset.2 ⟨List.mem_map_of_mem (List.mem_of_getElem? hx), List.nil_subset _⟩
    · rw [hk]
      exact List.append_subset.2 ⟨ih _ hlp hl, ih _ hrp hr⟩

theorem TreeOk.key_length_le (h : TreeOk f nodes root) {p : Nat} {e : NodeEntry} (he : nodes[p]? = some e) :
    e.key.length ≤ f.length := by
  have hsub := (h.keys e (List.mem_of_getElem? he)).subperm (h.key_subset he)
  exact hsub.length_le.trans_eq (List.length_map ..)

/-- Every node but the last is the child of a later one, whose key takes its key in (R37 (b)). -/
theorem TreeOk.exists_parent (h : TreeOk f nodes root) {q : Nat} {e : NodeEntry} (he : nodes[q]? = some e)
    (hq : q < nodes.length - 1) : ∃ p e', q < p ∧ nodes[p]? = some e' ∧ e.key ⊆ e'.key := by
  obtain ⟨e', he', hchild⟩ := List.mem_flatMap.1 (h.ownership.mem_iff.2 (List.mem_range.2 hq))
  obtain ⟨k, hk⟩ := List.mem_iff_getElem?.1 he'
  rw [List.getElem?_drop] at hk
  obtain ⟨l, r, hl, hr, hlp, hrp, hkey, -⟩ := h.parents _ e' (Nat.le_add_right _ _) hk
  rcases List.mem_cons.1 hchild with rfl | hchild
  · rw [he, Option.some_inj] at hl
    exact ⟨_, e', hlp, hk, hkey ▸ hl ▸ List.subset_append_left _ _⟩
  · obtain rfl := List.mem_singleton.1 hchild
    rw [he, Option.some_inj] at hr
    exact ⟨_, e', hrp, hk, hkey ▸ hr ▸ List.subset_append_right _ _⟩

/-- The root's key takes every node's key in. -/
theorem TreeOk.exists_root (h : TreeOk f nodes root) (hne : f ≠ []) {q : Nat} {e : NodeEntry}
    (he : nodes[q]? = some e) : ∃ r, nodes[root.toNat]? = some r ∧ e.key ⊆ r.key := by
  have hlt := (List.getElem?_eq_some_iff.1 he).1
  by_cases hq : q < nodes.length - 1
  · obtain ⟨p, e', hqp, he', hsub⟩ := h.exists_parent he hq
    obtain ⟨r, hr, hsub'⟩ := h.exists_root hne he'
    exact ⟨r, hr, List.Subset.trans hsub hsub'⟩
  · obtain rfl : q = root.toNat := by
      rw [h.rootIndex hne]
      omega
    exact ⟨e, he, List.Subset.refl _⟩
termination_by nodes.length - q
decreasing_by
  omega

theorem TreeOk.mem_root (h : TreeOk f nodes root) {b : Byte} (hb : b ∈ f.map (·.sym)) :
    ∃ r, nodes[root.toNat]? = some r ∧ b ∈ r.key := by
  obtain ⟨x, hx, rfl⟩ := List.mem_map.1 hb
  obtain ⟨i, hi⟩ := List.mem_iff_getElem?.1 hx
  obtain ⟨r, hr, hsub⟩ := h.exists_root (List.ne_nil_of_mem hx) (h.leaf_getElem? hi)
  exact ⟨r, hr, hsub (List.mem_singleton_self _)⟩

/-! ### One step of `derive` (R167) -/

variable {node : NodeIndex → NodeEntry}

/-- From a node whose key holds the byte: it is the byte's leaf, or the step goes to the child whose key holds
the byte, at a smaller index and with a shorter key. -/
theorem TreeOk.deriveFrom_succ (h : TreeOk f nodes root) (hnode : Reads node nodes) {b : Byte} (n : Nat)
    {i : NodeIndex} {e : NodeEntry} (he : nodes[i.toNat]? = some e) (hb : b ∈ e.key) :
    (e.key = [b] ∧ deriveFrom node [b] (n + 1) i = []) ∨
    (∃ l r, nodes[e.left.toNat]? = some l ∧ nodes[e.right.toNat]? = some r ∧ e.left.toNat < i.toNat ∧
      e.right.toNat < i.toNat ∧ e.key = l.key ++ r.key ∧ e.key ≠ [b] ∧
      ((b ∈ l.key ∧ deriveFrom node [b] (n + 1) i = false :: deriveFrom node [b] n e.left) ∨
        (b ∉ l.key ∧ b ∈ r.key ∧ deriveFrom node [b] (n + 1) i = true :: deriveFrom node [b] n e.right))) := by
  simp only [deriveFrom, hnode i e he]
  by_cases hkey : e.key = [b]
  · exact .inl ⟨hkey, if_pos hkey⟩
  · refine .inr ?_
    rcases h.leaf_or_parent he with ⟨x, -, rfl⟩ | ⟨-, l, r, hl, hr, hlp, hrp, hk, -⟩
    · exact absurd (congrArg (fun c => [c]) (List.mem_singleton.1 hb).symm) hkey
    · refine ⟨l, r, hl, hr, hlp, hrp, hk, hkey, ?_⟩
      simp only [if_neg hkey, hnode _ l hl, contains_singleton]
      by_cases hbl : b ∈ l.key
      · exact .inl ⟨hbl, if_pos hbl⟩
      · exact .inr ⟨hbl, (List.mem_append.1 (hk ▸ hb)).resolve_left hbl, if_neg hbl⟩

/-- Walking along the bits `derive` gives ends at the byte's leaf (R165). -/
theorem TreeOk.walk_deriveFrom (h : TreeOk f nodes root) (hnode : Reads node nodes) {b : Byte} (n : Nat)
    {i : NodeIndex} {e : NodeEntry} (he : nodes[i.toNat]? = some e) (hb : b ∈ e.key) (hi : i.toNat < n) :
    ∃ e', nodes[(walk node i (deriveFrom node [b] n i)).toNat]? = some e' ∧ e'.key = [b] := by
  induction n generalizing i e with
  | zero => omega
  | succ n ih =>
    rcases h.deriveFrom_succ hnode n he hb with ⟨hkey, hd⟩ | ⟨l, r, hl, hr, hlp, hrp, -, -, hstep⟩
    · rw [hd]
      exact ⟨e, he, hkey⟩
    · rcases hstep with ⟨hbl, hd⟩ | ⟨-, hbr, hd⟩
      · rw [hd, walk, hnode i e he, if_neg Bool.false_ne_true]
        exact ih hl hbl (by omega)
      · rw [hd, walk, hnode i e he, if_pos rfl]
        exact ih hr hbr (by omega)

/-- The code is shorter than the key it starts from: each step drops a byte at least. -/
theorem TreeOk.deriveFrom_length_lt (h : TreeOk f nodes root) (hnode : Reads node nodes) {b : Byte} (n : Nat)
    {i : NodeIndex} {e : NodeEntry} (he : nodes[i.toNat]? = some e) (hb : b ∈ e.key) (hi : i.toNat < n) :
    (deriveFrom node [b] n i).length < e.key.length := by
  induction n generalizing i e with
  | zero => omega
  | succ n ih =>
    rcases h.deriveFrom_succ hnode n he hb with ⟨hkey, hd⟩ | ⟨l, r, hl, hr, hlp, hrp, hk, -, hstep⟩
    · rw [hd, hkey]
      exact Nat.one_pos
    · have hlen := congrArg List.length hk
      have hll := (h.keyLengths l (List.mem_of_getElem? hl)).1
      have hrl := (h.keyLengths r (List.mem_of_getElem? hr)).1
      rw [List.length_append] at hlen
      rcases hstep with ⟨hbl, hd⟩ | ⟨-, hbr, hd⟩
      · have := ih hl hbl (by omega)
        rw [hd, List.length_cons]
        omega
      · have := ih hr hbr (by omega)
        rw [hd, List.length_cons]
        omega

/-- Two bytes part at some node, or the code of one is not used up at the leaf of the other (R170). -/
theorem TreeOk.eq_of_deriveFrom_prefix (h : TreeOk f nodes root) (hnode : Reads node nodes) {b c : Byte} (n : Nat)
    {i : NodeIndex} {e : NodeEntry} (he : nodes[i.toNat]? = some e) (hb : b ∈ e.key) (hc : c ∈ e.key)
    (hi : i.toNat < n) (hpre : deriveFrom node [b] n i <+: deriveFrom node [c] n i) : b = c := by
  induction n generalizing i e with
  | zero => omega
  | succ n ih =>
    rcases h.deriveFrom_succ hnode n he hb with ⟨hkey, -⟩ | ⟨l, r, hl, hr, hlp, hrp, -, -, hstep⟩
    · exact (List.mem_singleton.1 (hkey ▸ hc)).symm
    · rcases h.deriveFrom_succ hnode n he hc with ⟨hkey, -⟩ | ⟨l', r', hl', hr', -, -, -, -, hstep'⟩
      · exact List.mem_singleton.1 (hkey ▸ hb)
      · obtain rfl := Option.some.inj (hl.symm.trans hl')
        obtain rfl := Option.some.inj (hr.symm.trans hr')
        rcases hstep with ⟨hbl, hd⟩ | ⟨-, hbr, hd⟩ <;> rcases hstep' with ⟨hcl, hd'⟩ | ⟨-, hcr, hd'⟩ <;>
          rw [hd, hd', List.cons_prefix_cons] at hpre
        · exact ih hl hbl hcl (by omega) hpre.2
        · exact absurd hpre.1 Bool.false_ne_true
        · exact absurd hpre.1.symm Bool.false_ne_true
        · exact ih hr hbr hcr (by omega) hpre.2

/-- The leftmost leaf under a node has a code of zeros. -/
theorem TreeOk.exists_zero_deriveFrom (h : TreeOk f nodes root) (hnode : Reads node nodes) (n : Nat)
    {i : NodeIndex} {e : NodeEntry} (he : nodes[i.toNat]? = some e) (hi : i.toNat < n) :
    ∃ b ∈ e.key, ∀ c ∈ deriveFrom node [b] n i, c = false := by
  induction n generalizing i e with
  | zero => omega
  | succ n ih =>
    have hpos := (h.keyLengths e (List.mem_of_getElem? he)).1
    obtain ⟨b, hb⟩ := List.exists_mem_of_length_pos hpos
    rcases h.deriveFrom_succ hnode n he hb with ⟨-, hd⟩ | ⟨l, r, hl, hr, hlp, -, hk, -, -⟩
    · exact ⟨b, hb, by simp [hd]⟩
    · obtain ⟨c, hc, hzero⟩ := ih hl (by omega)
      have hce : c ∈ e.key := hk ▸ List.mem_append_left _ hc
      rcases h.deriveFrom_succ hnode n he hce with ⟨-, hd⟩ | ⟨l', r', hl', -, -, -, -, -, hstep⟩
      · exact ⟨c, hce, by simp [hd]⟩
      · obtain rfl := Option.some.inj (hl.symm.trans hl')
        rcases hstep with ⟨-, hd⟩ | ⟨hcl, -, -⟩
        · exact ⟨c, hce, hd ▸ List.forall_mem_cons.2 ⟨rfl, hzero⟩⟩
        · exact absurd hc hcl

end

/-! ### The code table of a state (R166, R170) -/

section
variable {s : State}

theorem State.nodeValid_length (s : State) : s.nodeValid.length = s.nnode.toNat := by simp [nodeValid]

theorem State.reads_nodeValid (s : State) : Reads (fun n => s.nodeSlot n.toNat) s.nodeValid := by
  intro i e he
  obtain ⟨hi, rfl⟩ := List.getElem?_eq_some_iff.1 he
  simp [nodeValid]

/-- What the statements about codes assume of a state in TREED. -/
structure State.Treed (s : State) : Prop where
  ftab : FtabOk s.ftabValid
  tree : TreeOk s.ftabValid s.nodeValid s.root

/-- The descent starts at ROOT, in the tree, with a node left for each step. -/
theorem State.Treed.root_lt (h : s.Treed) {b : Byte} (hb : b ∈ s.ftabValid.map (·.sym)) :
    s.root.toNat < s.nnode.toNat ∧ ∃ r, s.nodeValid[s.root.toNat]? = some r ∧ b ∈ r.key := by
  obtain ⟨r, hr, hbr⟩ := h.tree.mem_root hb
  exact ⟨s.nodeValid_length ▸ (List.getElem?_eq_some_iff.1 hr).1, r, hr, hbr⟩

theorem State.Treed.deriveCode_length_lt (h : s.Treed) {b : Byte} (hb : b ∈ s.ftabValid.map (·.sym)) :
    (deriveCode s [b]).length < s.nsym.toNat := by
  obtain ⟨hlt, r, hr, hbr⟩ := h.root_lt hb
  have hcode := h.tree.deriveFrom_length_lt s.reads_nodeValid _ hr hbr hlt
  exact hcode.trans_le ((h.tree.key_length_le hr).trans_eq s.ftabValid_length)

theorem State.Treed.eq_of_deriveCode_prefix (h : s.Treed) {b c : Byte} (hb : b ∈ s.ftabValid.map (·.sym))
    (hc : c ∈ s.ftabValid.map (·.sym)) (hpre : deriveCode s [b] <+: deriveCode s [c]) : b = c := by
  obtain ⟨hlt, r, hr, hbr⟩ := h.root_lt hb
  obtain ⟨-, r', hr', hcr⟩ := h.root_lt hc
  obtain rfl := Option.some.inj (hr.symm.trans hr')
  exact h.tree.eq_of_deriveFrom_prefix s.reads_nodeValid _ hr hbr hcr hlt hpre

/-- Two symbols have a parent above them, so no code is empty. -/
theorem State.Treed.deriveCode_ne_nil (h : s.Treed) (htwo : 2 ≤ s.nsym.toNat) (b : Byte)
    (hb : b ∈ s.ftabValid.map (·.sym)) : deriveCode s [b] ≠ [] := by
  intro hnil
  have hall : ∀ c ∈ s.ftabValid.map (·.sym), b = c := fun c hc =>
    h.eq_of_deriveCode_prefix hb hc (hnil ▸ List.nil_prefix)
  have hone : (s.ftabValid.map (·.sym)).length ≤ 1 :=
    (h.ftab.1.subperm fun c hc => List.mem_singleton.2 (hall c hc).symm).length_le
  rw [List.length_map, s.ftabValid_length] at hone
  omega

/-- The walk along a symbol's code ends at the leaf of that symbol (R165). -/
theorem State.Treed.walk_deriveCode (h : s.Treed) {i : Nat} {x : FtabEntry} (hx : s.ftabValid[i]? = some x) :
    (walk (fun n => s.nodeSlot n.toNat) s.root (deriveCode s [x.sym])).toNat = i := by
  have hb : x.sym ∈ s.ftabValid.map (·.sym) := List.mem_map_of_mem (List.mem_of_getElem? hx)
  obtain ⟨hlt, r, hr, hbr⟩ := h.root_lt hb
  obtain ⟨e, he, hkey⟩ := h.tree.walk_deriveFrom s.reads_nodeValid _ hr hbr hlt
  have hleaf := h.tree.sym_of_key he hkey
  have hxi : (s.ftabValid.map (·.sym))[i]? = some x.sym := by rw [List.getElem?_map, hx, Option.map_some]
  exact (List.getElem?_inj (List.getElem?_eq_some_iff.1 hleaf).1 h.ftab.1).1 (hleaf.trans hxi.symm)

theorem codeTable_syms (s : State) : (codeTable s).map (·.sym) = s.ftabValid.map (·.sym) := by
  simp [codeTable]

/-- With one symbol or none the table is short (R168). -/
theorem codeTable_of_nsym_zero (h : s.nsym = 0) : codeTable s = [] := by
  rw [codeTable, State.ftabValid_of_nsym_zero h, List.map_nil]

theorem codeTable_of_nsym_one (h : s.nsym = 1) :
    codeTable s = [{ sym := (s.ftabSlot 0).sym, code := [false] }] := by
  simp [codeTable, State.ftabValid_of_nsym_one h, codeOfSymbol, h]

/-- With two symbols or more every code is derived. -/
theorem codeTable_of_two_le (h : 2 ≤ s.nsym.toNat) :
    codeTable s = s.ftabValid.map fun e => { sym := e.sym, code := deriveCode s [e.sym] } := by
  have hne : s.nsym ≠ 1 := by
    rintro heq
    rw [heq] at h
    exact absurd h (by decide)
  simp only [codeTable, codeOfSymbol, if_neg hne]

theorem State.nsym_cases (s : State) : s.nsym = 0 ∨ s.nsym = 1 ∨ 2 ≤ s.nsym.toNat := by
  by_cases h0 : s.nsym.toNat = 0
  · exact .inl (BitVec.eq_of_toNat_eq h0)
  · by_cases h1 : s.nsym.toNat = 1
    · exact .inr (.inl (BitVec.eq_of_toNat_eq h1))
    · exact .inr (.inr (by omega))

theorem State.Treed.prefixFree_of_two_le (h : s.Treed) (htwo : 2 ≤ s.nsym.toNat) : PrefixFree (codeTable s) := by
  rw [codeTable_of_two_le htwo, PrefixFree, List.pairwise_map]
  refine (List.pairwise_map.1 h.ftab.1).imp_of_mem fun hx hy hne => ⟨fun hpre => hne ?_, fun hpre => hne ?_⟩
  · exact h.eq_of_deriveCode_prefix (List.mem_map_of_mem hx) (List.mem_map_of_mem hy) hpre
  · exact (h.eq_of_deriveCode_prefix (List.mem_map_of_mem hy) (List.mem_map_of_mem hx) hpre).symm

/-- Codes of 1 to NSYM - 1 bits (R169). -/
theorem State.Treed.code_length_of_two_le (h : s.Treed) (htwo : 2 ≤ s.nsym.toNat) {e : CtabEntry}
    (he : e ∈ codeTable s) : 1 ≤ e.code.length ∧ e.code.length ≤ s.nsym.toNat - 1 := by
  rw [codeTable_of_two_le htwo] at he
  obtain ⟨x, hx, rfl⟩ := List.mem_map.1 he
  have hb : x.sym ∈ s.ftabValid.map (·.sym) := List.mem_map_of_mem hx
  have hlt := h.deriveCode_length_lt hb
  exact ⟨List.length_pos_iff.2 (h.deriveCode_ne_nil htwo _ hb), Nat.le_sub_one_of_lt hlt⟩

/-- A `PrefixFree` code table, whatever the number of symbols (R35, R170). -/
theorem State.Treed.prefixFree (h : s.Treed) : PrefixFree (codeTable s) := by
  rcases s.nsym_cases with h0 | h1 | h2
  · rw [codeTable_of_nsym_zero h0]
    exact .nil
  · rw [codeTable_of_nsym_one h1]
    exact List.pairwise_singleton _ _
  · exact h.prefixFree_of_two_le h2

theorem State.Treed.codesBounded (h : s.Treed) : CodesBounded (codeTable s) := by
  rcases s.nsym_cases with h0 | h1 | h2
  · rw [codeTable_of_nsym_zero h0]
    exact fun _ he => nomatch he
  · rw [codeTable_of_nsym_one h1]
    intro e he
    rw [List.mem_singleton.1 he]
    simp
  · intro e he
    have hlen := h.code_length_of_two_le h2 he
    have hsyms := h.ftab.length_le
    rw [s.ftabValid_length] at hsyms
    exact ⟨hlen.1, by omega⟩

/-- Some symbol has a code of zeros, if there is a symbol (R207). -/
theorem State.Treed.exists_zero_code (h : s.Treed) (hne : s.ftabValid ≠ []) :
    ∃ e ∈ codeTable s, ∀ b ∈ e.code, b = false := by
  rcases s.nsym_cases with h0 | h1 | h2
  · exact absurd (State.ftabValid_of_nsym_zero h0) hne
  · rw [codeTable_of_nsym_one h1]
    exact ⟨_, List.mem_singleton_self _, by simp⟩
  · obtain ⟨x, hx⟩ := List.exists_mem_of_ne_nil _ hne
    obtain ⟨hlt, r, hr, -⟩ := h.root_lt (List.mem_map_of_mem hx)
    obtain ⟨b, hb, hzero⟩ := h.tree.exists_zero_deriveFrom s.reads_nodeValid _ hr hlt
    obtain ⟨y, hy, rfl⟩ := List.mem_map.1 (h.tree.key_subset hr hb)
    rw [codeTable_of_two_le h2]
    exact ⟨_, List.mem_map_of_mem hy, hzero⟩

/-! ### The command (R166) -/

theorem exec_codes_of_ready (h : s.ready .treed) : exec .codes s = .next s.afterCodes := by
  have hlegal : legalIn .codes s.phase = true := by rw [h.2]; rfl
  exact congrArg Host.Outcome.next (issueChecked_run h.1 hlegal)

theorem State.afterCodes_ctabSlot_of_getElem? {i : Nat} {e : CtabEntry} (h : (codeTable s)[i]? = some e) :
    s.afterCodes.ctabSlot i = e := by
  obtain ⟨hi, he⟩ := List.getElem?_eq_some_iff.1 h
  have hread : Store.read s.afterCodes.ctab i = some e := by
    rw [afterCodes, Store.read_writeFrom, dif_pos ⟨Nat.zero_le i, hi⟩]
    exact congrArg some he
  rw [ctabSlot, hread, Option.getD_some]

/-- The slots beyond the codes made are not written. -/
theorem State.afterCodes_ctabSlot_of_le {i : Nat} (h : s.nsym.toNat ≤ i) :
    s.afterCodes.ctabSlot i = s.ctabSlot i := by
  have hread : Store.read s.afterCodes.ctab i = Store.read s.ctab i :=
    (Store.read_writeFrom ..).trans (dif_neg (by rw [codeTable_length]; omega))
  simp only [ctabSlot, hread]
  rfl

/-- NNODE does not wrap, whatever FTAB holds. -/
theorem State.afterTree_nnode_toNat_of_le (h : s.nsym.toNat ≤ 256) :
    s.afterTree.nnode.toNat = (buildTree s.ftabValid).1.length := by
  have hle := buildTree_length_le (s.ftabValid_length.trans_le h)
  exact (BitVec.toNat_ofNat ..).trans (Nat.mod_eq_of_lt (by omega))

end

/-! ### The statements -/

/-- Settles O29: neither pseudocode has a `raise`, and each writes its table from slot 0 on. -/
theorem treeAndCodesCannotFail : Obligations.TreeAndCodesCannotFail := by
  refine ⟨fun s hready => ⟨s.afterTree, exec_tree_of_ready hready, rfl, fun hlen i hi => ?_⟩,
    fun s hready => ⟨s.afterCodes, exec_codes_of_ready hready, rfl, fun _ => State.afterCodes_ctabSlot_of_le⟩⟩
  exact State.afterTree_nodeSlot_of_le (State.afterTree_nnode_toNat_of_le hlen ▸ hi)

/-- Settles O30: `derive` follows the keys that hold the symbol, so its bits are a path of the tree; paths to
different leaves part before either ends. -/
theorem codesFollowTheTree : Obligations.CodesFollowTheTree := by
  intro s hready htwo _ hf htree
  have h : s.Treed := ⟨hf, htree⟩
  refine ⟨s.afterCodes, exec_codes_of_ready hready, rfl, ?_, fun i hi => ?_, ?_, ?_,
    fun _ => State.afterCodes_ctabSlot_of_le⟩
  · rw [s.afterCodes_ctabValid, codeTable_syms]
  · obtain ⟨x, hx⟩ : ∃ x, s.ftabValid[i]? = some x :=
      ⟨_, List.getElem?_eq_getElem (s.ftabValid_length.symm ▸ hi)⟩
    have hcode : (codeTable s)[i]? = some { sym := x.sym, code := deriveCode s [x.sym] } := by
      rw [codeTable_of_two_le htwo, List.getElem?_map, hx, Option.map_some]
    rw [State.afterCodes_ctabSlot_of_getElem? hcode]
    exact h.walk_deriveCode hx
  · rw [s.afterCodes_ctabValid]
    exact h.prefixFree_of_two_le htwo
  · rw [s.afterCodes_ctabValid]
    exact fun e => h.code_length_of_two_le htwo

/-- Settles O31: the table of one symbol, and of none, computed. -/
theorem codesOfOneSymbolAndOfNone : Obligations.CodesOfOneSymbolAndOfNone := by
  refine ⟨fun s hready hone => ⟨s.afterCodes, exec_codes_of_ready hready, ?_, ?_, fun i hi => ?_⟩,
    fun s hready hnone => ?_⟩
  · rw [State.afterCodes, hone]
  · rw [s.afterCodes_ctabValid, codeTable_of_nsym_one hone]
  · exact State.afterCodes_ctabSlot_of_le (by rwa [hone])
  · rw [exec_codes_of_ready hready, State.afterCodes, codeTable_of_nsym_zero hnone, hnone]
    rfl

end Sys2Proof.Machine
end

