-- ==== Sys2Proof/Proofs/EncodeStream.lean ====
section
/-! PROOFS. FREQ does not see the order of the input (R142); ENC is FREQ, TREE, CODES and PACK (R188), and with
room for any stream it completes with a `PrefixFree` code of the input. -/

namespace Sys2Proof.Machine

/-! ### The table of a rearranged input (R142) -/

/-- Tables that count the same bytes have the same entries. -/
theorem CountsBytes.mem_of_perm {f g : List FtabEntry} {x y : Bytes} (hf : CountsBytes f x) (hg : CountsBytes g y)
    (hperm : x.Perm y) {e : FtabEntry} (he : e ∈ f) : e ∈ g := by
  have hsym : e.sym ∈ g.map (·.sym) :=
    (hg.syms _).2 (hperm.mem_iff.1 ((hf.syms _).1 (List.mem_map_of_mem he)))
  obtain ⟨d, hd, hsymd⟩ := List.mem_map.1 hsym
  have hfreq : d.freq = e.freq := BitVec.eq_of_toNat_eq (by
    rw [hg.freqs d hd, hf.freqs e he, hperm.count_eq, hsymd])
  obtain rfl : d = e := by
    cases d
    cases e
    simp_all
  exact hd

theorem CountsBytes.perm {f g : List FtabEntry} {x y : Bytes} (hf : CountsBytes f x) (hg : CountsBytes g y)
    (hperm : x.Perm y) : f.Perm g :=
  (List.perm_ext_iff_of_nodup (List.Nodup.of_map _ hf.nodup) (List.Nodup.of_map _ hg.nodup)).2 fun _ =>
    ⟨hf.mem_of_perm hg hperm, hg.mem_of_perm hf hperm.symm⟩

/-- Settles O25: both tables are the one priority-sorted arrangement of the same entries. -/
theorem freqIgnoresTheOrder : Obligations.FreqIgnoresTheOrder := by
  intro s s' t t' hready hready' hfits hfits' hperm ht ht'
  obtain rfl := Host.Outcome.next.inj ((exec_freq_of_inputFits hready hfits).symm.trans ht)
  obtain rfl := Host.Outcome.next.inj ((exec_freq_of_inputFits hready' hfits').symm.trans ht')
  have hsame : freqTable s.input = freqTable s'.input :=
    (freqTable_prioritySorted _).eq_of_perm (freqTable_prioritySorted _)
      (hfits.freqTable_countsBytes.perm hfits'.freqTable_countsBytes hperm)
  rw [State.afterFreq_ftabValid hfits, State.afterFreq_ftabValid hfits']
  exact ⟨hsame, congrArg (fun f => BitVec.ofNat 32 (List.length f)) hsame⟩

/-! ### The state before PACK (R188) -/

section
variable {s : State}

theorem State.inputFits.treed (h : s.inputFits) : s.afterFreq.afterTree.Treed := by
  have hf : FtabOk s.afterFreq.ftabValid := (afterFreq_ftabValid h) ▸ h.freqTable_ftabOk
  refine ⟨hf, ?_⟩
  rw [afterTree_nodeValid hf]
  exact hf.treeOk

theorem State.built_ctabValid (s : State) : s.built.ctabValid = codeTable s.afterFreq.afterTree :=
  afterCodes_ctabValid _

/-- The code table ENC makes has exactly the bytes of the input. -/
theorem State.inputFits.mem_built_syms (h : s.inputFits) (b : Byte) :
    b ∈ s.built.ctabValid.map (·.sym) ↔ b ∈ s.input := by
  rw [built_ctabValid, codeTable_syms]
  exact (afterFreq_ftabValid h) ▸ h.freqTable_countsBytes.syms b

theorem State.inputFits.hasUnknown_built (h : s.inputFits) : hasUnknown s.built.ctabValid s.input = false := by
  rw [hasUnknown, List.any_eq_false]
  intro b hb hnone
  exact findCode_built h hb (Option.isNone_iff_eq_none.1 hnone)

theorem State.inputFits.codesBounded_built (h : s.inputFits) : CodesBounded s.built.ctabValid :=
  s.built_ctabValid ▸ h.treed.codesBounded

theorem State.inputFits.prefixFree_built (h : s.inputFits) : PrefixFree s.built.ctabValid :=
  s.built_ctabValid ▸ h.treed.prefixFree

theorem State.inputFits.built_ctabValid_length (h : s.inputFits) : s.built.ctabValid.length ≤ 256 := by
  rw [built_ctabValid, codeTable_length]
  exact (afterFreq_nsym_toNat h).trans_le h.freqTable_countsBytes.length_le

/-- ENC of a stream that fits. -/
theorem exec_enc_of_stream_fits (hready : s.ready .empty) (hfits : s.inputFits)
    (h : (encodedStream s.built.ctabValid s.input).length ≤ s.params.outMax.toNat) :
    exec .enc s = .next s.built.afterPack := by
  rw [exec_enc_of_inputFits hready hfits]
  exact exec_pack_of_stream_fits ⟨hready.1, rfl⟩ hfits h

end

/-- Settles O40: the four commands one after the other, and PACK of a stream that fits. -/
theorem encIsTheFourCommands : Obligations.EncIsTheFourCommands := by
  intro s hready hfits
  refine ⟨s.afterFreq, s.afterFreq.afterTree, s.built, exec_freq_of_inputFits hready hfits,
    exec_tree_of_ready ⟨hready.1, rfl⟩, exec_codes_of_ready ⟨hready.1, rfl⟩, ⟨hready.1, rfl⟩, rfl,
    exec_enc_of_inputFits hready hfits, fun hroom => ?_⟩
  exact ⟨s.built.afterPack, exec_enc_of_stream_fits hready hfits hroom, hready.1, rfl,
    (writesOutput_afterPack (s := s.built) hroom).output⟩

/-! ### The longest stream (R110, R187) -/

theorem tok_length_le (b : Byte) : (tok b).length ≤ 2 := by
  unfold tok
  split
  · decide
  · split
    · decide
    · split
      · decide
      · exact Nat.le_succ 1

/-- A header of at most 256 entries with codes of at most 255 bits. -/
theorem header_length_le {t : List CtabEntry} (hlen : t.length ≤ 256) (h : CodesBounded t) :
    (header t).length ≤ 66316 := by
  have hline : ∀ n ∈ t.map (fun e => (tok e.sym).length + 2 + e.code.length), n ≤ 259 := by
    intro n hn
    obtain ⟨e, he, rfl⟩ := List.mem_map.1 hn
    have htok := tok_length_le e.sym
    have hcode := (h e he).2
    omega
  have hsum := List.sum_le_card_nsmul _ 259 hline
  rw [List.length_map, smul_eq_mul] at hsum
  rw [header_length]
  omega

theorem encodedStream_length_le {t : List CtabEntry} (hlen : t.length ≤ 256) (h : CodesBounded t) (x : Bytes) :
    (encodedStream t x).length ≤ 66316 + 32 * x.length := by
  have hheader := header_length_le hlen h
  have hbits := encodedBits_length_le h x
  rw [encodedStream_length]
  omega

/-! ### ENC with room (R188) -/

section
variable {s : State}

/-- PACK of a text whose bytes all have codes changes the output and its registers only. -/
theorem State.afterPack_frame (h : hasUnknown s.ctabValid s.input = false) : s.afterPack = { s with
    busy := false, done := true, obuf := s.afterPack.obuf, outLen := s.afterPack.outLen,
    hdrLen := s.afterPack.hdrLen, bitLen := s.afterPack.bitLen, padBits := s.afterPack.padBits,
    pad := s.afterPack.pad } := by
  rw [afterPack, h, Bool.or_false]

/-- ENC changes the tables too. -/
theorem State.built_afterPack_frame (h : s.inputFits) : s.built.afterPack = { s with
    busy := false, done := true, phase := .coded,
    ftab := s.built.afterPack.ftab, nsym := s.built.afterPack.nsym, node := s.built.afterPack.node,
    nnode := s.built.afterPack.nnode, root := s.built.afterPack.root, ctab := s.built.afterPack.ctab,
    nent := s.built.afterPack.nsym, obuf := s.built.afterPack.obuf, outLen := s.built.afterPack.outLen,
    hdrLen := s.built.afterPack.hdrLen, bitLen := s.built.afterPack.bitLen,
    padBits := s.built.afterPack.padBits, pad := s.built.afterPack.pad } :=
  (afterPack_frame (s := s.built) h.hasUnknown_built).trans rfl

/-- Slots beyond the counts are not written by FREQ, TREE and CODES. -/
theorem State.built_slots (h : s.inputFits) :
    (∀ i, s.built.nsym.toNat ≤ i → s.built.ftabSlot i = s.ftabSlot i ∧ s.built.ctabSlot i = s.ctabSlot i) ∧
    ∀ i, s.built.nnode.toNat ≤ i → s.built.nodeSlot i = s.nodeSlot i := by
  have hnsym : s.built.nsym.toNat = _ := afterFreq_nsym_toNat h
  have hnnode : s.built.nnode.toNat = _ := afterTree_nnode_toNat h.treed.ftab
  refine ⟨fun i hi => ⟨afterFreq_ftabSlot_of_le (hnsym ▸ hi), ?_⟩, fun i hi => ?_⟩
  · exact afterCodes_ctabSlot_of_le (s := s.afterFreq.afterTree) hi
  · exact afterTree_nodeSlot_of_le (s := s.afterFreq) (hnnode ▸ hi)

/-- A header that lies in OBUF has a length below 2^32. -/
theorem toNat_ofNat_of_le_outMax {n : Nat} (h : n ≤ s.params.outMax.toNat) : (BitVec.ofNat 32 n).toNat = n :=
  (BitVec.toNat_ofNat ..).trans (Nat.mod_eq_of_lt (h.trans_lt s.params.outMax.isLt))

theorem padBits_toNat (n : Nat) : (BitVec.ofNat 32 (padCount n)).toNat = padCount n :=
  (BitVec.toNat_ofNat ..).trans (Nat.mod_eq_of_lt ((padCount_lt n).trans (by decide)))

/-- PAD says whether PADBITS is 0 (R25). -/
theorem ofNat_bne_zero {n : Nat} (h : n < 2 ^ 32) : (BitVec.ofNat 32 n != 0) = (n != 0) := by
  have hiff : BitVec.ofNat 32 n = 0 ↔ n = 0 := by
    rw [← BitVec.toNat_inj, BitVec.toNat_ofNat, Nat.mod_eq_of_lt h]
    rfl
  rw [Bool.eq_iff_iff, bne_iff_ne, bne_iff_ne, ne_eq, hiff]

end

/-- Settles O41: the room asked for is that of the longest stream, so PACK fits; the rest is what the tables
satisfy that FREQ, TREE and CODES leave. -/
theorem encWritesTheStream : Obligations.EncWritesTheStream := by
  intro s hready hfits hroom
  have hcodes := hfits.codesBounded_built
  have hstream := encodedStream_length_le hfits.built_ctabValid_length hcodes s.input
  rw [s.input_length] at hstream
  have hwrites := writesOutput_afterPack (s := s.built) (hstream.trans hroom)
  have hheader : (header s.built.ctabValid).length ≤ s.params.outMax.toNat := by
    have := encodedStream_length s.built.ctabValid s.input
    omega
  have hbits : s.built.afterPack.bitLen.toNat = (encodedBits s.built.ctabValid s.input).length :=
    (BitVec.toNat_ofNat ..).trans (Nat.mod_eq_of_lt (hfits.encodedBits_length_lt hcodes))
  obtain ⟨hslots, hnodes⟩ := State.built_slots hfits
  refine ⟨s.built.afterPack, exec_enc_of_stream_fits hready hfits (hstream.trans hroom),
    State.built_afterPack_frame hfits, hfits.treed.ftab, hfits.treed.tree, ?_, hfits.mem_built_syms, hcodes,
    hfits.prefixFree_built, hwrites.output, toNat_ofNat_of_le_outMax hheader, hbits, ?_, ?_,
    fun a ha => hwrites.obufByte_of_le (hwrites.outLen_toNat ▸ ha), hslots, hnodes⟩
  · show s.built.ctabValid.map (·.sym) = _
    rw [State.built_ctabValid, codeTable_syms]
    rfl
  · rw [hbits]
    exact padBits_toNat _
  · exact (ofNat_bne_zero ((padCount_lt _).trans (by decide))).symm

end Sys2Proof.Machine
end

