-- ==== Sys2Proof/Proofs/Lookup.lean ====
section
/-! PROOFS. Searches of the code table (R172, R205), and what LOOKUP reports (R31, R173). -/

namespace Sys2Proof.Machine

/-! ### The first match (R172, R205) -/

/-- `e` is the first entry of `t` with its value of `key`. -/
def IsFirst {α : Type} (key : CtabEntry → α) (t : List CtabEntry) (e : CtabEntry) : Prop :=
  ∃ l r, t = l ++ e :: r ∧ ∀ x ∈ l, key x ≠ key e

theorem isFirst_cons_iff {α : Type} {key : CtabEntry → α} {t : List CtabEntry} {d e : CtabEntry} :
    IsFirst key (d :: t) e ↔ d = e ∨ (key d ≠ key e ∧ IsFirst key t e) := by
  constructor
  · rintro ⟨l, r, heq, hl⟩
    cases l with
    | nil => exact .inl (List.cons.inj heq).1
    | cons x l =>
      obtain ⟨rfl, rfl⟩ := List.cons.inj heq
      obtain ⟨hx, hl⟩ := List.forall_mem_cons.1 hl
      exact .inr ⟨hx, l, r, rfl, hl⟩
  · rintro (rfl | ⟨hd, l, r, rfl, hl⟩)
    · exact ⟨[], t, rfl, fun _ h => nomatch h⟩
    · exact ⟨d :: l, r, rfl, List.forall_mem_cons.2 ⟨hd, hl⟩⟩

theorem findCode_eq_some_iff {t : List CtabEntry} {sym : Byte} {c : Bits} :
    findCode t sym = some c ↔ IsFirst (·.sym) t { sym := sym, code := c } := by
  induction t with
  | nil => simp [findCode, IsFirst]
  | cons d t ih =>
    obtain ⟨dsym, dcode⟩ := d
    rw [isFirst_cons_iff, findCode]
    by_cases h : dsym = sym
    · simp [h]
    · simp [h, ih]

theorem findCode_eq_none_iff {t : List CtabEntry} {sym : Byte} :
    findCode t sym = none ↔ ∀ x ∈ t, x.sym ≠ sym := by
  rw [← Option.not_isSome_iff_eq_none, findCode_isSome]
  simp

theorem matchCode_eq_some_iff_isFirst {t : List CtabEntry} {sym : Byte} {c : Bits} :
    matchCode t c = some sym ↔ IsFirst (·.code) t { sym := sym, code := c } := by
  induction t with
  | nil => simp [matchCode, IsFirst]
  | cons d t ih =>
    obtain ⟨dsym, dcode⟩ := d
    rw [isFirst_cons_iff, matchCode]
    by_cases h : dcode = c
    · simp [h]
    · simp [h, ih]

/-- Settles O32: both searches go down the table and stop at the first entry that fits. -/
theorem searchesTakeTheFirstMatch : Obligations.SearchesTakeTheFirstMatch :=
  ⟨fun _ _ _ => findCode_eq_some_iff, fun _ _ => findCode_eq_none_iff,
    fun _ _ _ => matchCode_eq_some_iff_isFirst, fun _ _ => matchCode_none⟩

/-! ### RES_CODE bit by bit (R31) -/

/-- Bit `j` of a bit string read as a number, counted from the first, the highest. -/
theorem testBit_bitsToNat (w : Bits) {j : Nat} (hj : j < w.length) :
    (bitsToNat w).testBit (w.length - 1 - j) = w.getD j false := by
  induction w using List.reverseRecOn generalizing j with
  | nil => cases hj
  | append_singleton w b ih =>
    have hbit : bitsToNat (w ++ [b]) = Nat.bit b (bitsToNat w) := by rw [bitsToNat_concat, Nat.bit_val]
    rw [List.length_append, List.length_singleton] at hj ⊢
    rcases Nat.lt_succ_iff_lt_or_eq.1 hj with hlt | rfl
    · rw [hbit, show w.length + 1 - 1 - j = w.length - 1 - j + 1 by omega, Nat.testBit_bit_succ, ih hlt,
        List.getD_append _ _ _ _ hlt]
    · rw [hbit, show w.length + 1 - 1 - w.length = 0 by omega, Nat.testBit_bit_zero]
      simp

/-- The 32 bits of a code that word `k` of RES_CODE holds, zeros past the code's end. -/
def codeWindow (c : Bits) (k : Nat) : Bits := (c.drop (32 * k) ++ List.replicate 32 false).take 32

theorem codeWindow_length (c : Bits) (k : Nat) : (codeWindow c k).length = 32 := by
  simp [codeWindow]

theorem codeWindow_getD (c : Bits) (k : Nat) {m : Nat} (hm : m < 32) :
    (codeWindow c k).getD m false = c.getD (32 * k + m) false := by
  rw [codeWindow, List.getD_eq_getElem?_getD, List.getD_eq_getElem?_getD, List.getElem?_take_of_lt hm,
    ← List.getElem?_drop]
  by_cases hlt : m < (c.drop (32 * k)).length
  · rw [List.getElem?_append_left hlt]
  · rw [List.getElem?_append_right (not_lt.1 hlt), List.getElem?_eq_none (not_lt.1 hlt), List.getElem?_replicate]
    split <;> rfl

theorem codeWord_getLsbD (c : Bits) (k : Nat) {m : Nat} (hm : m < 32) :
    (codeWord c k).getLsbD (31 - m) = c.getD (32 * k + m) false := by
  have hlen := codeWindow_length c k
  have hbit := testBit_bitsToNat (codeWindow c k) (hlen.symm ▸ hm)
  rw [hlen] at hbit
  have hlt : 31 - m < 32 := by omega
  rw [← codeWindow_getD c k hm, ← hbit, codeWord, BitVec.getLsbD_ofNat, decide_eq_true hlt, Bool.true_and]
  rfl

theorem codeWords_getElem (c : Bits) (k : Fin 8) : (codeWords c)[k.val] = codeWord c k.val := by
  match k with
  | 0 | 1 | 2 | 3 | 4 | 5 | 6 | 7 => rfl

/-- RES_CODE[k] is register `16 + k`. -/
theorem State.regValue_resCode (s : State) (k : Fin 8) : s.regValue (16 + k.val) = s.resCode[k.val] := by
  match k with
  | 0 | 1 | 2 | 3 | 4 | 5 | 6 | 7 => rfl

/-! ### The command (R173) -/

section
variable {s : State} {sym : Byte}

theorem exec_lookup_of_ready (h : s.ready .coded ∨ s.ready .parsed) :
    exec (.lookup sym) s = .next (endCommand (lookupBody sym (beginCommand s))) := by
  have hready : s.err = false ∧ legalIn (.lookup sym) s.phase = true := by
    rcases h with ⟨herr, hphase⟩ | ⟨herr, hphase⟩ <;> rw [hphase] <;> exact ⟨herr, rfl⟩
  exact congrArg Host.Outcome.next (issueChecked_run hready.1 hready.2)

theorem exec_lookup_of_found (h : s.ready .coded ∨ s.ready .parsed) {c : Bits}
    (hc : findCode s.ctabValid sym = some c) :
    exec (.lookup sym) s = .next { setFound sym c s with busy := false, done := true } := by
  have hbody : lookupBody sym (beginCommand s) = .ok () (setFound sym c (beginCommand s)) := by
    have hc : findCode (beginCommand s).ctabValid sym = some c := hc
    rw [lookupBody, hc]
  rw [exec_lookup_of_ready h, hbody]
  rfl

theorem exec_lookup_of_missing (h : s.ready .coded ∨ s.ready .parsed) (hc : findCode s.ctabValid sym = none) :
    exec (.lookup sym) s = .next { setNotFound sym s with busy := false, done := true } := by
  have hbody : lookupBody sym (beginCommand s) = .ok () (setNotFound sym (beginCommand s)) := by
    have hc : findCode (beginCommand s).ctabValid sym = none := hc
    rw [lookupBody, hc]
  rw [exec_lookup_of_ready h, hbody]
  rfl

end

/-- A length that fits a byte is the same number in a register. -/
theorem zeroExtend_ofNat_of_le {n : Nat} (h : n ≤ 255) : (BitVec.ofNat 8 n).zeroExtend 32 = BitVec.ofNat 32 n := by
  apply BitVec.eq_of_toNat_eq
  simp only [BitVec.truncate_eq_setWidth, BitVec.toNat_setWidth, BitVec.toNat_ofNat]
  omega

/-- Settles O33: LOOKUP notes the first entry's code, and RES_CODE spells it out of windows of 32 bits. -/
theorem lookupReportsTheCode : Obligations.LookupReportsTheCode := by
  intro s sym c hready hc hlen
  refine ⟨_, exec_lookup_of_found hready hc, rfl, ?_, fun j hj => ?_⟩
  · show flagAt 31 true ||| sym.zeroExtend 32 <<< 8 ||| (BitVec.ofNat 8 c.length).zeroExtend 32 = _
    rw [zeroExtend_ofNat_of_le hlen]
    rfl
  · have hk : j / 32 < 8 := by omega
    have hm : j % 32 < 32 := Nat.mod_lt _ (by decide)
    rw [State.regValue_resCode _ ⟨j / 32, hk⟩]
    show ((codeWords c)[j / 32]).getLsbD (31 - j % 32) = _
    rw [codeWords_getElem c ⟨j / 32, hk⟩, codeWord_getLsbD c _ hm, Nat.div_add_mod]

/-- Settles O34: with no entry LOOKUP clears RES but for the symbol, and sets NF. -/
theorem lookupMissSetsNf : Obligations.LookupMissSetsNf := fun _ _ => exec_lookup_of_missing

end Sys2Proof.Machine
end

