-- ==== Sys2Proof/Proofs/DecodeStream.lean ====
section
/-! PROOFS. The lines of a header (R110) and PARSE of any well-formed lines (R196); the match rule as a cut of
the payload's bits, and UNPACK by it (R204, R205, R208); DEC as PARSE and UNPACK (R210). -/

namespace Sys2Proof.Machine

/-! ### Headers and lines (R109, R110, R196) -/

theorem terminatedLines_header_append (t : List CtabEntry) (p : Bytes) :
    terminatedLines (header t ++ p) = marker :: t.map entryLine ++ marker :: terminatedLines p := by
  have hlines : ∀ l ∈ t.map entryLine, byteNL ∉ l := List.forall_mem_map.2 fun e _ => entryLine_noNL e
  have hheader : header t ++ p = marker ++ byteNL ::
      (((t.map entryLine).flatMap fun l => l ++ [byteNL]) ++ (marker ++ byteNL :: p)) := by
    simp [header_eq_lines]
  rw [hheader, terminatedLines_line _ _ marker_noNL, terminatedLines_append_of_lines hlines,
    terminatedLines_line _ _ marker_noNL]
  rfl

/-- Settles O36: entry lines parse back, have a space and no terminator, and so the header falls apart into
exactly them. -/
theorem headerSplitsIntoItsLines : Obligations.HeaderSplitsIntoItsLines :=
  ⟨fun _ hpos hle => parseEntry_entryLine ⟨hpos, hle⟩, fun t p => ⟨header_length t,
    fun e _ => ⟨entryLine_ne_marker e, entryLine_noNL e⟩, terminatedLines_header_append t p⟩⟩

/-- The bytes before the payload: marker, lines, marker, each with its terminator. -/
theorem markedLines_length (ls : List Bytes) :
    (marker ++ byteNL :: (ls.flatMap fun l => l ++ [byteNL]) ++ marker ++ [byteNL]).length =
      6 + linesLength ls + 6 := by
  simp [marker, linesLength, List.length_flatMap]
  omega

/-- Settles O45: the lines go into CTAB and HDR_LEN is the number of bytes before the payload. -/
theorem parseReadsWellFormedLines : Obligations.ParseReadsWellFormedLines := by
  intro s ls T p hready hfits hplain hentries hlen hinput
  have hsplit : s.input = (marker ++ byteNL :: (ls.flatMap fun l => l ++ [byteNL]) ++ marker ++ [byteNL]) ++ p := by
    rw [hinput]
    simp [byteNL]
  have hcount := congrArg List.length hsplit
  rw [List.length_append, markedLines_length, s.input_length] at hcount
  have hhdr : (s.afterParse T (6 + linesLength ls + 6)).hdrLen.toNat = 6 + linesLength ls + 6 := by
    have hle := s.inLen.isLt
    exact (BitVec.toNat_ofNat ..).trans (Nat.mod_eq_of_lt (by omega))
  have hpayload : (s.afterParse T (6 + linesLength ls + 6)).payload = p := by
    have hsame : (s.afterParse T (6 + linesLength ls + 6)).input = s.input := rfl
    rw [State.payload_eq_drop, hhdr, hsame, hsplit, ← markedLines_length ls, List.drop_left]
  refine ⟨s.afterParse T (6 + linesLength ls + 6), ?_, rfl, s.withTable_ctabValid hlen, hpayload, ?_,
    fun _ => s.withTable_ctabSlot_of_le⟩
  · exact exec_parse_of_endMarker (p := p) hready hfits ⟨hplain, hentries, hlen⟩ (by rw [hsplit]; simp)
  · rw [hhdr]
    exact hcount.symm

/-! ### The match rule as a cut (R205) -/

section
variable {t picks : List CtabEntry} {bits tail : Bits}

/-- The decoder follows any cut of its bits, so there is one at most. -/
theorem decodeSyms_of_cut (h : Cut t bits picks tail) : decodeSyms t [] bits = (picks.map (·.sym), tail) := by
  obtain ⟨rfl, hfirst, hshortest, hunmatched⟩ := h
  induction picks with
  | nil => exact decodeSyms_noMatch t [] tail fun p hp hpre => matchCode_none.2 (hunmatched p hp hpre)
  | cons e picks ih =>
    obtain ⟨⟨hne, he⟩, hfirst⟩ := List.forall_mem_cons.1 hfirst
    obtain ⟨hshort, hshortest⟩ := List.forall_mem_cons.1 hshortest
    have hcode : decodeSyms t [] e.code = ([e.sym], []) :=
      decodeSyms_code t [] e.code e.sym hne (matchCode_eq_some_iff_isFirst.2 he)
        fun p hp hpre hpe => matchCode_none.2 (hshort p hp hpre hpe)
    rw [List.flatMap_cons, List.append_assoc, decodeSyms_append, hcode, ih hfirst hshortest]
    rfl

/-- One bit more: it completes the candidate, or it lengthens it. -/
theorem Cut.exists_append_bit (h : Cut t bits picks tail) (b : Bool) :
    ∃ picks' tail', Cut t (bits ++ [b]) picks' tail' := by
  obtain ⟨rfl, hfirst, hshortest, hunmatched⟩ := h
  cases hmatch : matchCode t (tail ++ [b]) with
  | none =>
    refine ⟨picks, tail ++ [b], by rw [List.append_assoc], hfirst, hshortest, fun p hp hpre => ?_⟩
    rcases List.prefix_concat_iff.1 hpre with rfl | hpre
    · exact matchCode_none.1 hmatch
    · exact hunmatched p hp hpre
  | some sym =>
    have hpick : IsFirst (·.code) t { sym := sym, code := tail ++ [b] } :=
      matchCode_eq_some_iff_isFirst.1 hmatch
    refine ⟨picks ++ [{ sym := sym, code := tail ++ [b] }], [], by simp, ?_, ?_,
      fun p hp hpre => absurd (List.prefix_nil.1 hpre) hp⟩
    · refine List.forall_mem_append.2 ⟨hfirst, List.forall_mem_singleton.2 ⟨?_, hpick⟩⟩
      exact List.append_ne_nil_of_right_ne_nil _ (List.cons_ne_nil _ _)
    · refine List.forall_mem_append.2 ⟨hshortest, List.forall_mem_singleton.2 fun p hp hpre hne => ?_⟩
      exact hunmatched p hp ((List.prefix_concat_iff.1 hpre).resolve_left hne)

theorem exists_cut (t : List CtabEntry) (bits : Bits) : ∃ picks tail, Cut t bits picks tail := by
  induction bits using List.reverseRecOn with
  | nil =>
    exact ⟨[], [], rfl, fun _ h => (nomatch h), fun _ h => (nomatch h), fun p hp hpre => absurd (List.prefix_nil.1 hpre) hp⟩
  | append_singleton bits b ih =>
    obtain ⟨picks, tail, hcut⟩ := ih
    exact hcut.exists_append_bit b

/-- Each symbol takes a bit at least, and what is left are bits of the input. -/
theorem decodeSyms_length_le (t : List CtabEntry) (cand bs : Bits) :
    (decodeSyms t cand bs).1.length ≤ bs.length ∧
      (decodeSyms t cand bs).2.length ≤ cand.length + bs.length := by
  induction bs generalizing cand with
  | nil => exact ⟨Nat.zero_le _, Nat.le_refl _⟩
  | cons b bs ih =>
    simp only [decodeSyms, List.length_cons]
    cases matchCode t (cand ++ [b]) with
    | none =>
      obtain ⟨hsyms, hrest⟩ := ih (cand ++ [b])
      rw [List.length_append, List.length_singleton] at hrest
      dsimp only
      exact ⟨by omega, by omega⟩
    | some sym =>
      obtain ⟨hsyms, hrest⟩ := ih []
      rw [List.length_nil] at hrest
      dsimp only
      exact ⟨Nat.succ_le_succ hsyms, by omega⟩

end

/-! ### The command UNPACK (R204) -/

section
variable {s : State}

/-- The symbols UNPACK decodes from the payload, and the candidate it is left with. -/
def State.decoded (s : State) : Bytes × Bits := decodeSyms s.ctabValid [] (unpackBytes s.payload)

theorem exec_unpack_of_ready (h : s.ready .parsed) :
    exec .unpack s = .next (endCommand (unpackBody (beginCommand s))) := by
  have hlegal : legalIn .unpack s.phase = true := by rw [h.2]; rfl
  exact congrArg Host.Outcome.next (issueChecked_run h.1 hlegal)

/-- UNPACK emits the decoded symbols. -/
theorem unpackBody_of_inputFits (hfits : s.inputFits) : unpackBody s =
    (emitAll s.decoded.1 (beginUnpack s)).bind fun _ u =>
      .ok () (setUnpackCounts (8 * s.payload.length) s.decoded.2.length u) := by
  rw [unpackBody, if_neg (Bool.eq_false_iff.1 hfits.inputTooLong_eq), ← unpackBytes_length s.payload]
  dsimp only
  rw [scanBits_eq, Run.bind_assoc]
  rfl

/-- `s` after UNPACK of symbols that fit. -/
def State.afterUnpack (s : State) : State :=
  { s with
    busy := false, done := true, obuf := Store.writeFrom s.obuf 0 s.decoded.1,
    outLen := BitVec.ofNat 32 s.decoded.1.length, bitLen := BitVec.ofNat 32 (8 * s.payload.length),
    trailBits := BitVec.ofNat 32 s.decoded.2.length, trunc := s.decoded.2.length != 0 }

/-- `s` after UNPACK of symbols that do not fit. -/
def State.afterUnpackOverflow (s : State) : State :=
  { s with
    busy := false, done := true, err := true, errcode := .capacity,
    obuf := Store.writeFrom s.obuf 0 (s.decoded.1.take s.params.outMax.toNat), outLen := s.params.outMax,
    bitLen := 0, trailBits := 0, trunc := false }

theorem exec_unpack_of_symbols_fit (hready : s.ready .parsed) (hfits : s.inputFits)
    (h : s.decoded.1.length ≤ s.params.outMax.toNat) : exec .unpack s = .next s.afterUnpack := by
  have hout : (0 : Word) + BitVec.ofNat 32 s.decoded.1.length = BitVec.ofNat 32 s.decoded.1.length :=
    BitVec.zero_add _
  have hemit : emitAll (beginCommand s).decoded.1 (beginUnpack (beginCommand s)) =
      .ok () ((beginUnpack (beginCommand s)).appendOut s.decoded.1) := emitAll_fits (Nat.zero_le _) h
  rw [exec_unpack_of_ready hready, unpackBody_of_inputFits (s := beginCommand s) hfits, hemit, Run.bind_ok,
    endCommand_ok, State.afterUnpack, ← hout]
  rfl

theorem exec_unpack_of_symbols_overflow (hready : s.ready .parsed) (hfits : s.inputFits)
    (h : s.params.outMax.toNat < s.decoded.1.length) : exec .unpack s = .next s.afterUnpackOverflow := by
  have hout := s.outMax_eq_take_length (Nat.le_of_lt h)
  have hemit : emitAll (beginCommand s).decoded.1 (beginUnpack (beginCommand s)) =
      .raised .capacity ((beginUnpack (beginCommand s)).appendOut (s.decoded.1.take s.params.outMax.toNat)) :=
    emitAll_overflows (Nat.zero_le _) h
  rw [exec_unpack_of_ready hready, unpackBody_of_inputFits (s := beginCommand s) hfits, hemit, Run.bind_raised,
    endCommand_raised]
  refine (congrArg Host.Outcome.next (raiseError_of_err_false (by exact hready.1) _)).trans ?_
  exact congrArg (fun n => Host.Outcome.next { s.afterUnpackOverflow with outLen := n }) hout

theorem writesOutput_afterUnpack (h : s.decoded.1.length ≤ s.params.outMax.toNat) :
    WritesOutput s s.decoded.1 s.afterUnpack := ⟨h, rfl, rfl, rfl⟩

theorem writesOutput_afterUnpackOverflow (h : s.params.outMax.toNat ≤ s.decoded.1.length) :
    WritesOutput s (s.decoded.1.take s.params.outMax.toNat) s.afterUnpackOverflow :=
  ⟨List.length_take_le _ _, rfl, ((BitVec.zero_add _).symm.trans (s.outMax_eq_take_length h)).symm, rfl⟩

/-- The payload lies in the input. -/
theorem State.payload_length_le (s : State) : s.payload.length ≤ s.inLen.toNat := by
  rw [payload_eq_drop, List.length_drop, input_length]
  exact Nat.sub_le _ _

/-- BITLEN does not wrap: a payload has at most 2^24 bytes. -/
theorem State.inputFits.payload_bits_lt (h : s.inputFits) : 8 * s.payload.length < 2 ^ 32 := by
  have hpayload := s.payload_length_le
  have hinput := h.input_length_le
  rw [s.input_length] at hinput
  omega

theorem State.decoded_length_le (s : State) :
    s.decoded.1.length ≤ 8 * s.payload.length ∧ s.decoded.2.length ≤ 8 * s.payload.length := by
  have hlen := decodeSyms_length_le s.ctabValid [] (unpackBytes s.payload)
  rwa [unpackBytes_length, List.length_nil, Nat.zero_add] at hlen

/-- TRUNC says whether TRAILBITS is 0 (R25, R208). -/
theorem State.inputFits.afterUnpack_trunc (h : s.inputFits) :
    s.afterUnpack.trailBits.toNat = s.decoded.2.length ∧ s.afterUnpack.trunc = (s.afterUnpack.trailBits != 0) := by
  have hlt := s.decoded_length_le.2.trans_lt h.payload_bits_lt
  exact ⟨(BitVec.toNat_ofNat ..).trans (Nat.mod_eq_of_lt hlt), (ofNat_bne_zero hlt).symm⟩

end

/-- Settles O48: the decoder's symbols and its last candidate are those of the one cut of the payload's bits. -/
theorem unpackFollowsTheMatchRule : Obligations.UnpackFollowsTheMatchRule := by
  intro s hready hfits
  obtain ⟨picks, tail, hcut⟩ := exists_cut s.ctabValid (unpackBytes s.payload)
  have hdecoded : s.decoded = (picks.map (·.sym), tail) := decodeSyms_of_cut hcut
  have hlen : s.decoded.1.length = picks.length := by rw [hdecoded, List.length_map]
  refine ⟨picks, tail, hcut, fun picks' tail' hcut' => ?_, fun hroom => ?_, fun hover => ?_⟩
  · exact Prod.mk.inj ((decodeSyms_of_cut hcut').symm.trans hdecoded)
  · have hwrites := writesOutput_afterUnpack (hlen.trans_le hroom)
    refine ⟨s.afterUnpack, exec_unpack_of_symbols_fit hready hfits (hlen.trans_le hroom), ?_, ?_,
      fun a ha => hwrites.obufByte_of_le (hwrites.outLen_toNat ▸ ha)⟩
    · rw [State.afterUnpack, hlen, hdecoded]
    · rw [hwrites.output, hdecoded]
  · have hwrites := writesOutput_afterUnpackOverflow (hover.le.trans_eq hlen.symm)
    refine ⟨s.afterUnpackOverflow, exec_unpack_of_symbols_overflow hready hfits (hover.trans_eq hlen.symm), rfl, ?_,
      fun a ha => hwrites.obufByte_of_le ((List.length_take_le _ _).trans ha)⟩
    rw [hwrites.output, hdecoded]

/-- Settles O49: a symbol takes a bit at least, so at most as many symbols as bits are emitted. -/
theorem unpackCompletesWithRoom : Obligations.UnpackCompletesWithRoom := by
  intro s hready hfits hroom
  obtain ⟨hsyms, hrest⟩ := s.decoded_length_le
  obtain ⟨htrail, htrunc⟩ := hfits.afterUnpack_trunc
  have hbits : s.afterUnpack.bitLen.toNat = 8 * s.payload.length :=
    (BitVec.toNat_ofNat ..).trans (Nat.mod_eq_of_lt hfits.payload_bits_lt)
  exact ⟨s.afterUnpack, exec_unpack_of_symbols_fit hready hfits (hsyms.trans hroom), hready.1, hbits,
    by rwa [htrail, hbits], htrunc⟩

/-! ### The command DEC (R210) -/

section
variable {s : State}

/-- Whatever the pseudocode of PARSE accepts, it ends in PARSED. -/
theorem parseBody_phase {s u : State} (h : parseBody s = .ok () u) : u.phase = .parsed := by
  rw [parseBody] at h
  split at h
  · cases h
  · dsimp only at h
    split at h
    · cases h
    · split at h
      · next l ls _ _ =>
        cases hp : parseTable ls (l.length + 1) { s with nent := 0, hdrLen := 0 } with
        | ok pos t =>
          rw [hp] at h
          cases h
          rfl
        | raised e t =>
          rw [hp] at h
          cases h
      · cases h

/-- Between PARSE and UNPACK the command only looks finished: BUSY and DONE are written again. -/
theorem beginCommand_finishCommand {s u : State} (h : u.fixed = (beginCommand s).fixed) :
    beginCommand (finishCommand u) = u := by
  have hbusy : u.busy = true := congrArg Fixed.busy h
  have hdone : u.done = false := congrArg Fixed.done h
  cases u
  cases hbusy
  cases hdone
  rfl

theorem exec_dec_of_parseBody_ok (hready : s.ready .empty) {u : State}
    (h : parseBody (beginCommand s) = .ok () u) :
    (finishCommand u).ready .parsed ∧ exec .dec s = exec .unpack (finishCommand u) := by
  have hfixed : u.fixed = (beginCommand s).fixed := by
    rw [← parseBody_fixed (beginCommand s), h]
    rfl
  have hparsed : (finishCommand u).ready .parsed :=
    ⟨(congrArg Fixed.err hfixed).trans hready.1, show u.phase = .parsed from parseBody_phase h⟩
  refine ⟨hparsed, ?_⟩
  rw [exec_dec_of_ready hready, exec_unpack_of_ready hparsed, beginCommand_finishCommand hfixed, decBody, h]
  rfl

end

/-- Settles O51: the body of DEC is the two bodies, and the issue of UNPACK between them changes nothing. -/
theorem decIsParseThenUnpack : Obligations.DecIsParseThenUnpack := by
  intro s hready
  refine ⟨_, exec_parse_of_ready hready, ?_⟩
  cases hparse : parseBody (beginCommand s) with
  | ok _ u =>
    obtain ⟨hparsed, hdec⟩ := exec_dec_of_parseBody_ok hready hparse
    exact ⟨fun _ => ⟨hparsed, hdec⟩, fun herr => absurd (herr.symm.trans hparsed.1) Bool.noConfusion⟩
  | raised e u =>
    refine ⟨fun herr => absurd herr Bool.noConfusion, fun _ => ?_⟩
    have hstop := exec_of_parseBody_raised (.inl rfl) hready hparse
    rw [exec_parse_of_ready hready, hparse] at hstop
    rw [exec_of_parseBody_raised (.inr rfl) hready hparse, hstop]

end Sys2Proof.Machine
end

