-- ==== Sys2Proof/Proofs/RoundTrip.lean ====
section
/-! PROOFS. DEC of the stream of a text gives the text, and the pad bits decoded (R207, R210, R264). -/

namespace Sys2Proof.Machine

/-! ### Bits packed and unpacked (R112) -/

theorem unpackBytes_packBits {w : Bits} (h : w.length % 8 = 0) : unpackBytes (packBits w) = w := by
  induction w using packBits.induct with
  | case1 a b c d e f g i w ih =>
    have hw : w.length % 8 = 0 := (Nat.add_mod_right ..).symm.trans h
    rw [packBits, unpackBytes_cons, bitsOfByte_byteOfBits, ih hw]
    rfl
  | case2 w hw =>
    have hnil : w = [] := by
      by_contra hne
      have hpos := List.length_pos_iff.2 hne
      have hpack := packBits_of_eight_le (w := w) (by omega)
      rw [packBits] at hpack
      · cases hpack
      · exact hw
    rw [hnil]
    rfl

/-- The payload's bits are the code bits and the padding (R113, R184). -/
theorem unpackBytes_encodedPayload (t : List CtabEntry) (x : Bytes) :
    unpackBytes (encodedPayload t x) = encodedBits t x ++ zeroBits (padCount (encodedBits t x).length) := by
  refine unpackBytes_packBits ?_
  rw [List.length_append, zeroBits, List.length_replicate]
  exact padCount_fills _

/-! ### The match rule on a `PrefixFree` table (R170, R205) -/

section
variable {t : List CtabEntry}

theorem PrefixFree.eq_of_code_prefix (h : PrefixFree t) {d e : CtabEntry} (hd : d ∈ t) (he : e ∈ t)
    (hpre : d.code <+: e.code) : d = e := by
  induction t with
  | nil => cases hd
  | cons x t ih =>
    obtain ⟨hx, ht⟩ := List.pairwise_cons.1 h
    rcases List.mem_cons.1 hd with hdx | hd <;> rcases List.mem_cons.1 he with hex | he
    · rw [hdx, hex]
    · exact absurd (hdx ▸ hpre) (hx e he).1
    · exact absurd (hex ▸ hpre) (hx d hd).2
    · exact ih ht hd he

theorem PrefixFree.codes_nodup (h : PrefixFree t) : (t.map (·.code)).Nodup :=
  List.pairwise_map.2 (h.imp fun hxy heq => hxy.1 (by rw [heq]))

/-- The decoder takes a code for its symbol as soon as it is whole. -/
theorem PrefixFree.decodeSyms_code (h : PrefixFree t) {e : CtabEntry} (he : e ∈ t) (hne : e.code ≠ []) :
    decodeSyms t [] e.code = ([e.sym], []) := by
  refine Machine.decodeSyms_code t [] e.code e.sym hne ((matchCode_eq_some_iff h.codes_nodup).2 he)
    fun p hp hpre hpe => matchCode_none.2 fun d hd hcode => hpe ?_
  rw [List.nil_append] at hcode
  rw [← hcode, h.eq_of_code_prefix hd he (hcode ▸ hpre)]

/-- The code bits of a known text decode to the text. -/
theorem PrefixFree.decodeSyms_encodedBits (h : PrefixFree t) (hcodes : CodesBounded t) {x : Bytes}
    (hx : hasUnknown t x = false) : decodeSyms t [] (encodedBits t x) = (x, []) := by
  induction x with
  | nil => rfl
  | cons b x ih =>
    obtain ⟨hb, hx⟩ := Bool.or_eq_false_iff.1 ((List.any_cons ..).symm.trans hx)
    obtain ⟨c, hc⟩ := Option.isSome_iff_exists.1 (Option.isNone_eq_false_iff.1 hb)
    have hmem := findCode_mem hc
    have hcode : decodeSyms t [] c = ([b], []) :=
      h.decodeSyms_code hmem (List.length_pos_iff.1 (hcodes _ hmem).1)
    have hbits : encodedBits t (b :: x) = c ++ encodedBits t x := by simp [encodedBits, hc]
    rw [hbits, decodeSyms_append, hcode, ih hx]
    rfl

/-! ### The pad bits (R207) -/

/-- A code of zeros decodes from zeros as often as it fits; the rest is left. -/
theorem PrefixFree.decodeSyms_zeroBits (h : PrefixFree t) {e : CtabEntry} (he : e ∈ t) (hne : e.code ≠ [])
    (hzero : ∀ b ∈ e.code, b = false) (n : Nat) :
    decodeSyms t [] (zeroBits n) =
      (List.replicate (n / e.code.length) e.sym, zeroBits (n % e.code.length)) := by
  have hcode : e.code = zeroBits e.code.length := List.eq_replicate_of_mem hzero
  have hpos := List.length_pos_iff.2 hne
  induction n using Nat.strongRecOn with
  | ind n ih =>
    by_cases hlt : n < e.code.length
    · rw [Nat.div_eq_of_lt hlt, Nat.mod_eq_of_lt hlt]
      refine decodeSyms_noMatch t [] (zeroBits n) fun p hp hpre => matchCode_none.2 fun d hd hdp => ?_
      rw [List.nil_append] at hdp
      obtain ⟨hplen, hpzero⟩ := List.prefix_replicate_iff.1 hpre
      have hpre' : d.code <+: e.code := by
        rw [hdp, hcode]
        exact List.prefix_replicate_iff.2 ⟨hplen.trans hlt.le, hpzero⟩
      have hlen := congrArg List.length hdp
      rw [h.eq_of_code_prefix hd he hpre'] at hlen
      omega
    · have hge := not_lt.1 hlt
      have hsplit : zeroBits n = e.code ++ zeroBits (n - e.code.length) := by
        conv_rhs => rw [hcode]
        rw [zeroBits, zeroBits, zeroBits, List.replicate_append_replicate, List.length_replicate,
          Nat.add_sub_cancel' hge]
      rw [hsplit, decodeSyms_append, h.decodeSyms_code he hne, ih _ (by omega), Nat.div_eq_sub_div hpos hge,
        Nat.mod_eq_sub_mod hge, List.replicate_succ]
      rfl

/-- With no code of zeros, zeros are left over. -/
theorem decodeSyms_zeroBits_of_no_zero_code (h : ∀ e ∈ t, ∃ b ∈ e.code, b = true) (n : Nat) :
    decodeSyms t [] (zeroBits n) = ([], zeroBits n) := by
  refine decodeSyms_noMatch t [] (zeroBits n) fun p _ hpre => matchCode_none.2 fun d hd hdp => ?_
  rw [List.nil_append] at hdp
  obtain ⟨b, hb, htrue⟩ := h d hd
  have hfalse := List.eq_of_mem_replicate (hpre.subset (hdp ▸ hb))
  exact Bool.false_ne_true (hfalse.symm.trans htrue)

/-- Two codes of zeros are the same entry. -/
theorem PrefixFree.eq_of_zero_codes (h : PrefixFree t) {d e : CtabEntry} (hd : d ∈ t) (he : e ∈ t)
    (hdz : ∀ b ∈ d.code, b = false) (hez : ∀ b ∈ e.code, b = false) : d = e := by
  have hdc : d.code = zeroBits d.code.length := List.eq_replicate_of_mem hdz
  have hec : e.code = zeroBits e.code.length := List.eq_replicate_of_mem hez
  rcases Nat.le_total d.code.length e.code.length with hle | hle
  · exact h.eq_of_code_prefix hd he (hec ▸ List.prefix_replicate_iff.2 ⟨hle, hdc⟩)
  · exact (h.eq_of_code_prefix he hd (hdc ▸ List.prefix_replicate_iff.2 ⟨hle, hec⟩)).symm

end

/-! ### DEC of a stream (R207, R210) -/

/-- What the pad bits of a text decode to: copies of the symbol with the code of zeros, and a rest. -/
def padDecoded (t : List CtabEntry) (x : Bytes) : Bytes × Bits :=
  decodeSyms t [] (zeroBits (padCount (encodedBits t x).length))

/-- At most seven bits are pad bits, so at most seven symbols come of them. -/
theorem padDecoded_length_le (t : List CtabEntry) (x : Bytes) : (padDecoded t x).1.length ≤ 7 := by
  have hlen := (decodeSyms_length_le t [] (zeroBits (padCount (encodedBits t x).length))).1
  have hpad := padCount_lt (encodedBits t x).length
  rw [zeroBits, List.length_replicate] at hlen
  exact hlen.trans (Nat.le_of_lt_succ hpad)

section
variable {s : State} {T : List CtabEntry} {x : Bytes}

/-- What DEC asks of a stream: a table a header can carry, `PrefixFree`, with every byte of the text. -/
structure Decodable (T : List CtabEntry) (x : Bytes) : Prop where
  fits : TableFits T
  prefixFree : PrefixFree T
  known : hasUnknown T x = false

theorem Decodable.decodeSyms_payload (h : Decodable T x) :
    decodeSyms T [] (unpackBytes (encodedPayload T x)) = (x ++ (padDecoded T x).1, (padDecoded T x).2) := by
  rw [unpackBytes_encodedPayload, decodeSyms_append,
    h.prefixFree.decodeSyms_encodedBits h.fits.2 h.known]
  rfl

theorem Decodable.padDecoded_of_zero_code (h : Decodable T x) {e : CtabEntry} (he : e ∈ T)
    (hzero : ∀ b ∈ e.code, b = false) : padDecoded T x =
      (List.replicate (padCount (encodedBits T x).length / e.code.length) e.sym,
        zeroBits (padCount (encodedBits T x).length % e.code.length)) :=
  h.prefixFree.decodeSyms_zeroBits he (List.length_pos_iff.1 (h.fits.2 e he).1) hzero _

/-- The state between PARSE and UNPACK of a stream with table `T`. -/
def State.parsedWith (s : State) (T : List CtabEntry) : State := s.afterParse T (header T).length

/-- It writes neither OBUF nor the slots beyond the table. -/
theorem State.parsedWith_obufByte (s : State) (T : List CtabEntry) (a : Nat) :
    (s.parsedWith T).obufByte a = s.obufByte a := rfl

theorem State.parsedWith_ctabSlot_of_le {i : Nat} (h : T.length ≤ i) :
    (s.parsedWith T).ctabSlot i = s.ctabSlot i := s.withTable_ctabSlot_of_le h

theorem State.parsedWith_ctabValid (hT : TableFits T) : (s.parsedWith T).ctabValid = T :=
  s.withTable_ctabValid hT.1

/-- PARSE leaves the payload of the stream to UNPACK (R202). -/
theorem State.parsedWith_payload (hready : s.ready .empty) (hfits : s.inputFits) (hT : TableFits T)
    (hinput : s.input = encodedStream T x) : (s.parsedWith T).payload = encodedPayload T x := by
  obtain ⟨u, hu, -, -, -, hpayload, -⟩ :=
    parseRecoversTheTable s T (encodedPayload T x) hready hfits hT hinput
  obtain rfl : s.parsedWith T = u :=
    Host.Outcome.next.inj ((exec_parse_of_header hready hfits hT hinput).symm.trans hu)
  exact hpayload

theorem State.parsedWith_decoded (hready : s.ready .empty) (hfits : s.inputFits) (h : Decodable T x)
    (hinput : s.input = encodedStream T x) :
    (s.parsedWith T).decoded = (x ++ (padDecoded T x).1, (padDecoded T x).2) := by
  rw [decoded, parsedWith_ctabValid h.fits, parsedWith_payload hready hfits h.fits hinput, h.decodeSyms_payload]

/-- The text and at most seven more symbols fit OBUF. -/
theorem State.parsedWith_decoded_fits (hready : s.ready .empty) (hfits : s.inputFits) (h : Decodable T x)
    (hinput : s.input = encodedStream T x) (hroom : x.length + 7 ≤ s.params.outMax.toNat) :
    (s.parsedWith T).decoded.1.length ≤ (s.parsedWith T).params.outMax.toNat := by
  have hpad := padDecoded_length_le T x
  rw [parsedWith_decoded hready hfits h hinput, List.length_append]
  show _ ≤ s.params.outMax.toNat
  omega

/-- DEC of a stream ends where UNPACK of its payload does (R210). -/
theorem exec_dec_of_stream (hready : s.ready .empty) (hfits : s.inputFits) (h : Decodable T x)
    (hinput : s.input = encodedStream T x) (hroom : x.length + 7 ≤ s.params.outMax.toNat) :
    exec .dec s = .next (s.parsedWith T).afterUnpack := by
  obtain ⟨u, hu, hok, -⟩ := decIsParseThenUnpack s hready
  obtain rfl : s.parsedWith T = u :=
    Host.Outcome.next.inj ((exec_parse_of_header hready hfits h.fits hinput).symm.trans hu)
  obtain ⟨hparsed, hdec⟩ := hok hready.1
  exact hdec.trans (exec_unpack_of_symbols_fit hparsed hfits
    (State.parsedWith_decoded_fits hready hfits h hinput hroom))

/-- UNPACK of symbols that fit changes the output and its registers only. -/
theorem State.afterUnpack_frame (h : s.inputFits) : s.afterUnpack = { s with
    busy := false, done := true, obuf := s.afterUnpack.obuf, outLen := s.afterUnpack.outLen,
    bitLen := s.afterUnpack.bitLen, trailBits := s.afterUnpack.trailBits,
    trunc := s.afterUnpack.trailBits != 0 } := by
  rw [← h.afterUnpack_trunc.2, afterUnpack]

@[simp] theorem State.afterUnpack_ctabValid (s : State) : s.afterUnpack.ctabValid = s.ctabValid := rfl

@[simp] theorem State.afterUnpack_ctabSlot (s : State) (i : Nat) : s.afterUnpack.ctabSlot i = s.ctabSlot i := rfl

/-- DEC changes the code table too. -/
theorem State.parsedWith_afterUnpack_frame (h : (s.parsedWith T).inputFits) : (s.parsedWith T).afterUnpack = { s with
    busy := false, done := true, phase := .parsed, ctab := (s.parsedWith T).afterUnpack.ctab,
    nent := BitVec.ofNat 32 T.length, hdrLen := BitVec.ofNat 32 (header T).length,
    obuf := (s.parsedWith T).afterUnpack.obuf, outLen := (s.parsedWith T).afterUnpack.outLen,
    bitLen := (s.parsedWith T).afterUnpack.bitLen, trailBits := (s.parsedWith T).afterUnpack.trailBits,
    trunc := (s.parsedWith T).afterUnpack.trailBits != 0 } :=
  (afterUnpack_frame h).trans rfl

end

/-- Settles O52: PARSE gives the table back, the code bits decode to the text, code by code, and the pad bits
to as many copies of the symbol with the code of zeros as fit. -/
theorem decOfAnEncodedStream : Obligations.DecOfAnEncodedStream := by
  intro s T x hready hfits hT hfree hknown hinput hroom
  have h : Decodable T x := ⟨hT, hfree, hknown⟩
  have hfits' : (s.parsedWith T).inputFits := hfits
  have hdecoded := State.parsedWith_decoded hready hfits h hinput
  have hwrites := writesOutput_afterUnpack (State.parsedWith_decoded_fits hready hfits h hinput hroom)
  have hout := hwrites.output
  have htrail := hfits'.afterUnpack_trunc.1
  rw [hdecoded] at hout htrail
  have hbits : (s.parsedWith T).afterUnpack.bitLen.toNat = 8 * (s.parsedWith T).payload.length :=
    (BitVec.toNat_ofNat ..).trans (Nat.mod_eq_of_lt hfits'.payload_bits_lt)
  refine ⟨(s.parsedWith T).afterUnpack, (padDecoded T x).1, exec_dec_of_stream hready hfits h hinput hroom,
    State.parsedWith_afterUnpack_frame hfits', ?_, hout, ?_, fun e he hzero => ?_, fun hnone => ?_,
    fun a ha => ?_, fun i hi => ?_⟩
  · rw [State.afterUnpack_ctabValid, State.parsedWith_ctabValid hT]
  · rw [hbits, State.parsedWith_payload hready hfits hT hinput, ← unpackBytes_length, unpackBytes_encodedPayload,
      List.length_append, zeroBits, List.length_replicate]
  · rw [htrail, h.padDecoded_of_zero_code he hzero, zeroBits, List.length_replicate]
    exact ⟨rfl, rfl⟩
  · rw [htrail, padDecoded, decodeSyms_zeroBits_of_no_zero_code hnone, zeroBits, List.length_replicate]
    exact ⟨rfl, rfl⟩
  · rw [hwrites.obufByte_of_le (hwrites.outLen_toNat ▸ ha), State.parsedWith_obufByte]
  · rw [State.afterUnpack_ctabSlot, State.parsedWith_ctabSlot_of_le hi]

/-! ### DEC of what ENC wrote (R207, R264) -/

section
variable {s t : State}

/-- ENC that raises no error has written the whole stream. -/
theorem exec_enc_of_err_false (hready : s.ready .empty) (hfits : s.inputFits) (h : exec .enc s = .next t)
    (herr : t.err = false) :
    (encodedStream s.built.ctabValid s.input).length ≤ s.params.outMax.toNat ∧ t = s.built.afterPack := by
  by_cases hroom : (encodedStream s.built.ctabValid s.input).length ≤ s.params.outMax.toNat
  · exact ⟨hroom, Host.Outcome.next.inj (h.symm.trans (exec_enc_of_stream_fits hready hfits hroom))⟩
  · obtain ⟨nf, hexec, -⟩ := exec_pack_of_stream_overflows (s := s.built) ⟨hready.1, rfl⟩ hfits (not_le.1 hroom)
    rw [exec_enc_of_inputFits hready hfits, hexec] at h
    obtain rfl := Host.Outcome.next.inj h
    exact absurd herr Bool.noConfusion

theorem State.inputFits.decodable_built (h : s.inputFits) : Decodable s.built.ctabValid s.input where
  fits := ⟨h.built_ctabValid_length, h.codesBounded_built⟩
  prefixFree := h.prefixFree_built
  known := h.hasUnknown_built

/-- A text of one byte or more has a symbol whose code is all zeros. -/
theorem State.inputFits.exists_zero_code_built (h : s.inputFits) (hne : s.input ≠ []) :
    ∃ e ∈ s.built.ctabValid, ∀ b ∈ e.code, b = false := by
  obtain ⟨b, hb⟩ := List.exists_mem_of_ne_nil _ hne
  rw [built_ctabValid]
  refine h.treed.exists_zero_code (List.ne_nil_of_length_pos ?_)
  have hsym := (h.mem_built_syms b).2 hb
  rw [built_ctabValid, codeTable_syms] at hsym
  exact (List.length_pos_of_mem hsym).trans_eq (List.length_map ..)

end

/-- Settles O53: ENC's table is `PrefixFree` and has every byte of the text, so O52 applies to its output; the
leftmost leaf of the tree has the one code of zeros. -/
theorem decOfEncIsTheText : Obligations.DecOfEncIsTheText := by
  intro s t s' hready hfits henc herr hready' hfits' hinput hroom
  obtain ⟨hstream, rfl⟩ := exec_enc_of_err_false hready hfits henc herr
  have h := hfits.decodable_built
  rw [(writesOutput_afterPack (s := s.built) hstream).output] at hinput
  obtain ⟨t', y, hdec, hframe, hctab, hout, -, hzero, hnone, -, -⟩ := decOfAnEncodedStream s' s.built.ctabValid s.input
    hready' hfits' h.fits h.prefixFree h.known hinput hroom
  have herr' : t'.err = false := by rw [hframe]; exact hready'.1
  have hphase : t'.phase = .parsed := by rw [hframe]
  have hpad : s.built.afterPack.padBits.toNat = padCount (encodedBits s.built.ctabValid s.input).length :=
    padBits_toNat _
  rw [← hpad] at hzero hnone
  refine ⟨t', y, hdec, herr', hphase, hctab, hout, fun hpad0 => ?_, fun hne => ?_⟩
  · rw [hpad0] at hzero hnone
    by_cases hex : ∃ e ∈ s.built.ctabValid, ∀ b ∈ e.code, b = false
    · obtain ⟨e, he, hez⟩ := hex
      obtain ⟨hy, htrail⟩ := hzero e he hez
      exact ⟨by simpa using hy, BitVec.eq_of_toNat_eq (by simpa using htrail)⟩
    · obtain ⟨hy, htrail⟩ := hnone fun e he => by
        by_contra hno
        exact hex ⟨e, he, fun b hb => Bool.eq_false_iff.2 fun hb' => hno ⟨b, hb, hb'⟩⟩
      exact ⟨hy, BitVec.eq_of_toNat_eq htrail⟩
  · obtain ⟨e, he, hez⟩ := hfits.exists_zero_code_built hne
    obtain ⟨hy, htrail⟩ := hzero e he hez
    have hpos := (h.fits.2 e he).1
    refine ⟨e.sym, e.code, he, hez, fun d hd hdz => h.prefixFree.eq_of_zero_codes hd he hdz hez, hy, htrail, ?_⟩
    rw [hy, List.replicate_eq_nil_iff, Nat.div_eq_zero_iff_lt hpos]

end Sys2Proof.Machine
end

