-- ==== Sys2Proof/Proofs/HostAccesses.lean ====
section
/-! PROOFS. The step as the host's oldest access (R22, R71), what the reads and writes of an idle and of a busy
block do (R62, R63, R64, R262), and the state after reset (R44, R250). -/

namespace Sys2Proof.Machine

/-! ### One step -/

theorem step_nil {s : State} (h : s.hostQueue = []) : step s = .next s := by
  rw [step, h]

theorem step_cons {s : State} {a : HostAccess} {rest : List HostAccess} (h : s.hostQueue = a :: rest) :
    step s = hostStep a { s with hostQueue := rest } := by
  rw [step, h]

/-- A write of CMD in an idle block issues the word (R22). -/
theorem hostStep_cmd_idle {s : State} (h : s.busy = false) (w : Word) :
    hostStep (.regWrite 0 w) s = issueWord w s := by
  simp [hostStep, hostCmdWrite, h]

theorem issueWord_of_command {w : Word} {i : Instr} (h : decode w = .command i) (s : State) :
    issueWord w s = exec i s := by
  rw [issueWord, h]

/-- Settles O4: the queue's head is the access, and a write of CMD in an idle block is the issue of its word. -/
theorem stepRunsTheIssuedCommand : Obligations.StepRunsTheIssuedCommand := by
  refine ⟨fun s w i rest hidle hqueue hdecode => ?_, fun s w why rest hidle hqueue hdecode => ?_,
    fun s a rest => step_cons, fun s => step_nil⟩
  · rw [step_cons hqueue, hostStep_cmd_idle (s := { s with hostQueue := rest }) hidle, issueWord_of_command hdecode]
  · rw [step_cons hqueue, hostStep_cmd_idle (s := { s with hostQueue := rest }) hidle, issueWord_of_illegal hdecode]

/-- Settles O5: the placed word is the oldest access and the block is idle. -/
theorem nextStepRunsThePlacedWord : Obligations.NextStepRunsThePlacedWord := by
  intro s w i h
  have hdecode : decode (BitVec.ofNat 32 (w % 2 ^ 32)) = .command i := by
    rw [decodeTableWord, if_pos (Nat.mod_lt _ (by decide)), decode?_eq_some_iff] at h
    exact h
  exact stepRunsTheIssuedCommand.1 (s.withFetchWord 32 w) _ i s.hostQueue rfl rfl hdecode

/-! ### An input longer than IN_MAX (R225) -/

/-- The commands that read IBUF, with the phase each may run in. -/
def readsInput : Instr → Option Phase
  | .freq => some .empty
  | .pack => some .coded
  | .enc => some .empty
  | .parse => some .empty
  | .unpack => some .parsed
  | .dec => some .empty
  | _ => none

theorem bodyOf_of_inputTooLong {i : Instr} {p : Phase} (hi : readsInput i = some p) {s : State}
    (h : s.inputTooLong = true) : bodyOf i s = .raised .capacity s := by
  have hfreq : freqBody s = .raised .capacity s := if_pos h
  have hparse : parseBody s = .raised .capacity s := if_pos h
  cases i with
  | freq => exact hfreq
  | pack => exact if_pos h
  | enc => exact congrArg (Run.bind · _) hfreq
  | parse => exact hparse
  | unpack => exact if_pos h
  | dec => exact congrArg (Run.bind · _) hparse
  | _ => cases hi

theorem exec_of_inputTooLong {i : Instr} {p : Phase} (hi : readsInput i = some p) {s : State} (hready : s.ready p)
    (h : s.params.inMax.val < s.inLen.toNat) :
    exec i s = .next { s with busy := false, done := true, err := true, errcode := .capacity } := by
  have hlegal : legalIn i s.phase = true := by
    rw [hready.2]
    cases i <;> cases hi <;> rfl
  have hbody := bodyOf_of_inputTooLong hi (s := beginCommand s) (decide_eq_true h)
  rcases exec_cases i s with ⟨rfl, -⟩ | ⟨rfl, -⟩ | ⟨-, -, hexec⟩
  · cases hi
  · cases hi
  · rw [hexec, issueChecked_run hready.1 hlegal, hbody, endCommand_raised, raiseError_beginCommand hready.1]

/-- Settles O11: the first line of each of these pseudocodes is the check. -/
theorem inputTooLongRaisesCapacity : Obligations.InputTooLongRaisesCapacity := by
  intro s i hlong hready
  rcases hready with ⟨rfl | rfl | rfl | rfl, hready⟩ | ⟨rfl, hready⟩ | ⟨rfl, hready⟩ <;>
    exact exec_of_inputTooLong rfl hready hlong

/-! ### Register reads (R21, R23, R31) -/

/-- A flag is its own bit and no other. -/
theorem getLsbD_flagAt {n : Nat} (hn : n < 32) (k : Nat) (b : Bool) :
    (flagAt n b).getLsbD k = (decide (k = n) && b) := by
  by_cases hk : k = n
  · subst hk
    cases b with
    | false => simp [flagAt]
    | true =>
      show (BitVec.ofNat 32 (1 <<< k)).getLsbD k = _
      rw [BitVec.getLsbD_ofNat, Nat.one_shiftLeft, Nat.testBit_two_pow_self, decide_eq_true hn]
      simp
  · rw [getLsbD_flagAt_of_ne b hk, decide_eq_false hk, Bool.false_and]

/-- STATUS bit by bit: each flag at its place, PHASE from bit 8 on. -/
theorem statusWord_getLsbD (s : State) (k : Nat) : s.statusWord.getLsbD k =
    ((decide (k = 0) && s.busy) || (decide (k = 1) && s.done) || (decide (k = 2) && s.err) ||
      (decide (k = 3) && s.nf) || (decide (k = 4) && s.pad) || (decide (k = 5) && s.trunc) ||
      (decide (k < 32) && !decide (k < 8) && (BitVec.ofNat 32 s.phase.code).getLsbD (k - 8))) := by
  simp (disch := decide) only [State.statusWord, BitVec.getLsbD_or, getLsbD_flagAt, BitVec.getLsbD_shiftLeft]

theorem statusWord_flags (s : State) : s.statusWord.getLsbD 0 = s.busy ∧ s.statusWord.getLsbD 1 = s.done ∧
    s.statusWord.getLsbD 2 = s.err ∧ s.statusWord.getLsbD 3 = s.nf ∧ s.statusWord.getLsbD 4 = s.pad ∧
    s.statusWord.getLsbD 5 = s.trunc := by
  simp only [statusWord_getLsbD]
  simp

/-- PHASE is bits 10:8 of STATUS. -/
theorem statusWord_phase (s : State) : (s.statusWord.extractLsb' 8 3).toNat = s.phase.code := by
  have hbits : s.statusWord.extractLsb' 8 3 = BitVec.ofNat 3 s.phase.code := by
    refine BitVec.eq_of_getLsbD_eq fun k hk => ?_
    have hflag : ∀ n ≤ 5, decide (8 + k = n) = false := fun n hn => decide_eq_false (by omega)
    rw [BitVec.getLsbD_extractLsb', statusWord_getLsbD, BitVec.getLsbD_ofNat, BitVec.getLsbD_ofNat]
    simp [hk, hflag, show 8 + k < 32 by omega, show k < 32 by omega]
  rw [hbits, BitVec.toNat_ofNat, Nat.mod_eq_of_lt s.phase.code_lt]

/-- RES bit by bit. -/
theorem resWord_getLsbD (s : State) (k : Nat) : s.resWord.getLsbD k =
    ((decide (k = 31) && s.resFound) || (decide (k < 32) && !decide (k < 8) && s.resSym.getLsbD (k - 8)) ||
      (decide (k < 32) && s.resLen.getLsbD k)) := by
  have hsym : (decide (k < 32) && !decide (k < 8) && (decide (k - 8 < 32) && s.resSym.getLsbD (k - 8))) =
      (decide (k < 32) && !decide (k < 8) && s.resSym.getLsbD (k - 8)) := by
    by_cases hk : k < 32
    · simp [hk, show k - 8 < 32 by omega]
    · simp [hk]
  simp (disch := decide) only [State.resWord, BitVec.getLsbD_or, getLsbD_flagAt, BitVec.getLsbD_shiftLeft,
    BitVec.zeroExtend, BitVec.getLsbD_setWidth, hsym]

/-- The fields of RES. -/
theorem resWord_fields (s : State) : s.resWord.getLsbD 31 = s.resFound ∧
    s.resWord.extractLsb' 8 8 = s.resSym ∧ s.resWord.extractLsb' 0 8 = s.resLen := by
  refine ⟨?_, BitVec.eq_of_getLsbD_eq fun k hk => ?_, BitVec.eq_of_getLsbD_eq fun k hk => ?_⟩
  · rw [resWord_getLsbD, BitVec.getLsbD_of_ge s.resSym (31 - 8) (by decide), BitVec.getLsbD_of_ge s.resLen 31 (by decide)]
    simp
  · rw [BitVec.getLsbD_extractLsb', resWord_getLsbD, BitVec.getLsbD_of_ge s.resLen (8 + k) (by omega)]
    simp [hk, show 8 + k ≠ 31 by omega, show 8 + k < 32 by omega]
  · rw [BitVec.getLsbD_extractLsb', resWord_getLsbD, Nat.zero_add]
    simp [hk, show k ≠ 31 by omega, show k < 32 by omega]

/-- Settles O13: the map of registers by number, and the words of STATUS and RES field by field. -/
theorem registerReadsByNumber : Obligations.RegisterReadsByNumber := by
  intro s
  obtain ⟨h0, h1, h2, h3, h4, h5⟩ := statusWord_flags s
  obtain ⟨hfound, hsym, hlen⟩ := resWord_fields s
  have hroot : (s.regValue 8).toNat = s.root.toNat := by
    show (s.root.zeroExtend 32).toNat = _
    exact BitVec.toNat_setWidth_of_le (by decide)
  exact ⟨fun n hidle => hostStep_regRead_idle hidle n, rfl, rfl, rfl, rfl, rfl, rfl, hroot, rfl, rfl, rfl, rfl,
    s.regValue_resCode, h0, h1, h2, h3, h4, h5, statusWord_phase s, hfound, hsym, hlen, rfl, rfl, rfl, rfl, rfl, rfl,
    rfl, rfl, rfl, rfl, rfl, rfl⟩

/-! ### The other accesses (R62, R63, R64) -/

/-- `t` is `s` but for the model's own record of reads (log entries 5 and 6). -/
def OnlyRead (s t : State) : Prop := ∃ d n, t = { s with lastRead := d, freeCount := n }

theorem onlyRead_readsAs (d : HostData) (s : State) : OnlyRead s (readsAs d s) := ⟨d, s.freeCount, rfl⟩

theorem onlyRead_readsFree (d : HostData) (s : State) : OnlyRead s (readsFree d s) := ⟨d, _, rfl⟩

theorem OnlyRead.ite {s t u : State} {p : Prop} [Decidable p] (ht : OnlyRead s t) (hu : OnlyRead s u) :
    OnlyRead s (if p then t else u) := by
  split
  · exact ht
  · exact hu

/-- An access that reads. -/
def HostAccess.isRead : HostAccess → Prop
  | .regRead _ | .ibufRead _ | .obufRead _ | .ftabRead _ | .ctabRead _ | .nodeRead _ => True
  | .regWrite _ _ | .ibufWrite _ _ | .reset => False

theorem hostStep_onlyRead {a : HostAccess} (h : a.isRead) (s : State) :
    ∃ t, hostStep a s = .next t ∧ OnlyRead s t := by
  cases a with
  | regRead n =>
    exact ⟨_, rfl, .ite (.ite (onlyRead_readsFree _ s) (onlyRead_readsFree _ s)) (onlyRead_readsAs _ s)⟩
  | ibufRead b => exact ⟨_, rfl, .ite (onlyRead_readsAs _ s) (onlyRead_readsFree _ s)⟩
  | obufRead b => exact ⟨_, rfl, .ite (onlyRead_readsAs _ s) (onlyRead_readsFree _ s)⟩
  | ftabRead i => exact ⟨_, rfl, .ite (onlyRead_readsAs _ s) (onlyRead_readsFree _ s)⟩
  | ctabRead i => exact ⟨_, rfl, .ite (onlyRead_readsAs _ s) (onlyRead_readsFree _ s)⟩
  | nodeRead i => exact ⟨_, rfl, .ite (onlyRead_readsAs _ s) (onlyRead_readsFree _ s)⟩
  | regWrite _ _ => exact h.elim
  | ibufWrite _ _ => exact h.elim
  | reset => exact h.elim

/-- Settles O15: every branch of every read is a `readsAs` or a `readsFree`. -/
theorem hostReadsChangeNothing : Obligations.HostReadsChangeNothing := by
  intro s a ⟨n, ha⟩
  have hread : a.isRead := by rcases ha with rfl | rfl | rfl | rfl | rfl | rfl <;> trivial
  obtain ⟨t, ht, d, m, rfl⟩ := hostStep_onlyRead hread s
  exact ⟨d, m, ht⟩

/-- Settles O16: in an idle block a valid place passes the check of its read. -/
theorem hostReadsReturnValidPlaces : Obligations.HostReadsReturnValidPlaces := fun _ hidle =>
  ⟨fun _ ha => congrArg Host.Outcome.next (if_pos ⟨hidle, ha⟩),
    fun _ hmax hlen => congrArg Host.Outcome.next (if_pos ⟨hidle, hmax, hlen⟩),
    fun _ hi => congrArg Host.Outcome.next (if_pos ⟨hidle, hi⟩),
    fun _ hi => congrArg Host.Outcome.next (if_pos ⟨hidle, hi⟩),
    fun _ hi => congrArg Host.Outcome.next (if_pos ⟨hidle, hi⟩)⟩

theorem hostStep_ibufWrite_idle {s : State} (hidle : s.busy = false) (a : Nat) (b : Byte) :
    hostStep (.ibufWrite a b) s =
      .next (if a < s.params.inMax.val then { s with ibuf := Store.write s.ibuf a b } else s) := by
  rw [hostStep, hostIbufWrite, hidle]
  rfl

/-- Settles O17: a byte written is read back, and reads of other places go past it. -/
theorem hostWritesReachOnlyTheirPlace : Obligations.HostWritesReachOnlyTheirPlace := by
  intro s hidle
  refine ⟨fun v => ?_, fun a b ha => ?_, fun a b ha => ?_⟩
  · simp [hostStep, hostRegWrite, hidle]
  · refine ⟨{ s with ibuf := Store.write s.ibuf a b }, ?_, rfl, ?_, fun a' hne => ?_⟩
    · rw [hostStep_ibufWrite_idle hidle, if_pos ha]
    · rw [State.ibufByte, Store.read_write_same, Option.getD_some]
    · rw [State.ibufByte, Store.read_write_ne _ _ hne.symm]
      rfl
  · rw [hostStep_ibufWrite_idle hidle, if_neg (not_lt.2 ha)]

/-! ### While BUSY = 1 (R262) -/

theorem busyStatusWord_flags (v : Word) :
    (busyStatusWord v).getLsbD 0 = true ∧ (busyStatusWord v).getLsbD 1 = false := by
  simp [busyStatusWord]

/-- Settles O18: BUSY = 1 fails the check of every write and of every read of a known value. -/
theorem busyHostAccessIsIgnored : Obligations.BusyHostAccessIsIgnored := by
  intro s hbusy
  have hidle : ∀ {q : Prop}, ¬ (s.busy = false ∧ q) := fun h => Bool.false_ne_true (h.1.symm.trans hbusy)
  obtain ⟨hset, hclear⟩ := busyStatusWord_flags (Config.freeWord s.freeCount)
  refine ⟨fun w => ?_, fun v => ?_, fun a b => ?_, ⟨_, hset, hclear, ?_⟩, fun a n ha => ?_⟩
  · simp [hostStep, hostCmdWrite, hbusy]
  · simp [hostStep, hostRegWrite, hbusy]
  · simp [hostStep, hostIbufWrite, hbusy]
  · rw [hostStep, hostRegRead, if_pos hbusy, if_pos rfl]
    rfl
  · rcases ha with ⟨rfl, hn⟩ | rfl | rfl | rfl | rfl | rfl
    · rw [hostStep, hostRegRead, if_pos hbusy, if_neg hn]
      exact ⟨_, rfl⟩
    · exact ⟨_, congrArg Host.Outcome.next (if_neg hidle)⟩
    · exact ⟨_, congrArg Host.Outcome.next (if_neg hidle)⟩
    · exact ⟨_, congrArg Host.Outcome.next (if_neg hidle)⟩
    · exact ⟨_, congrArg Host.Outcome.next (if_neg hidle)⟩
    · exact ⟨_, congrArg Host.Outcome.next (if_neg hidle)⟩

/-! ### Reset (R44, R250) -/

theorem statusWord_hostReset (s : State) : (hostReset s).statusWord = 0 := by
  simp [State.statusWord, hostReset, State.afterReset, flagAt, Phase.code]

theorem resWord_hostReset (s : State) : (hostReset s).resWord = 0 := by
  simp [State.resWord, hostReset, State.afterReset, flagAt]

/-- After reset every register is 0 but ROOT. -/
theorem regValue_hostReset (s : State) (n : Nat) : (hostReset s).regValue n = if n = 8 then 0x1FF else 0 := by
  match n with
  | 1 => exact statusWord_hostReset s
  | 13 => exact resWord_hostReset s
  | 0 | 2 | 3 | 4 | 5 | 6 | 7 | 8 | 9 | 10 | 11 | 12 | 14 | 15 | 16 | 17 | 18 | 19 | 20 | 21 | 22 | 23 => rfl
  | k + 24 => exact (regValue_reserved _ (.inr (.inr (Nat.le_add_left 24 k)))).trans (if_neg (by omega)).symm

/-- Settles O19: the reset state's registers by number; nothing is listed in any buffer or table. -/
theorem resetClearsTheRegisters : Obligations.ResetClearsTheRegisters := fun s =>
  ⟨hostReset s, rfl, rfl, rfl, rfl, rfl, rfl, rfl, regValue_hostReset s, rfl, rfl, rfl, rfl, rfl,
    fun _ => ⟨rfl, rfl, rfl, rfl, rfl⟩⟩

end Sys2Proof.Machine
end

