-- ==== Sys2Proof/Proofs/CommandEnds.lean ====
section
/-! PROOFS. The state at the end of each command, said once (R220, R230), and what follows of every command:
it finishes (R220), the phase machine (R231), the input is kept (R27, R74), the output beyond OUT_LEN is kept
(R42), NF is sticky (R25), the tables of a session do not change (R256). -/

namespace Sys2Proof.Machine

/-! ### PARSE of any input (R196, R199) -/

/-- What a line parses to has a code of 1 to 255 bits (R107). -/
theorem codeLength_of_parseEntry {l : Bytes} {e : CtabEntry} (h : parseEntry l = some e) :
    1 ≤ e.code.length ∧ e.code.length ≤ 255 := by
  rw [parseEntry] at h
  split at h
  · cases h
  · next sym text _ =>
    split at h
    · cases h
    · next hlen =>
      obtain ⟨c, hc, rfl⟩ := Option.map_eq_some_iff.1 h
      have htext := congrArg List.length (readCodeText_some hc)
      rw [codeText_length] at htext
      rw [Config.codeMax] at hlen
      show 1 ≤ c.length ∧ c.length ≤ 255
      omega

/-- `s` with more entries after those of CTAB. -/
def State.withEntries (s : State) (T : List CtabEntry) : State :=
  { s with ctab := Store.writeFrom s.ctab s.nent.toNat T, nent := s.nent + BitVec.ofNat 32 T.length }

theorem State.withEntries_cons {s : State} (h : s.nent.toNat < 256) (e : CtabEntry) (T : List CtabEntry) :
    ({ s with ctab := Store.write s.ctab s.nent.toNat e, nent := s.nent + 1 } : State).withEntries T =
      s.withEntries (e :: T) := by
  have hn : (s.nent + 1).toNat = s.nent.toNat + 1 := toNat_add_one (by omega)
  have hnent : s.nent + 1 + BitVec.ofNat 32 T.length = s.nent + BitVec.ofNat 32 (T.length + 1) := by
    rw [Nat.add_comm, BitVec.ofNat_add, BitVec.add_assoc]
    rfl
  simp only [withEntries, hn, hnent, Store.writeFrom, List.length_cons]

/-- The parser's loop adds entries of bounded codes, as many as there is room for, and then stands at the end
marker or raises BAD_TABLE. -/
theorem parseTable_adds_entries (ls : List Bytes) (pos : Nat) (s : State) (h : s.nent.toNat ≤ 256) :
    ∃ T, CodesBounded T ∧ s.nent.toNat + T.length ≤ 256 ∧
      ((∃ pos', parseTable ls pos s = .ok pos' (s.withEntries T)) ∨
        parseTable ls pos s = .raised .badTable (s.withEntries T)) := by
  have hnone : s.withEntries [] = s := by simp [State.withEntries, Store.writeFrom]
  have hempty : CodesBounded [] := fun _ he => nomatch he
  induction ls generalizing pos s with
  | nil => exact ⟨[], hempty, h, .inr (by rw [hnone]; rfl)⟩
  | cons l ls ih =>
    by_cases hmarker : l = marker
    · exact ⟨[], hempty, h, .inl ⟨_, by rw [parseTable, if_pos hmarker, hnone]⟩⟩
    · cases hl : parseEntry l with
      | none => exact ⟨[], hempty, h, .inr (by rw [parseTable_cons_of_bad _ _ hmarker (.inl hl), hnone])⟩
      | some e =>
        by_cases hfull : s.nent.toNat = Config.tblMax
        · exact ⟨[], hempty, h, .inr (by rw [parseTable_cons_of_bad _ _ hmarker (.inr hfull), hnone])⟩
        · have hne : s.nent.toNat ≠ 256 := hfull
          have hlt : s.nent.toNat < 256 := by omega
          have hn : (s.nent + 1).toNat = s.nent.toNat + 1 := toNat_add_one (by omega)
          have hstep : parseTable (l :: ls) pos s = parseTable ls (pos + l.length + 1)
              { s with ctab := Store.write s.ctab s.nent.toNat e, nent := s.nent + 1 } := by
            rw [parseTable, if_neg hmarker, hl]
            exact if_neg hfull
          obtain ⟨T, hcodes, hlen, hend⟩ := ih (pos + l.length + 1)
            { s with ctab := Store.write s.ctab s.nent.toNat e, nent := s.nent + 1 } (hn.trans_le hlt)
            (by simp [State.withEntries, Store.writeFrom])
          rw [State.withEntries_cons hlt] at hend
          rw [hstep]
          refine ⟨e :: T, List.forall_mem_cons.2 ⟨codeLength_of_parseEntry hl, hcodes⟩, ?_, hend⟩
          have hlen : (s.nent + 1).toNat + T.length ≤ 256 := hlen
          rw [List.length_cons]
          omega

/-- `s` after a command that raised `e`. -/
def State.failed (s : State) (e : ErrCode) : State :=
  { s with busy := false, done := true, err := true, errcode := e }

/-- PARSE of an input that fits: a table of at most 256 entries with codes of 1 to 255 bits in CTAB, and then
PARSED or an error (R196, R197, R199). -/
theorem parseBody_cases {s : State} (hfits : s.inputFits) : ∃ T, CodesBounded T ∧ T.length ≤ 256 ∧
    ((∃ n, parseBody s = .ok () { s.withTable T with hdrLen := BitVec.ofNat 32 n, phase := .parsed }) ∨
      ∃ e, e ≠ .none ∧ parseBody s = .raised e (s.beginParse.withTable T)) := by
  by_cases hmarker : ∃ x, s.input = marker ++ byteNL :: x
  · obtain ⟨x, hx⟩ := hmarker
    obtain ⟨T, hcodes, hlen, hend⟩ := parseTable_adds_entries (terminatedLines x) 6 s.beginParse (Nat.zero_le _)
    have htable : s.beginParse.withEntries T = s.beginParse.withTable T :=
      congrArg (fun n => { s.beginParse.withTable T with nent := n }) (BitVec.zero_add _)
    rw [htable] at hend
    refine ⟨T, hcodes, (Nat.zero_add _).symm.trans_le hlen, ?_⟩
    rw [parseBody_of_marker hfits hx]
    rcases hend with ⟨pos, hend⟩ | hend
    · exact .inl ⟨pos, by rw [hend]; rfl⟩
    · exact .inr ⟨.badTable, nofun, by rw [hend]; rfl⟩
  · exact ⟨[], fun _ he => (nomatch he), Nat.zero_le _,
      .inr ⟨.missingTable, nofun, parseBody_of_no_marker hfits hmarker⟩⟩

/-! ### The end of a command (R220, R230) -/

/-- `s` after a command that only completed. -/
def State.completed (s : State) : State := { s with busy := false, done := true }

/-- Every way a command can end: NOP and a command refused in the error state only complete; an error of the
issue sequence, or of a too long input, is entered; CLR ends the session; the others do what their rules say. -/
inductive Ends : Instr → State → State → Prop
  | completes {i s} : i ≠ .clr → s.err = true ∨ i = .nop → Ends i s s.completed
  | raises {i s} {e : ErrCode} : i ≠ .nop → i ≠ .clr → s.err = false → e ≠ .none → Ends i s (s.failed e)
  | clears {s} : Ends .clr s (finishCommand (clearSession (beginCommand s)))
  | counts {s} : s.ready .empty → s.inputFits → Ends .freq s s.afterFreq
  | builds {s} : s.ready .counted → Ends .tree s s.afterTree
  | encodes {s} : s.ready .treed → Ends .codes s s.afterCodes
  | finds {s sym c} : s.ready .coded ∨ s.ready .parsed →
      Ends (.lookup sym) s { setFound sym c s with busy := false, done := true }
  | misses {s sym} : s.ready .coded ∨ s.ready .parsed →
      Ends (.lookup sym) s { setNotFound sym s with busy := false, done := true }
  | packs {s} : s.ready .coded → s.inputFits →
      (encodedStream s.ctabValid s.input).length ≤ s.params.outMax.toNat → Ends .pack s s.afterPack
  | packOverflows {s nf} : s.ready .coded → s.inputFits →
      s.params.outMax.toNat < (encodedStream s.ctabValid s.input).length → OverflowNf s nf →
      Ends .pack s (s.afterPackOverflow nf)
  | packsBuilt {s t} : s.ready .empty → s.inputFits → Ends .pack s.built t → Ends .enc s t
  | parses {s T n} : s.ready .empty → s.inputFits → CodesBounded T → T.length ≤ 256 →
      Ends .parse s (s.afterParse T n)
  | parseFails {i s T} {e : ErrCode} : i = .parse ∨ i = .dec → s.ready .empty → CodesBounded T → T.length ≤ 256 →
      e ≠ .none → Ends i s ((s.beginParse.withTable T).failed e)
  | unpacks {s} : s.ready .parsed → s.inputFits → s.decoded.1.length ≤ s.params.outMax.toNat →
      Ends .unpack s s.afterUnpack
  | unpackOverflows {s} : s.ready .parsed → s.inputFits → s.params.outMax.toNat < s.decoded.1.length →
      Ends .unpack s s.afterUnpackOverflow
  | unpacksParsed {s T n t} : s.ready .empty → s.inputFits → CodesBounded T → T.length ≤ 256 →
      Ends .unpack (s.afterParse T n) t → Ends .dec s t

section
variable {s : State}

theorem exec_ends_of_inputTooLong {i : Instr} {p : Phase} (hi : readsInput i = some p) (hready : s.ready p)
    (hfits : ¬ s.inputFits) : ∃ t, exec i s = .next t ∧ Ends i s t := by
  refine ⟨_, exec_of_inputTooLong hi hready (not_le.1 hfits), .raises ?_ ?_ hready.1 nofun⟩
  · rintro rfl
    cases hi
  · rintro rfl
    cases hi

theorem exec_pack_ends (hready : s.ready .coded) : ∃ t, exec .pack s = .next t ∧ Ends .pack s t := by
  by_cases hfits : s.inputFits
  · by_cases hroom : (encodedStream s.ctabValid s.input).length ≤ s.params.outMax.toNat
    · exact ⟨_, exec_pack_of_stream_fits hready hfits hroom, .packs hready hfits hroom⟩
    · obtain ⟨nf, hexec, hnf⟩ := exec_pack_of_stream_overflows hready hfits (not_le.1 hroom)
      exact ⟨_, hexec, .packOverflows hready hfits (not_le.1 hroom) hnf⟩
  · exact exec_ends_of_inputTooLong rfl hready hfits

theorem exec_unpack_ends (hready : s.ready .parsed) : ∃ t, exec .unpack s = .next t ∧ Ends .unpack s t := by
  by_cases hfits : s.inputFits
  · by_cases hroom : s.decoded.1.length ≤ s.params.outMax.toNat
    · exact ⟨_, exec_unpack_of_symbols_fit hready hfits hroom, .unpacks hready hfits hroom⟩
    · exact ⟨_, exec_unpack_of_symbols_overflow hready hfits (not_le.1 hroom),
        .unpackOverflows hready hfits (not_le.1 hroom)⟩
  · exact exec_ends_of_inputTooLong rfl hready hfits

theorem exec_parse_ends (hready : s.ready .empty) : ∃ t, exec .parse s = .next t ∧ Ends .parse s t := by
  by_cases hfits : s.inputFits
  · obtain ⟨T, hcodes, hlen, ⟨n, hbody⟩ | ⟨e, he, hbody⟩⟩ := parseBody_cases (s := beginCommand s) hfits
    · refine ⟨s.afterParse T n, ?_, .parses hready hfits hcodes hlen⟩
      rw [exec_parse_of_ready hready, hbody]
      rfl
    · exact ⟨_, exec_of_parseBody_raised (.inl rfl) hready hbody, .parseFails (.inl rfl) hready hcodes hlen he⟩
  · exact exec_ends_of_inputTooLong rfl hready hfits

theorem exec_dec_ends (hready : s.ready .empty) : ∃ t, exec .dec s = .next t ∧ Ends .dec s t := by
  by_cases hfits : s.inputFits
  · obtain ⟨T, hcodes, hlen, ⟨n, hbody⟩ | ⟨e, he, hbody⟩⟩ := parseBody_cases (s := beginCommand s) hfits
    · obtain ⟨hparsed, hdec⟩ := exec_dec_of_parseBody_ok hready hbody
      have hstate : finishCommand { (beginCommand s).withTable T with hdrLen := BitVec.ofNat 32 n, phase := .parsed } =
          s.afterParse T n := rfl
      rw [hstate] at hparsed hdec
      obtain ⟨t, ht, hends⟩ := exec_unpack_ends hparsed
      exact ⟨t, hdec.trans ht, .unpacksParsed hready hfits hcodes hlen hends⟩
    · exact ⟨_, exec_of_parseBody_raised (.inr rfl) hready hbody, .parseFails (.inr rfl) hready hcodes hlen he⟩
  · exact exec_ends_of_inputTooLong rfl hready hfits

theorem exec_enc_ends (hready : s.ready .empty) : ∃ t, exec .enc s = .next t ∧ Ends .enc s t := by
  by_cases hfits : s.inputFits
  · obtain ⟨t, ht, hends⟩ := exec_pack_ends (s := s.built) ⟨hready.1, rfl⟩
    exact ⟨t, (exec_enc_of_inputFits hready hfits).trans ht, .packsBuilt hready hfits hends⟩
  · exact exec_ends_of_inputTooLong rfl hready hfits

theorem exec_lookup_ends {sym : Byte} (hready : s.ready .coded ∨ s.ready .parsed) :
    ∃ t, exec (.lookup sym) s = .next t ∧ Ends (.lookup sym) s t := by
  cases hc : findCode s.ctabValid sym with
  | none => exact ⟨_, exec_lookup_of_missing hready hc, .misses hready⟩
  | some c => exact ⟨_, exec_lookup_of_found hready hc, .finds hready⟩

theorem exec_freq_ends (hready : s.ready .empty) : ∃ t, exec .freq s = .next t ∧ Ends .freq s t := by
  by_cases hfits : s.inputFits
  · exact ⟨_, exec_freq_of_inputFits hready hfits, .counts hready hfits⟩
  · exact exec_ends_of_inputTooLong rfl hready hfits

/-- A command issued with no error pending, in a phase that allows it. -/
theorem exec_ends_of_legal (i : Instr) (herr : s.err = false) (hlegal : legalIn i s.phase = true) :
    ∃ t, exec i s = .next t ∧ Ends i s t := by
  cases i with
  | nop => exact ⟨_, exec_nop s, .completes nofun (.inr rfl)⟩
  | clr => exact ⟨_, exec_clr s, .clears⟩
  | freq => exact exec_freq_ends ⟨herr, eq_of_beq hlegal⟩
  | tree => exact ⟨_, exec_tree_of_ready ⟨herr, eq_of_beq hlegal⟩, .builds ⟨herr, eq_of_beq hlegal⟩⟩
  | codes => exact ⟨_, exec_codes_of_ready ⟨herr, eq_of_beq hlegal⟩, .encodes ⟨herr, eq_of_beq hlegal⟩⟩
  | lookup sym =>
    exact exec_lookup_ends ((Bool.or_eq_true_iff.1 hlegal).imp (fun h => ⟨herr, eq_of_beq h⟩)
      fun h => ⟨herr, eq_of_beq h⟩)
  | pack => exact exec_pack_ends ⟨herr, eq_of_beq hlegal⟩
  | enc => exact exec_enc_ends ⟨herr, eq_of_beq hlegal⟩
  | parse => exact exec_parse_ends ⟨herr, eq_of_beq hlegal⟩
  | unpack => exact exec_unpack_ends ⟨herr, eq_of_beq hlegal⟩
  | dec => exact exec_dec_ends ⟨herr, eq_of_beq hlegal⟩

/-- Every command ends, whatever the state, in one of the ways of `Ends`. -/
theorem exists_exec_ends (i : Instr) (s : State) : ∃ t, exec i s = .next t ∧ Ends i s t := by
  cases herr : s.err with
  | true =>
    by_cases hclr : i = .clr
    · subst hclr
      exact ⟨_, exec_clr s, .clears⟩
    · exact ⟨_, exec_of_err herr hclr, .completes hclr (.inl herr)⟩
  | false =>
    cases hlegal : legalIn i s.phase with
    | true => exact exec_ends_of_legal i herr hlegal
    | false =>
      refine ⟨_, exec_of_legalIn_false herr hlegal, .raises ?_ ?_ herr nofun⟩
      · rintro rfl
        cases hlegal
      · rintro rfl
        cases hlegal

theorem ends_of_exec {i : Instr} {t : State} (h : exec i s = .next t) : Ends i s t := by
  obtain ⟨u, hu, hends⟩ := exists_exec_ends i s
  exact Host.Outcome.next.inj (hu.symm.trans h) ▸ hends

/-- A word that is no command only completes in the error state, and else raises (R226, R236). -/
theorem issueIllegal_eq (s : State) : issueIllegal s = s.completed ∨
    (s.err = false ∧ issueIllegal s = s.failed .illegalCmd) := by
  rcases issueIllegal_cases s with ⟨-, h⟩ | ⟨herr, h⟩
  · exact .inl h
  · exact .inr ⟨herr, h.trans (raiseError_beginCommand herr _)⟩

end

/-! ### Every command finishes (R220) -/

section
variable {i : Instr} {s t : State}

theorem Ends.finished (h : Ends i s t) : t.busy = false ∧ t.done = true := by
  induction h with
  | packsBuilt _ _ _ ih => exact ih
  | unpacksParsed _ _ _ _ _ ih => exact ih
  | _ => exact ⟨rfl, rfl⟩

/-- An error entered has a code. -/
theorem Ends.errcode_ne_none (h : Ends i s t) (hs : s.err = false) (ht : t.err = true) : t.errcode ≠ .none := by
  induction h with
  | packsBuilt _ _ _ ih => exact ih hs ht
  | unpacksParsed _ _ _ _ _ ih => exact ih hs ht
  | raises _ _ _ he => exact he
  | parseFails _ _ _ _ he => exact he
  | packOverflows => exact nofun
  | unpackOverflows => exact nofun
  | clears => exact Bool.noConfusion ht
  | _ => exact absurd (hs.symm.trans ht) Bool.noConfusion

theorem exists_issueWord (w : Word) (s : State) : ∃ t, issueWord w s = .next t ∧ t.busy = false ∧ t.done = true ∧
    (s.err = false → t.err = true → t.errcode ≠ .none) := by
  cases hw : decode w with
  | command i =>
    obtain ⟨t, ht, hends⟩ := exists_exec_ends i s
    exact ⟨t, (issueWord_of_command hw s).trans ht, hends.finished.1, hends.finished.2, hends.errcode_ne_none⟩
  | illegal why =>
    refine ⟨_, issueWord_of_illegal hw s, ?_⟩
    rcases issueIllegal_eq s with h | ⟨-, h⟩ <;> rw [h]
    · exact ⟨rfl, rfl, fun hs ht => absurd (hs.symm.trans ht) Bool.noConfusion⟩
    · exact ⟨rfl, rfl, fun _ _ => nofun⟩

theorem exists_hostStep (a : HostAccess) (s : State) : ∃ t, hostStep a s = .next t := by
  rcases hostStep_cases a s with rfl | ⟨w, rfl⟩ | ⟨t, ht, -⟩
  · exact ⟨_, rfl⟩
  · cases hbusy : s.busy with
    | true => exact ⟨s, (busyHostAccessIsIgnored s hbusy).1 w⟩
    | false =>
      obtain ⟨t, ht, -⟩ := exists_issueWord w s
      exact ⟨t, (hostStep_cmd_idle hbusy w).trans ht⟩
  · exact ⟨t, ht⟩

/-- Settles O6: a command ends in one of the ways of `Ends`, none of which is a stop. -/
theorem everyCommandFinishes : Obligations.EveryCommandFinishes := by
  refine ⟨exists_issueWord, fun s => ?_⟩
  cases hq : s.hostQueue with
  | nil => exact ⟨s, step_nil hq⟩
  | cons a rest =>
    rw [step_cons hq]
    exact exists_hostStep a _

/-! ### The phase machine (R231) -/

/-- PACK and UNPACK are the ends of ENC and DEC, and neither writes PHASE. -/
theorem Ends.phase_of_pack_unpack (h : Ends i s t) (hi : i = .pack ∨ i = .unpack) : t.phase = s.phase := by
  cases h with
  | completes | raises | packs | packOverflows | unpacks | unpackOverflows => rfl
  | parseFails => rfl
  | _ => simp at hi

theorem Ends.phase_changed (h : Ends i s t) (hne : t.phase ≠ s.phase) :
    (i = .clr ∧ t.phase = .empty) ∨ (i = .freq ∧ s.phase = .empty ∧ t.phase = .counted) ∨
    (i = .tree ∧ s.phase = .counted ∧ t.phase = .treed) ∨
    (i = .codes ∧ s.phase = .treed ∧ t.phase = .coded) ∨
    (i = .enc ∧ s.phase = .empty ∧ t.phase = .coded) ∨
    ((i = .parse ∨ i = .dec) ∧ s.phase = .empty ∧ t.phase = .parsed) := by
  cases h with
  | clears => exact .inl ⟨rfl, rfl⟩
  | counts hready => exact .inr (.inl ⟨rfl, hready.2, rfl⟩)
  | builds hready => exact .inr (.inr (.inl ⟨rfl, hready.2, rfl⟩))
  | encodes hready => exact .inr (.inr (.inr (.inl ⟨rfl, hready.2, rfl⟩)))
  | packsBuilt hready _ hpack =>
    exact .inr (.inr (.inr (.inr (.inl ⟨rfl, hready.2, hpack.phase_of_pack_unpack (.inl rfl)⟩))))
  | parses hready => exact .inr (.inr (.inr (.inr (.inr ⟨.inl rfl, hready.2, rfl⟩))))
  | unpacksParsed hready _ _ _ hunpack =>
    exact .inr (.inr (.inr (.inr (.inr ⟨.inr rfl, hready.2, hunpack.phase_of_pack_unpack (.inr rfl)⟩))))
  | _ => exact absurd rfl hne

/-- The phase in which a command that moves the session leaves it, when it raises no error. -/
def phaseAfter : Instr → Option Phase
  | .clr => some .empty
  | .freq => some .counted
  | .tree => some .treed
  | .codes => some .coded
  | .enc => some .coded
  | .parse => some .parsed
  | .dec => some .parsed
  | _ => none

theorem Ends.phase_eq (h : Ends i s t) {p : Phase} (hi : phaseAfter i = some p) (hs : s.err = false)
    (ht : t.err = false) : t.phase = p := by
  cases h with
  | completes _ hc =>
    rcases hc with herr | rfl
    · exact absurd (hs.symm.trans herr) Bool.noConfusion
    · cases hi
  | raises | parseFails => exact Bool.noConfusion ht
  | packsBuilt _ _ hpack =>
    cases hi
    exact hpack.phase_of_pack_unpack (.inl rfl)
  | unpacksParsed _ _ _ _ hunpack =>
    cases hi
    exact hunpack.phase_of_pack_unpack (.inr rfl)
  | _ => cases hi <;> rfl

/-- Settles O12: PHASE is written by the ends of the listed commands alone. -/
theorem phaseTransitions : Obligations.PhaseTransitions := by
  intro i s t h
  have hends := ends_of_exec h
  refine ⟨hends.phase_changed, fun hs ht => ?_⟩
  have hphase : ∀ {j p}, phaseAfter j = some p → i = j → t.phase = p := fun hj hij =>
    hends.phase_eq (hij ▸ hj) hs ht
  exact ⟨hphase rfl, hphase rfl, hphase rfl, hphase rfl, hphase rfl, fun hi => hi.elim (hphase rfl) (hphase rfl)⟩

/-! ### What no command writes (R27, R41, R74) -/

/-- What belongs to the host, the block's capacities and the model. -/
def State.outside (s : State) : Word × Memory × Params × Nat × Nat × List HostAccess × HostData :=
  (s.inLen, s.ibuf, s.params, s.epoch, s.freeCount, s.hostQueue, s.lastRead)

theorem Ends.outside (h : Ends i s t) : t.outside = s.outside := by
  induction h with
  | packsBuilt _ _ _ ih => exact ih
  | unpacksParsed _ _ _ _ _ ih => exact ih
  | _ => rfl

theorem issueWord_outside {w : Word} (h : issueWord w s = .next t) : t.outside = s.outside := by
  cases hw : decode w with
  | command i => exact (ends_of_exec ((issueWord_of_command hw s).symm.trans h)).outside
  | illegal why =>
    obtain rfl := Host.Outcome.next.inj ((issueWord_of_illegal hw s).symm.trans h)
    rcases issueIllegal_eq s with h | ⟨-, h⟩ <;> rw [h] <;> rfl

/-- Settles O54: no end of a command writes a field of `State.outside`. -/
theorem commandsKeepTheInput : Obligations.CommandsKeepTheInput := by
  intro w s t h
  have hout := issueWord_outside h
  simp only [State.outside, Prod.mk.injEq] at hout
  obtain ⟨hlen, hibuf, hparams, hepoch, hfree, hqueue, hlast⟩ := hout
  exact ⟨hlen, hibuf, congrFun (State.ibufByte_congr hibuf hepoch), hparams, hepoch, hqueue, hlast, hfree⟩

/-! ### The output beyond OUT_LEN (R42) -/

/-- OBUF and OUT_LEN are as they were. -/
def KeepsOutput (s t : State) : Prop := t.outLen = s.outLen ∧ t.obuf = s.obuf ∧ t.epoch = s.epoch

theorem Ends.keepsOutput (h : Ends i s t)
    (hi : i ≠ .clr ∧ i ≠ .pack ∧ i ≠ .enc ∧ i ≠ .unpack ∧ i ≠ .dec) : KeepsOutput s t := by
  cases h with
  | clears | packs | packOverflows | packsBuilt | unpacks | unpackOverflows | unpacksParsed => simp at hi
  | _ => exact ⟨rfl, rfl, rfl⟩

/-- The bytes of OBUF at and beyond OUT_LEN are as they were. -/
def KeepsBeyond (s t : State) : Prop := ∀ a, t.outLen.toNat ≤ a → t.obufByte a = s.obufByte a

theorem WritesOutput.keepsBeyond {out : Bytes} (h : WritesOutput s out t) : KeepsBeyond s t :=
  fun _ ha => h.obufByte_of_le (h.outLen_toNat ▸ ha)

theorem KeepsOutput.keepsBeyond (h : KeepsOutput s t) : KeepsBeyond s t :=
  fun a _ => congrFun (State.obufByte_congr h.2.1 h.2.2) a

theorem Ends.keepsBeyond (h : Ends i s t) : KeepsBeyond s t := by
  induction h with
  | packs _ _ hroom => exact (writesOutput_afterPack hroom).keepsBeyond
  | packOverflows _ _ hover => exact (writesOutput_afterPackOverflow hover.le).keepsBeyond
  | unpacks _ _ hroom => exact (writesOutput_afterUnpack hroom).keepsBeyond
  | unpackOverflows _ _ hover => exact (writesOutput_afterUnpackOverflow hover.le).keepsBeyond
  | packsBuilt _ _ _ ih => exact ih
  | unpacksParsed _ _ _ _ _ ih => exact ih
  | _ => exact fun _ _ => rfl

/-- Settles O55: output is written from index 0 up to OUT_LEN, by PACK and UNPACK; the other commands but CLR
keep OBUF and OUT_LEN. -/
theorem outputBeyondOutLenIsKept : Obligations.OutputBeyondOutLenIsKept := by
  intro i s t h
  have hends := ends_of_exec h
  refine ⟨hends.keepsBeyond, ?_⟩
  by_cases hi : i ≠ .clr ∧ i ≠ .pack ∧ i ≠ .enc ∧ i ≠ .unpack ∧ i ≠ .dec
  · obtain ⟨hlen, hobuf, -⟩ := hends.keepsOutput hi
    exact .inl ⟨hlen, hobuf⟩
  · simp only [not_and_or, not_not] at hi
    exact .inr hi

/-! ### NF is sticky (R25) -/

theorem OverflowNf.sticky {nf : Bool} (h : OverflowNf s nf) (hs : s.nf = true) : nf = true := by
  by_cases hheader : (header s.ctabValid).length ≤ s.params.outMax.toNat
  · obtain ⟨k, -, hnf, -⟩ := h.inPayload hheader
    rw [hnf, hs, Bool.true_or]
  · rw [h.inHeader (not_le.1 hheader), hs]

theorem Ends.nf_sticky (h : Ends i s t) (hi : i ≠ .clr) (hs : s.nf = true) : t.nf = true := by
  induction h with
  | clears => exact absurd rfl hi
  | misses => rfl
  | packs =>
    show (_ || _) = true
    rw [hs, Bool.true_or]
  | packOverflows _ _ _ hnf => exact hnf.sticky hs
  | packsBuilt _ _ _ ih => exact ih nofun hs
  | unpacksParsed _ _ _ _ _ ih => exact ih nofun hs
  | _ => exact hs

/-- A write of CMD is ignored, ends as a command, or is no command (R22, R226, R262). -/
theorem hostCmdWrite_ends {w : Word} (h : hostCmdWrite w s = .next t) :
    t = s ∨ (∃ i, decode w = .command i ∧ Ends i s t) ∨ t = s.completed ∨
      (s.err = false ∧ t = s.failed .illegalCmd) := by
  rcases hostCmdWrite_cases w s with ⟨-, hx⟩ | ⟨i, hd, hx⟩ | ⟨why, -, hx⟩
  · exact .inl (Host.Outcome.next.inj (h.symm.trans hx))
  · exact .inr (.inl ⟨i, hd, ends_of_exec (hx.symm.trans h)⟩)
  · rw [Host.Outcome.next.inj (h.symm.trans hx)]
    exact .inr (.inr (issueIllegal_eq s))

/-- Settles O56: the ends of the commands but CLR keep NF when it is set, and no other access but reset
reaches it. -/
theorem nfIsSticky : Obligations.NfIsSticky := by
  intro a s t hs h ht
  have hcleared : t.nf ≠ true := fun hset => Bool.noConfusion (ht.symm.trans hset)
  rcases hostStep_cases a s with hr | ⟨w, rfl⟩ | ⟨u, hx, hu⟩
  · exact .inl hr
  · rcases hostCmdWrite_ends h with rfl | ⟨i, hd, hends⟩ | rfl | ⟨-, rfl⟩
    · exact absurd hs hcleared
    · by_cases hi : i = .clr
      · exact .inr ⟨w, rfl, hi ▸ hd⟩
      · exact absurd (hends.nf_sticky hi hs) hcleared
    · exact absurd hs hcleared
    · exact absurd hs hcleared
  · cases hx.symm.trans h
    exact absurd ((congrArg State.nf hu).trans hs) hcleared

/-! ### The tables of a session (R256) -/

/-- `t` has the tables that the phase of `s` makes valid, and a phase that keeps them valid. -/
structure KeepsSession (s t : State) : Prop where
  ftab : s.phase ≠ .empty → t.phase ≠ .empty ∧ t.ftabValid = s.ftabValid
  tree : s.phase = .treed ∨ s.phase = .coded ∨ s.phase = .parsed →
    t.nodeValid = s.nodeValid ∧ t.root = s.root
  codes : s.phase = .coded ∨ s.phase = .parsed → t.phase = s.phase ∧ t.ctabValid = s.ctabValid

/-- Nothing of the session is written. -/
theorem KeepsSession.of_eq (hphase : t.phase = s.phase) (htables : t.tables = s.tables) : KeepsSession s t where
  ftab h := ⟨hphase ▸ h, congrArg Tables.ftab htables⟩
  tree _ := ⟨congrArg Tables.node htables, congrArg Tables.root htables⟩
  codes _ := ⟨hphase, congrArg Tables.ctab htables⟩

/-- In EMPTY no table is valid. -/
theorem KeepsSession.of_empty (h : s.phase = .empty) : KeepsSession s t where
  ftab hne := absurd h hne
  tree hp := by simp [h] at hp
  codes hp := by simp [h] at hp

theorem Ends.keepsSession (h : Ends i s t) (hi : i ≠ .clr) : KeepsSession s t := by
  cases h with
  | clears => exact absurd rfl hi
  | counts hready | packsBuilt hready | parses hready | unpacksParsed hready => exact .of_empty hready.2
  | parseFails _ hready => exact .of_empty hready.2
  | builds hready =>
    exact ⟨fun _ => ⟨nofun, rfl⟩, fun hp => by simp [hready.2] at hp, fun hp => by simp [hready.2] at hp⟩
  | encodes hready => exact ⟨fun _ => ⟨nofun, rfl⟩, fun _ => ⟨rfl, rfl⟩, fun hp => by simp [hready.2] at hp⟩
  | _ => exact .of_eq rfl rfl

theorem HostTouches.keepsSession (h : HostTouches s t) : KeepsSession s t := by
  rw [HostTouches] at h
  rw [h]
  exact .of_eq rfl rfl

/-- Settles O57: a command that writes a table runs in the phase before that table is valid. -/
theorem tablesAreImmutableInASession : Obligations.TablesAreImmutableInASession := by
  intro a s t h hreset hclr
  have hkeeps : KeepsSession s t := by
    rcases hostStep_cases a s with hr | ⟨w, rfl⟩ | ⟨u, hx, hu⟩
    · exact absurd hr hreset
    · rcases hostCmdWrite_ends h with rfl | ⟨i, hd, hends⟩ | rfl | ⟨-, rfl⟩
      · exact .of_eq rfl rfl
      · exact hends.keepsSession fun hi => hclr w rfl (hi ▸ hd)
      · exact .of_eq rfl rfl
      · exact .of_eq rfl rfl
    · cases hx.symm.trans h
      exact hu.keepsSession
  exact ⟨hkeeps.ftab, hkeeps.tree, hkeeps.codes⟩

end

end Sys2Proof.Machine
end

