-- ==== Sys2Proof/Proofs/Invariants.lean ====
section
/-! PROOFS. The invariants of the registers and stores and those of the valid tables (R12, R24 to R37): what
reset leaves has them, every end of a command keeps them, and so does every other access of the host. -/

namespace Sys2Proof.Machine

/-! ### The stores (R6, R34 to R36, R41, R42) -/

/-- Canonical, and nothing written at or beyond `cap`. -/
structure Store.FitsIn {α : Type} (m : Store α) (cap : Nat) : Prop where
  wf : Store.wf m = true
  within : Store.within m cap = true

theorem Store.FitsIn.writeFrom {α : Type} {m : Store α} {cap : Nat} (h : m.FitsIn cap) {vs : List α}
    (hlen : vs.length ≤ cap) : (Store.writeFrom m 0 vs).FitsIn cap :=
  ⟨Store.wf_writeFrom vs 0 h.wf, Store.within_writeFrom vs 0 ((Nat.zero_add _).trans_le hlen) h.within⟩

theorem Store.FitsIn.write {α : Type} {m : Store α} {cap a : Nat} (h : m.FitsIn cap) (v : α) (ha : a < cap) :
    (Store.write m a v).FitsIn cap :=
  ⟨Store.wf_write a v h.wf, Store.within_write ha h.within⟩

theorem Store.mem_writeFrom {α : Type} {m : Store α} {i : Nat} {vs : List α} {c : Nat × α}
    (h : c ∈ Store.writeFrom m i vs) : c.2 ∈ vs ∨ c ∈ m := by
  induction vs generalizing m i with
  | nil => exact .inr h
  | cons v vs ih =>
    rcases ih h with hc | hc
    · exact .inl (List.mem_cons_of_mem v hc)
    · rcases Store.mem_write hc with rfl | hc
      · exact .inl List.mem_cons_self
      · exact .inr hc

/-- Each store is canonical and within its capacity. -/
structure State.StoresFit (s : State) : Prop where
  ibuf : Store.FitsIn s.ibuf s.params.inMax.val
  obuf : Store.FitsIn s.obuf s.params.outMax.toNat
  ftab : Store.FitsIn s.ftab 256
  ctab : Store.FitsIn s.ctab 256
  node : Store.FitsIn s.node 511

theorem State.storesFit_iff {s : State} : s.StoresFit ↔ s.canonical = true ∧ s.inBounds = true := by
  simp only [State.canonical, State.inBounds, Bool.and_eq_true]
  constructor
  · rintro ⟨hi, ho, hf, hc, hn⟩
    exact ⟨⟨⟨⟨⟨hi.wf, ho.wf⟩, hf.wf⟩, hc.wf⟩, hn.wf⟩, ⟨⟨⟨hi.within, ho.within⟩, hf.within⟩, hc.within⟩, hn.within⟩
  · rintro ⟨⟨⟨⟨⟨hi, ho⟩, hf⟩, hc⟩, hn⟩, ⟨⟨⟨hi', ho'⟩, hf'⟩, hc'⟩, hn'⟩
    exact ⟨⟨hi, hi'⟩, ⟨ho, ho'⟩, ⟨hf, hf'⟩, ⟨hc, hc'⟩, ⟨hn, hn'⟩⟩

section
variable {i : Instr} {s t : State}

theorem State.Inv.stores (h : s.Inv) : s.StoresFit := State.storesFit_iff.2 ⟨h.canonical, h.inBounds⟩

theorem State.Inv.of_stores (hstores : s.StoresFit) (hkeys : s.keysBounded = true) (hidle : s.busy = false)
    (hout : s.outLen.toNat ≤ s.params.outMax.toNat) (hflags : s.flagsMatch) (hsession : s.sessionShape) : s.Inv :=
  have ⟨hcanonical, hbounds⟩ := State.storesFit_iff.1 hstores
  ⟨hcanonical, hbounds, hkeys, hidle, hout, hflags, hsession⟩

/-! ### The counts of a phase (R29) -/

/-- The registers whose values a phase bounds. -/
def State.counts (s : State) : Phase × Word × Word × NodeIndex × Word := (s.phase, s.nsym, s.nnode, s.root, s.nent)

theorem State.sessionShape.congr (h : s.sessionShape) (hcounts : t.counts = s.counts)
    (herr : t.err = false → s.err = false) : t.sessionShape := by
  simp only [State.counts, Prod.mk.injEq] at hcounts
  obtain ⟨hphase, hnsym, hnnode, hroot, hnent⟩ := hcounts
  simp only [State.sessionShape, State.treeCounts, hphase, hnsym, hnnode, hroot, hnent] at h ⊢
  cases hp : s.phase with
  | empty =>
    rw [hp] at h
    obtain ⟨hsym, hnode, hnone, hzero, hle⟩ := h
    exact ⟨hsym, hnode, hnone, fun ht => hzero (herr ht), hle⟩
  | _ =>
    rw [hp] at h
    exact h

theorem State.Inv.of_empty (h : s.Inv) (hp : s.phase = .empty) : s.nsym = 0 ∧ s.nnode = 0 ∧
    s.root = Config.none9 ∧ (s.err = false → s.nent = 0) ∧ s.nent.toNat ≤ 256 := by
  have hsession := h.session
  rwa [State.sessionShape, hp] at hsession

theorem State.Inv.of_counted (h : s.Inv) (hp : s.phase = .counted) : s.nsym.toNat ≤ 256 ∧ s.nent = 0 := by
  have hsession := h.session
  rw [State.sessionShape, hp] at hsession
  obtain ⟨hle, -, -, hnent⟩ := hsession
  exact ⟨hle, hnent⟩

theorem State.Inv.of_treed (h : s.Inv) (hp : s.phase = .treed) : s.nsym.toNat ≤ 256 ∧ s.treeCounts := by
  have hsession := h.session
  rw [State.sessionShape, hp] at hsession
  obtain ⟨hle, -, hcounts⟩ := hsession
  exact ⟨hle, hcounts⟩

/-! ### The ends of the commands keep the invariants of the registers and stores -/

theorem State.Inv.completed (h : s.Inv) : s.completed.Inv :=
  ⟨h.canonical, h.inBounds, h.keys, rfl, h.outputFits, h.flags, h.session⟩

/-- An error is entered with its code (R24). -/
theorem State.Inv.failed (h : s.Inv) {e : ErrCode} (he : e ≠ .none) : (s.failed e).Inv := by
  obtain ⟨hpad, hpadBits, htrunc, -⟩ := h.flags
  exact ⟨h.canonical, h.inBounds, h.keys, rfl, h.outputFits, ⟨hpad, hpadBits, htrunc, fun _ => he, fun _ => rfl⟩,
    h.session.congr rfl nofun⟩

theorem State.Inv.cleared (h : s.Inv) : (finishCommand (clearSession (beginCommand s))).Inv :=
  ⟨h.canonical, h.inBounds, h.keys, rfl, Nat.zero_le _, ⟨rfl, Nat.zero_le _, rfl, nofun, fun hne => absurd rfl hne⟩,
    ⟨rfl, rfl, rfl, fun _ => rfl, Nat.zero_le _⟩⟩

theorem State.Inv.afterFreq (h : s.Inv) (hready : s.ready .empty) (hfits : s.inputFits) : s.afterFreq.Inv := by
  obtain ⟨-, hnnode, hroot, hnent, -⟩ := h.of_empty hready.2
  have hlen := hfits.freqTable_countsBytes.length_le
  exact .of_stores { h.stores with ftab := h.stores.ftab.writeFrom hlen } h.keys rfl h.outputFits h.flags
    ⟨(State.afterFreq_nsym_toNat hfits).trans_le hlen, hnnode, hroot, hnent hready.1⟩

/-- NNODE and ROOT after TREE, whatever FTAB holds (R29, R157, R160). -/
theorem State.afterTree_treeCounts (hle : s.nsym.toNat ≤ 256) : s.afterTree.treeCounts := by
  have hlen := s.ftabValid_length
  refine ⟨fun hzero => ?_, fun hne => ?_⟩
  · have hnil : s.ftabValid = [] := List.eq_nil_of_length_eq_zero (hlen.trans (congrArg BitVec.toNat hzero))
    exact ⟨congrArg (fun f => BitVec.ofNat 32 (buildTree f).1.length) hnil, congrArg (fun f => (buildTree f).2) hnil⟩
  · have hcons : s.ftabValid ≠ [] := fun hnil => hne (BitVec.eq_of_toNat_eq (hlen.symm.trans (by rw [hnil]; rfl)))
    have hcount := (buildTree_counts hcons).1
    rw [State.afterTree_nnode_toNat_of_le hle]
    refine ⟨?_, buildTree_root_toNat hcons (hlen.trans_le hle)⟩
    show (buildTree s.ftabValid).1.length = 2 * s.nsym.toNat - 1
    omega

theorem State.afterTree_keysBounded (h : s.keysBounded = true) (hle : s.nsym.toNat ≤ 256) :
    s.afterTree.keysBounded = true := by
  simp only [State.keysBounded, List.all_eq_true, Bool.and_eq_true, decide_eq_true_eq] at h ⊢
  intro c hc
  rcases Store.mem_writeFrom hc with hnew | hold
  · exact buildTree_keyLengths (s.ftabValid_length.trans_le hle) _ hnew
  · exact h c hold

theorem State.Inv.afterTree (h : s.Inv) (hready : s.ready .counted) : s.afterTree.Inv := by
  obtain ⟨hle, hnent⟩ := h.of_counted hready.2
  have hlen := buildTree_length_le (s.ftabValid_length.trans_le hle)
  exact .of_stores { h.stores with node := h.stores.node.writeFrom hlen } (State.afterTree_keysBounded h.keys hle) rfl
    h.outputFits h.flags ⟨hle, hnent, State.afterTree_treeCounts hle⟩

theorem State.Inv.afterCodes (h : s.Inv) (hready : s.ready .treed) : s.afterCodes.Inv := by
  obtain ⟨hle, hcounts⟩ := h.of_treed hready.2
  have hlen := (codeTable_length s).trans_le hle
  exact .of_stores { h.stores with ctab := h.stores.ctab.writeFrom hlen } h.keys rfl h.outputFits h.flags
    ⟨hle, rfl, hcounts⟩

theorem State.Inv.built (h : s.Inv) (hready : s.ready .empty) (hfits : s.inputFits) : s.built.Inv :=
  ((h.afterFreq hready hfits).afterTree ⟨hready.1, rfl⟩).afterCodes ⟨hready.1, rfl⟩

theorem State.Inv.found (h : s.Inv) (sym : Byte) (c : Bits) :
    ({ setFound sym c s with busy := false, done := true } : State).Inv :=
  ⟨h.canonical, h.inBounds, h.keys, rfl, h.outputFits, h.flags, h.session⟩

theorem State.Inv.notFound (h : s.Inv) (sym : Byte) :
    ({ setNotFound sym s with busy := false, done := true } : State).Inv :=
  ⟨h.canonical, h.inBounds, h.keys, rfl, h.outputFits, h.flags, h.session⟩

/-- The stores and the capacities but for OBUF. -/
def State.tableStores (s : State) : Params × Memory × Store FtabEntry × Store CtabEntry × Store NodeEntry :=
  (s.params, s.ibuf, s.ftab, s.ctab, s.node)

/-- A command that writes its output and the length registers (R42). -/
theorem State.Inv.of_writesOutput (h : s.Inv) {out : Bytes} (hout : WritesOutput s out t)
    (hstores : t.tableStores = s.tableStores) (hcounts : t.counts = s.counts) (hidle : t.busy = false)
    (herr : t.err = false → s.err = false) (hflags : t.flagsMatch) : t.Inv := by
  simp only [State.tableStores, Prod.mk.injEq] at hstores
  obtain ⟨hparams, hibuf, hftab, hctab, hnode⟩ := hstores
  obtain ⟨fibuf, fobuf, fftab, fctab, fnode⟩ := h.stores
  have hobuf : Store.FitsIn t.obuf t.params.outMax.toNat := by
    rw [hout.obuf, hparams]
    exact fobuf.writeFrom hout.fits
  refine .of_stores ⟨?_, hobuf, hftab ▸ fftab, hctab ▸ fctab, hnode ▸ fnode⟩ ?_ hidle ?_ hflags
    (h.session.congr hcounts herr)
  · rw [hibuf, hparams]
    exact fibuf
  · rw [State.keysBounded, hnode]
    exact h.keys
  · rw [hout.outLen_toNat, hparams]
    exact hout.fits

theorem State.Inv.afterPack (h : s.Inv) (hroom : (encodedStream s.ctabValid s.input).length ≤ s.params.outMax.toNat) :
    s.afterPack.Inv := by
  obtain ⟨-, -, htrunc, herr⟩ := h.flags
  have hpad := padCount_lt (encodedBits s.ctabValid s.input).length
  have hpadBits := padBits_toNat (encodedBits s.ctabValid s.input).length
  exact h.of_writesOutput (writesOutput_afterPack hroom) rfl rfl rfl id
    ⟨(ofNat_bne_zero (hpad.trans (by decide))).symm, hpadBits.trans_le (Nat.le_of_lt_succ hpad), htrunc, herr⟩

theorem State.Inv.afterPackOverflow (h : s.Inv) (nf : Bool)
    (hover : s.params.outMax.toNat < (encodedStream s.ctabValid s.input).length) : (s.afterPackOverflow nf).Inv := by
  obtain ⟨-, -, htrunc, -⟩ := h.flags
  exact h.of_writesOutput (writesOutput_afterPackOverflow hover.le) rfl rfl rfl nofun
    ⟨rfl, Nat.zero_le _, htrunc, fun _ => nofun, fun _ => rfl⟩

theorem State.Inv.afterUnpack (h : s.Inv) (hfits : s.inputFits)
    (hroom : s.decoded.1.length ≤ s.params.outMax.toNat) : s.afterUnpack.Inv := by
  obtain ⟨hpad, hpadBits, -, herr⟩ := h.flags
  exact h.of_writesOutput (writesOutput_afterUnpack hroom) rfl rfl rfl id
    ⟨hpad, hpadBits, hfits.afterUnpack_trunc.2, herr⟩

theorem State.Inv.afterUnpackOverflow (h : s.Inv) (hover : s.params.outMax.toNat < s.decoded.1.length) :
    s.afterUnpackOverflow.Inv := by
  obtain ⟨hpad, hpadBits, -, -⟩ := h.flags
  exact h.of_writesOutput (writesOutput_afterUnpackOverflow hover.le) rfl rfl rfl nofun
    ⟨hpad, hpadBits, rfl, fun _ => nofun, fun _ => rfl⟩

/-- The table that PARSE reads is within CTAB. -/
theorem State.StoresFit.withTable (h : s.StoresFit) {T : List CtabEntry} (hlen : T.length ≤ 256) :
    (s.withTable T).StoresFit :=
  { h with ctab := h.ctab.writeFrom hlen }

theorem State.withTable_nent_le (s : State) {T : List CtabEntry} (hlen : T.length ≤ 256) :
    (s.withTable T).nent.toNat ≤ 256 :=
  ((BitVec.toNat_ofNat ..).trans_le (Nat.mod_le ..)).trans hlen

theorem State.Inv.afterParse (h : s.Inv) (hready : s.ready .empty) {T : List CtabEntry} (n : Nat)
    (hlen : T.length ≤ 256) : (s.afterParse T n).Inv := by
  obtain ⟨hnsym, hnnode, hroot, -, -⟩ := h.of_empty hready.2
  have ⟨fibuf, fobuf, fftab, fctab, fnode⟩ := h.stores.withTable hlen
  exact .of_stores ⟨fibuf, fobuf, fftab, fctab, fnode⟩ h.keys rfl h.outputFits h.flags
    ⟨hnsym, hnnode, hroot, s.withTable_nent_le hlen⟩

/-- A table refused leaves its entries in CTAB, in the error state (R223). -/
theorem State.Inv.parseFailed (h : s.Inv) (hready : s.ready .empty) {T : List CtabEntry} {e : ErrCode}
    (hlen : T.length ≤ 256) (he : e ≠ .none) : ((s.beginParse.withTable T).failed e).Inv := by
  obtain ⟨hnsym, hnnode, hroot, -, -⟩ := h.of_empty hready.2
  obtain ⟨hpad, hpadBits, htrunc, -⟩ := h.flags
  have ⟨fibuf, fobuf, fftab, fctab, fnode⟩ := h.stores.withTable hlen
  refine .of_stores ⟨fibuf, fobuf, fftab, fctab, fnode⟩ h.keys rfl h.outputFits
    ⟨hpad, hpadBits, htrunc, fun _ => he, fun _ => rfl⟩ ?_
  have hphase : ((s.beginParse.withTable T).failed e).phase = .empty := hready.2
  rw [State.sessionShape, hphase]
  exact ⟨hnsym, hnnode, hroot, nofun, s.withTable_nent_le hlen⟩

/-- Every end of a command keeps the invariants of the registers and stores. -/
theorem Ends.inv (h : Ends i s t) : s.Inv → t.Inv := by
  induction h with
  | completes => exact State.Inv.completed
  | raises _ _ _ he => exact fun hs => hs.failed he
  | clears => exact State.Inv.cleared
  | counts hready hfits => exact fun hs => hs.afterFreq hready hfits
  | builds hready => exact fun hs => hs.afterTree hready
  | encodes hready => exact fun hs => hs.afterCodes hready
  | finds => exact fun hs => hs.found _ _
  | misses => exact fun hs => hs.notFound _
  | packs _ _ hroom => exact fun hs => hs.afterPack hroom
  | packOverflows _ _ hover => exact fun hs => hs.afterPackOverflow _ hover
  | packsBuilt hready hfits _ ih => exact fun hs => ih (hs.built hready hfits)
  | parses hready _ _ hlen => exact fun hs => hs.afterParse hready _ hlen
  | parseFails _ hready _ hlen he => exact fun hs => hs.parseFailed hready hlen he
  | unpacks _ hfits hroom => exact fun hs => hs.afterUnpack hfits hroom
  | unpackOverflows _ _ hover => exact fun hs => hs.afterUnpackOverflow hover
  | unpacksParsed hready _ _ hlen _ ih => exact fun hs => ih (hs.afterParse hready _ hlen)

/-! ### Reset and the host's other accesses keep them -/

theorem inv_afterReset (p : Params) (e n : Nat) (q : List HostAccess) (d : HostData) :
    (State.afterReset p e n q d).Inv :=
  ⟨rfl, rfl, rfl, rfl, Nat.zero_le _, ⟨rfl, Nat.zero_le _, rfl, nofun, fun hne => absurd rfl hne⟩,
    ⟨rfl, rfl, rfl, fun _ => rfl, Nat.zero_le _⟩⟩

theorem State.Inv.hostCmdWrite (h : s.Inv) {w : Word} (hx : hostCmdWrite w s = .next t) : t.Inv := by
  rcases hostCmdWrite_ends hx with rfl | ⟨i, -, hends⟩ | rfl | ⟨-, rfl⟩
  · exact h
  · exact hends.inv h
  · exact h.completed
  · exact h.failed nofun

theorem State.Inv.hostRegWrite (h : s.Inv) (n : Nat) (v : Word) : (hostRegWrite n v s).Inv := by
  rw [Machine.hostRegWrite, h.idle]
  by_cases hn : n = 3
  · rw [if_neg Bool.false_ne_true, if_pos hn]
    exact ⟨h.canonical, h.inBounds, h.keys, rfl, h.outputFits, h.flags, h.session⟩
  · rwa [if_neg Bool.false_ne_true, if_neg hn]

/-- A write of IBUF goes below IN_MAX (R41, R63). -/
theorem State.Inv.hostIbufWrite (h : s.Inv) (a : Nat) (b : Byte) : (hostIbufWrite a b s).Inv := by
  rw [Machine.hostIbufWrite, h.idle]
  by_cases ha : a < s.params.inMax.val
  · rw [if_neg Bool.false_ne_true, if_pos ha]
    exact .of_stores { h.stores with ibuf := h.stores.ibuf.write b ha } h.keys rfl h.outputFits h.flags h.session
  · rwa [if_neg Bool.false_ne_true, if_neg ha]

theorem OnlyRead.inv (hx : OnlyRead s t) (h : s.Inv) : t.Inv := by
  obtain ⟨d, n, rfl⟩ := hx
  exact ⟨h.canonical, h.inBounds, h.keys, h.idle, h.outputFits, h.flags, h.session⟩

theorem State.Inv.hostStep (h : s.Inv) {a : HostAccess} (hx : hostStep a s = .next t) : t.Inv := by
  by_cases hread : a.isRead
  · obtain ⟨u, hu, honly⟩ := hostStep_onlyRead hread s
    exact Host.Outcome.next.inj (hu.symm.trans hx) ▸ honly.inv h
  · cases a with
    | regWrite n v =>
      by_cases hn : n = 0
      · rw [hn] at hx
        exact h.hostCmdWrite hx
      · exact Host.Outcome.next.inj ((if_neg hn).symm.trans hx) ▸ h.hostRegWrite n v
    | ibufWrite a b => exact Host.Outcome.next.inj hx ▸ h.hostIbufWrite a b
    | reset => exact Host.Outcome.next.inj hx ▸ inv_afterReset ..
    | _ => exact absurd trivial hread

theorem State.Inv.popped (h : s.Inv) (rest : List HostAccess) : ({ s with hostQueue := rest } : State).Inv :=
  ⟨h.canonical, h.inBounds, h.keys, h.idle, h.outputFits, h.flags, h.session⟩

/-- Settles O58: a step holds the state or takes an access, which keeps the invariants. -/
theorem stepKeepsTheInvariants : Obligations.StepKeepsTheInvariants := by
  intro s t h hx
  cases hq : s.hostQueue with
  | nil => exact Host.Outcome.next.inj ((step_nil hq).symm.trans hx) ▸ h
  | cons a rest => exact (h.popped rest).hostStep ((step_cons hq).symm.trans hx)

/-! ### The valid tables (R34, R35, R37, R170) -/

/-- The invariants of the tables are of the phase and the valid tables alone. -/
theorem State.tablesOk.congr (h : s.tablesOk) (hphase : t.phase = s.phase) (htables : t.tables = s.tables) :
    t.tablesOk := by
  have hftab : t.ftabValid = s.ftabValid := congrArg Tables.ftab htables
  have hnode : t.nodeValid = s.nodeValid := congrArg Tables.node htables
  have hroot : t.root = s.root := congrArg Tables.root htables
  have hctab : t.ctabValid = s.ctabValid := congrArg Tables.ctab htables
  obtain ⟨fftab, ftree, fcodes, fparsed⟩ := h
  constructor <;> simp only [hphase, hftab, hnode, hroot, hctab] <;> assumption

theorem State.tablesOk.of_empty (h : s.phase = .empty) : s.tablesOk := by
  constructor <;> simp [h]

theorem State.tablesOk_afterFreq (hfits : s.inputFits) : s.afterFreq.tablesOk where
  ftab _ := State.afterFreq_ftabValid hfits ▸ hfits.freqTable_ftabOk
  tree h := h.elim nofun nofun
  codes := nofun
  parsed := nofun

theorem State.tablesOk.afterTree (h : s.tablesOk) (hready : s.ready .counted) : s.afterTree.tablesOk := by
  have hf := h.ftab (.inl hready.2)
  refine ⟨fun _ => hf, fun _ => ?_, nofun, nofun⟩
  rw [State.afterTree_nodeValid hf]
  exact hf.treeOk

theorem State.tablesOk.afterCodes (h : s.tablesOk) (hready : s.ready .treed) : s.afterCodes.tablesOk := by
  have htreed : s.Treed := ⟨h.ftab (.inr (.inl hready.2)), h.tree (.inl hready.2)⟩
  refine ⟨fun _ => htreed.ftab, fun _ => htreed.tree, fun _ => ?_, nofun⟩
  rw [State.afterCodes_ctabValid]
  exact ⟨codeTable_syms s, htreed.codesBounded, htreed.prefixFree⟩

theorem State.tablesOk_built (hready : s.ready .empty) (hfits : s.inputFits) : s.built.tablesOk :=
  ((State.tablesOk_afterFreq hfits).afterTree ⟨hready.1, rfl⟩).afterCodes ⟨hready.1, rfl⟩

theorem State.tablesOk_afterParse (s : State) {T : List CtabEntry} (n : Nat) (hcodes : CodesBounded T)
    (hlen : T.length ≤ 256) : (s.afterParse T n).tablesOk where
  ftab h := h.elim nofun fun h => h.elim nofun nofun
  tree h := h.elim nofun nofun
  codes := nofun
  parsed _ := by
    have htable : (s.afterParse T n).ctabValid = T := s.withTable_ctabValid hlen
    rwa [htable]

/-- Every end of a command keeps the invariants of the valid tables. -/
theorem Ends.tablesOk (h : Ends i s t) : s.tablesOk → t.tablesOk := by
  induction h with
  | clears => exact fun _ => .of_empty rfl
  | counts _ hfits => exact fun _ => State.tablesOk_afterFreq hfits
  | builds hready => exact fun hs => hs.afterTree hready
  | encodes hready => exact fun hs => hs.afterCodes hready
  | packsBuilt hready hfits _ ih => exact fun _ => ih (State.tablesOk_built hready hfits)
  | parses _ _ hcodes hlen => exact fun _ => State.tablesOk_afterParse _ _ hcodes hlen
  | parseFails _ hready => exact fun _ => .of_empty hready.2
  | unpacksParsed _ _ hcodes hlen _ ih => exact fun _ => ih (State.tablesOk_afterParse _ _ hcodes hlen)
  | _ => exact fun hs => hs.congr rfl rfl

theorem State.tablesOk.hostCmdWrite (h : s.tablesOk) {w : Word} (hx : hostCmdWrite w s = .next t) : t.tablesOk := by
  rcases hostCmdWrite_ends hx with rfl | ⟨i, -, hends⟩ | rfl | ⟨-, rfl⟩
  · exact h
  · exact hends.tablesOk h
  · exact h.congr rfl rfl
  · exact h.congr rfl rfl

theorem HostTouches.tablesOk (hx : HostTouches s t) (h : s.tablesOk) : t.tablesOk := by
  rw [HostTouches] at hx
  rw [hx]
  exact h.congr rfl rfl

theorem State.tablesOk.hostStep (h : s.tablesOk) {a : HostAccess} (hx : hostStep a s = .next t) : t.tablesOk := by
  rcases hostStep_cases a s with rfl | ⟨w, rfl⟩ | ⟨u, hu, htouches⟩
  · cases hx
    exact .of_empty rfl
  · exact h.hostCmdWrite hx
  · exact Host.Outcome.next.inj (hu.symm.trans hx) ▸ htouches.tablesOk h

/-- Settles O60: a step holds the state or takes an access, which keeps the invariants of the tables. -/
theorem stepKeepsTheTables : Obligations.StepKeepsTheTables := by
  intro s t _ h hx
  cases hq : s.hostQueue with
  | nil => exact Host.Outcome.next.inj ((step_nil hq).symm.trans hx) ▸ h
  | cons a rest =>
    have hpopped : ({ s with hostQueue := rest } : State).tablesOk := h.congr rfl rfl
    exact hpopped.hostStep ((step_cons hq).symm.trans hx)

/-- Settles O59: no store is written, and in EMPTY no table is valid. -/
theorem resetMeetsTheInvariants : Obligations.ResetMeetsTheInvariants :=
  ⟨inv_afterReset .., .of_empty rfl, fun p e n q d => ⟨inv_afterReset p e n q d, .of_empty rfl⟩⟩

end

end Sys2Proof.Machine
end
